-- ==== Sys2Proof/Word.lean ====
section
/-! DEFINITION. The words of the block: widths as `spec/00_scope.md` R10 fixes them (7-bit address, 8-bit data unit,
12-bit pin identifier, 16-bit length) and the port words of `spec/30_encoding.md` R56. -/

namespace Sys2Proof

/-- One data unit or one payload byte (`DATA_BITS = 8`, R10). -/
abbrev Byte := BitVec 8

/-- A word of format H or R (R56). -/
abbrev Word := BitVec 32

/-- A word of format S, the STATUS view (R56, R31). -/
abbrev StatusWord := BitVec 16

/-- A pin identifier (`PIN_ID_BITS = 12`, R10, R17). -/
abbrev PinId := BitVec 12

/-- A target address (`ADDR_BITS = 7`, R10, R39). -/
abbrev Addr := BitVec 7

/-- A payload length or payload index, at most `MAX_LEN = 65535` (R10, R39). -/
abbrev Len := BitVec 16

/-- The level of a line: `false` is low (0), `true` is high (1) (R11). -/
abbrev Level := Bool

end Sys2Proof
end

