-- ==== Sys2Proof/Syntax.lean ====
section
/-! DEFINITION. The instructions: one constructor per row of `spec/opcode_table.json` (three host commands of format H,
thirteen micro-operations of format U), and the words as they cross the ports. -/

namespace Sys2Proof

/-- The sixteen instructions. A host command carries the operands of its word (`spec/30_encoding.md` R58) and
TRANSFER_WRITE its attached payload bytes (R59); a micro-operation carries at most the level in `ARG[0]` (R64). -/
inductive Instr where
  /-- BUS_INIT `CLK`, `DAT` (R94). -/
  | busInit (clk dat : PinId)
  /-- BUS_DEINIT (R95). -/
  | busDeinit
  /-- TRANSFER_WRITE `ADDR`, `LEN` and the `LEN` payload bytes (R96, R59). -/
  | transferWrite (addr : Addr) (len : Len) (payload : List Byte)
  /-- ACQUIRE (R73). -/
  | acquire
  /-- RELEASE (R74). -/
  | release
  /-- DRIVE_CLOCK `l` (R75). -/
  | driveClock (l : Level)
  /-- DRIVE_DATA `l` (R76). -/
  | driveData (l : Level)
  /-- READ_DATA (R77). -/
  | readData
  /-- READ_CLOCK (R78). -/
  | readClock
  /-- SETTLE (R79). -/
  | settle
  /-- START (R87). -/
  | start
  /-- SEND_BIT `b` (R88). -/
  | sendBit (b : Level)
  /-- SEND_ADDRESS (R89). -/
  | sendAddress
  /-- SEND_BYTE (R90). -/
  | sendByte
  /-- SAMPLE_ACK (R91). -/
  | sampleAck
  /-- STOP (R92). -/
  | stop
  deriving DecidableEq, Repr

/-- A word with the port it arrives on, which alone decides its format (R56): a format H word with the payload bytes
taken in the same handshake (R59), or a format U word on the internal port (R64). -/
inductive PortWord where
  | host (w : Word) (payload : List Byte)
  | micro (w : Byte)
  deriving DecidableEq, Repr

/-- The pseudo-instruction `probe addr`: a TRANSFER_WRITE with `LEN = 0`, the address-only probe (R69). -/
def Instr.probe (addr : Addr) : Instr := .transferWrite addr 0#16 []

/-- The listing syntax of one instruction (`spec/30_encoding.md` R68), numbers in decimal. -/
def Instr.listing : Instr → String
  | .busInit c d => "bus_init " ++ toString c.toNat ++ ", " ++ toString d.toNat
  | .busDeinit => "bus_deinit"
  | .transferWrite a _ p =>
    "transfer_write " ++ toString a.toNat ++ ", [" ++ ", ".intercalate (p.map fun b => toString b.toNat) ++ "]"
  | .acquire => "acquire"
  | .release => "release"
  | .driveClock l => "drive_clock " ++ toString l.toNat
  | .driveData l => "drive_data " ++ toString l.toNat
  | .readData => "read_data"
  | .readClock => "read_clock"
  | .settle => "settle"
  | .start => "start"
  | .sendBit b => "send_bit " ++ toString b.toNat
  | .sendAddress => "send_address"
  | .sendByte => "send_byte"
  | .sampleAck => "sample_ack"
  | .stop => "stop"

end Sys2Proof
end

