-- ==== Sys2Proof/WellFormed.lean ====
section
/-! DEFINITION. The boundary check of `spec/30_encoding.md` R59: a TRANSFER_WRITE carries exactly `LEN` payload bytes. Every
other operand is bounded by its width. -/

namespace Sys2Proof

/-- The one check an instruction can fail: the attached payload has the length the word says (R59). -/
def Instr.payloadMatches : Instr → Bool
  | .transferWrite _ len payload => payload.length == len.toNat
  | .busInit _ _ => true
  | .busDeinit => true
  | .acquire => true
  | .release => true
  | .driveClock _ => true
  | .driveData _ => true
  | .readData => true
  | .readClock => true
  | .settle => true
  | .start => true
  | .sendBit _ => true
  | .sendAddress => true
  | .sendByte => true
  | .sampleAck => true
  | .stop => true

/-- A well-formed instruction: one the command port or the sequencer can issue. -/
abbrev Instr.WellFormed (i : Instr) : Prop := i.payloadMatches = true

end Sys2Proof
end

