-- ==== Sys2Proof/Decode.lean ====
section
/-! DEFINITION. The decoder and the encoder of formats H and U (`spec/30_encoding.md`): total on every word, rejecting by
name, the encoder written from the same tables. -/

namespace Sys2Proof

/-- Why a word spells no instruction. -/
inductive DecodeReject where
  /-- A format H word outside the three patterns of R60; the block answers it (R61). -/
  | illegalCommand
  /-- A legal format H word whose attached payload has not the length the word says; refused at the boundary (R59). -/
  | payloadLengthMismatch
  /-- A format U word that spells no micro-operation (R66). -/
  | noMicroOperation
  deriving DecidableEq, Repr

/-- What the decoder answers. -/
inductive Decoded where
  | instr (i : Instr)
  | reject (r : DecodeReject)
  deriving DecidableEq, Repr

/-! ### The fields of a format H word (R57, R58) -/

/-- `OP = w[3:0]`. -/
def hostOp (w : Word) : BitVec 4 := w.extractLsb' 0 4
/-- `w[7:4]`, which must be zero. -/
def hostZero (w : Word) : BitVec 4 := w.extractLsb' 4 4
/-- `CLK = w[19:8]`. -/
def hostClk (w : Word) : PinId := w.extractLsb' 8 12
/-- `DAT = w[31:20]`. -/
def hostDat (w : Word) : PinId := w.extractLsb' 20 12
/-- `DIR = w[8]`. -/
def hostDir (w : Word) : Bool := w.getLsbD 8
/-- `ADDR = w[15:9]`. -/
def hostAddr (w : Word) : Addr := w.extractLsb' 9 7
/-- `LEN = w[31:16]`. -/
def hostLen (w : Word) : Len := w.extractLsb' 16 16
/-- `w[31:8]`, all zero in BUS_DEINIT. -/
def hostHigh (w : Word) : BitVec 24 := w.extractLsb' 8 24

/-- The handshake's check on a legal word: accept `i` only with the payload it needs (R59). -/
def withPayloadCheck (ok : Bool) (i : Instr) : Decoded :=
  if ok then .instr i else .reject .payloadLengthMismatch

/-- The host opcode map (R60). An illegal word is illegal whatever payload comes with it (log 11). -/
def decodeHost (w : Word) (payload : List Byte) : Decoded :=
  if hostZero w ≠ 0#4 then .reject .illegalCommand
  else if hostOp w = 0x1#4 then withPayloadCheck payload.isEmpty (.busInit (hostClk w) (hostDat w))
  else if hostOp w = 0x2#4 then
    if hostHigh w = 0#24 then withPayloadCheck payload.isEmpty .busDeinit else .reject .illegalCommand
  else if hostOp w = 0x3#4 then
    if hostDir w then .reject .illegalCommand
    else withPayloadCheck (payload.length == (hostLen w).toNat) (.transferWrite (hostAddr w) (hostLen w) payload)
  else .reject .illegalCommand

/-- `UOP = w[7:4]` (R64). -/
def microOp (w : Byte) : BitVec 4 := w.extractLsb' 4 4
/-- `ARG[3:1]`, always 0 (R64). -/
def microArgHigh (w : Byte) : BitVec 3 := w.extractLsb' 1 3
/-- `ARG[0]`, the level or bit value (R64). -/
def microLevel (w : Byte) : Level := w.getLsbD 0

/-- A micro-operation that takes no level spells nothing with `ARG[0]` set (R66). -/
def withoutLevel (l : Level) (i : Instr) : Decoded :=
  if l then .reject .noMicroOperation else .instr i

/-- The micro-operation map (R65, R66). -/
def decodeMicro (w : Byte) : Decoded :=
  let l := microLevel w
  if microArgHigh w ≠ 0#3 then .reject .noMicroOperation
  else if microOp w = 0x1#4 then withoutLevel l .acquire
  else if microOp w = 0x2#4 then withoutLevel l .release
  else if microOp w = 0x3#4 then .instr (.driveClock l)
  else if microOp w = 0x4#4 then .instr (.driveData l)
  else if microOp w = 0x5#4 then withoutLevel l .readData
  else if microOp w = 0x6#4 then withoutLevel l .readClock
  else if microOp w = 0x7#4 then withoutLevel l .settle
  else if microOp w = 0x8#4 then withoutLevel l .start
  else if microOp w = 0x9#4 then .instr (.sendBit l)
  else if microOp w = 0xA#4 then withoutLevel l .sendAddress
  else if microOp w = 0xB#4 then withoutLevel l .sendByte
  else if microOp w = 0xC#4 then withoutLevel l .sampleAck
  else if microOp w = 0xD#4 then withoutLevel l .stop
  else .reject .noMicroOperation

/-- The decoder: the port decides the format (R56). -/
def decode : PortWord → Decoded
  | .host w payload => decodeHost w payload
  | .micro w => decodeMicro w

/-! ### The encoder (R57, R65) -/

/-- The field `v` of an `n`-bit word, its bit 0 at bit `lo` (R11). -/
def fieldAt (n : Nat) {w : Nat} (lo : Nat) (v : BitVec w) : BitVec n := v.setWidth n <<< lo

/-- A format U word from its `UOP` and `ARG[0]` (R64). -/
def microWord (uop : BitVec 4) (l : Level) : Byte := fieldAt 8 4 uop ||| fieldAt 8 0 (BitVec.ofBool l)

/-- The words of an instruction, each field at the bits R57 and R65 give it, all other bits 0. -/
def encode : Instr → PortWord
  | .busInit clk dat => .host (fieldAt 32 20 dat ||| fieldAt 32 8 clk ||| fieldAt 32 0 0x1#4) []
  | .busDeinit => .host (fieldAt 32 0 0x2#4) []
  | .transferWrite addr len payload => .host (fieldAt 32 16 len ||| fieldAt 32 9 addr ||| fieldAt 32 0 0x3#4) payload
  | .acquire => .micro (microWord 0x1#4 false)
  | .release => .micro (microWord 0x2#4 false)
  | .driveClock l => .micro (microWord 0x3#4 l)
  | .driveData l => .micro (microWord 0x4#4 l)
  | .readData => .micro (microWord 0x5#4 false)
  | .readClock => .micro (microWord 0x6#4 false)
  | .settle => .micro (microWord 0x7#4 false)
  | .start => .micro (microWord 0x8#4 false)
  | .sendBit b => .micro (microWord 0x9#4 b)
  | .sendAddress => .micro (microWord 0xA#4 false)
  | .sendByte => .micro (microWord 0xB#4 false)
  | .sampleAck => .micro (microWord 0xC#4 false)
  | .stop => .micro (microWord 0xD#4 false)

/-! ### The opcode table's masks (R60, R65) -/

/-- One row of the opcode table: a word `w` of the row has `w &&& mask = pattern`. -/
structure Pattern (n : Nat) where
  mask : BitVec n
  pattern : BitVec n
  deriving DecidableEq, Repr

/-- `w & mask = match` (R60). -/
def Pattern.fits {n : Nat} (r : Pattern n) (w : BitVec n) : Bool := w &&& r.mask == r.pattern

/-- BUS_INIT, BUS_DEINIT and TRANSFER_WRITE (R60). -/
def hostPatterns : List (Pattern 32) :=
  [⟨0x000000FF#32, 0x00000001#32⟩, ⟨0xFFFFFFFF#32, 0x00000002#32⟩, ⟨0x000001FF#32, 0x00000003#32⟩]

/-- ACQUIRE to STOP, in the order of R65. -/
def microPatterns : List (Pattern 8) :=
  [⟨0xFF#8, 0x10#8⟩, ⟨0xFF#8, 0x20#8⟩, ⟨0xFE#8, 0x30#8⟩, ⟨0xFE#8, 0x40#8⟩, ⟨0xFF#8, 0x50#8⟩, ⟨0xFF#8, 0x60#8⟩] ++
  [⟨0xFF#8, 0x70#8⟩, ⟨0xFF#8, 0x80#8⟩, ⟨0xFE#8, 0x90#8⟩, ⟨0xFF#8, 0xA0#8⟩, ⟨0xFF#8, 0xB0#8⟩, ⟨0xFF#8, 0xC0#8⟩,
   ⟨0xFF#8, 0xD0#8⟩]

/-! ### Words numbered as `spec/opcode_table.json` numbers them -/

/-- The port word of a table word: 32 bits arrive on the command port, with the payload bytes its `LEN` asks for (zeros)
when it is a TRANSFER_WRITE (R59); 8 bits on the internal port. -/
def tablePortWord (nbits w : Nat) : Option PortWord :=
  if nbits = 32 then
    let h := BitVec.ofNat 32 w
    let n := if hostOp h = 0x3#4 then (hostLen h).toNat else 0
    some (.host h (List.replicate n 0#8))
  else if nbits = 8 then some (.micro (BitVec.ofNat 8 w))
  else none

/-- The instruction of a table word, none where the decoder rejects it. -/
def decodeTableWord (nbits w : Nat) : Option Instr :=
  match tablePortWord nbits w with
  | none => none
  | some p =>
    match decode p with
    | .instr i => some i
    | .reject _ => none

end Sys2Proof
end

