-- ==== Sys2Proof/Config.lean ====
section
/-! DEFINITION. The parameters the spec leaves OPEN (`spec/00_scope.md` R10) and its free values. Each is an opaque
constant: nothing can be proved about its value, so what is proved holds for every value of it. -/

namespace Sys2Proof.Config

/-- `GPIO_USABLE` (R10, R33, I-3): the pins the platform calls usable GPIOs, at launch (log 3). -/
opaque gpioUsable : List PinId

/-- `RESERVED0` (R10, R33, I-4): the pins other platform users hold at launch (log 3). -/
opaque reserved0 : List PinId

/-- `T_SETTLE` (R10, I-1): the configuration input of the delay element at launch; 0 is legal (R79) (log 3). -/
opaque tSettle : Nat

/-- `T_GPIO` (R10, I-2): one pin operation's latency; read by the timing functions of R132 only. -/
opaque tGpio : Nat

/-- `SLAVE_SDA` (R10, R19, I-5): the level the bus environment contributes at its n-th free draw (log 4). -/
opaque slaveSda : Nat → Level

/-- `CUR_SETTLE` after a reset is unspecified (R38, I-17): the n-th free value (log 5). -/
opaque curSettleAtReset : Nat → Nat

end Sys2Proof.Config
end

