-- ==== Sys2Proof/Machine/PinSet.lean ====
section
/-! DEFINITION. Sets of pin identifiers as plain data: a list in strictly rising order, so that equal sets are equal lists.
The platform's `RESERVED` and `GPIO_USABLE` (`spec/10_state.md` R33) are such sets. -/

namespace Sys2Proof.Machine

/-- The canonical form: strictly rising identifiers. -/
abbrev PinSet.wf (ps : List PinId) : Prop := ps.Pairwise fun p q => p.toNat < q.toNat

/-- `ps + {p}`, in canonical form. -/
def PinSet.insert (p : PinId) : List PinId → List PinId
  | [] => [p]
  | q :: qs => if p.toNat < q.toNat then p :: q :: qs else if p = q then q :: qs else q :: PinSet.insert p qs

/-- `ps - {p}`. -/
def PinSet.erase (p : PinId) (ps : List PinId) : List PinId := ps.filter fun q => q ≠ p

/-- The canonical form of a set given by any list of its members. -/
def PinSet.ofList (ps : List PinId) : List PinId := ps.foldr PinSet.insert []

end Sys2Proof.Machine
end

