-- ==== Sys2Proof/Machine/State.lean ====
section
/-! DEFINITION. The state of the block (`spec/10_state.md` Table 10-1 and R32), of the agents around it as far as an
operation reads or changes it, and the state after reset (R38). -/

namespace Sys2Proof.Machine

/-- The mode of a pin: 0 output, 1 input (R18). -/
inductive Dir where
  | output
  | input
  deriving DecidableEq, Repr

/-- The protocol states (R20). -/
inductive Fsm where
  | idle
  | start
  | addressBits
  | directionBit
  | addressAck
  | dataByteBits
  | dataAck
  | stop
  deriving DecidableEq, Repr

/-- The pin events of `TRACE` (R32). -/
inductive PinEvent where
  /-- `DC(l)`: SCL set to output with level `l`. -/
  | dc (l : Level)
  /-- `DD(l)`: SDA set to output with level `l`. -/
  | dd (l : Level)
  /-- `RD(v)`: SDA set to input and sampled. -/
  | rd (v : Level)
  /-- `RC(v)`: SCL set to input and sampled. -/
  | rc (v : Level)
  /-- `S`: one settle delay elapsed. -/
  | s
  /-- `CLAIM(c, d)`. -/
  | claim (c d : PinId)
  /-- `UNCLAIM(c, d)`. -/
  | unclaim (c d : PinId)
  deriving DecidableEq, Repr

/-- The primitives of the Pin Control Layer that the engine's event lists name (`spec/40_pin_control.md` R75 to R79). -/
inductive PinOp where
  | driveClock (l : Level)
  | driveData (l : Level)
  | readData
  | readClock
  | settle
  deriving DecidableEq, Repr

/-- The result codes (`spec/30_encoding.md` R63). -/
inductive ResultCode where
  | success
  | addressNacked
  | dataNacked
  | invalidPin
  | pinBusy
  | illegalState
  | illegalCommand
  deriving DecidableEq, Repr

/-- What a micro-operation returns: nothing, ACQUIRE's code (R73), or a sampled level (R77, R78, R91). -/
inductive PrimResult where
  | none
  | code (c : ResultCode)
  | level (l : Level)
  deriving DecidableEq, Repr

/-- One presentation on the response port with the STATUS word after it: what a claim may read (R14, R93). -/
structure Response where
  word : Word
  status : StatusWord
  deriving DecidableEq, Repr

/-- What the agents around the block can do to it (R9, R33, R93, R109, R121, R126). -/
inductive Action where
  /-- The host puts a command on the command port, with its payload (R93, R59). -/
  | command (w : Word) (payload : List Byte)
  /-- The host environment abandons the transfer in progress (R109). -/
  | abandon
  /-- Reset (R121). -/
  | reset
  /-- The configuration input `T_SETTLE` changes (R126). -/
  | setSettle (d : Nat)
  /-- Another platform user reserves a pin (R33). -/
  | reserve (p : PinId)
  /-- Another platform user returns a pin (R33). -/
  | unreserve (p : PinId)
  deriving DecidableEq, Repr

/-- An action still to come, and how many sequencer steps the environment lets pass before it (log 1). -/
structure Pending where
  after : Nat
  action : Action
  deriving DecidableEq, Repr

/-- The state: the registers of Table 10-1, `TRACE`, the other agents' state, and the model's own fields. -/
structure State where
  /-- `BOUND` (R16). -/
  bound : Bool
  /-- `CLK_PIN` (R17). -/
  clkPin : PinId
  /-- `DAT_PIN` (R17). -/
  datPin : PinId
  /-- `SCL_O` (R18). -/
  sclO : Level
  /-- `SDA_O` (R18). -/
  sdaO : Level
  /-- `SCL_DIR` (R18). -/
  sclDir : Dir
  /-- `SDA_DIR` (R18). -/
  sdaDir : Dir
  /-- `FSM` (R20). -/
  fsm : Fsm
  /-- `SUB` (R21). -/
  sub : BitVec 3
  /-- `BIT_CNT` (R23). -/
  bitCnt : BitVec 4
  /-- `SHIFT` (R22). -/
  shift : Byte
  /-- `BYTE_IDX` (R24). -/
  byteIdx : Len
  /-- `REQ_ADDR` (R25). -/
  reqAddr : Addr
  /-- `REQ_DIR` (R25). -/
  reqDir : Bool
  /-- `REQ_LEN` (R25). -/
  reqLen : Len
  /-- `CUR_SETTLE`, timing only (R25, R79). -/
  curSettle : Nat
  /-- `ACK_BIT` (R26). -/
  ackBit : Level
  /-- `BUSY` (R27). -/
  busy : Bool
  /-- `FAULT` (R28). -/
  faultFlag : Bool
  /-- `RESP` (R29). -/
  resp : Word
  /-- `PEND` (R30). -/
  pend : Word
  /-- `TRACE` (R32), oldest event first. -/
  trace : List PinEvent
  /-- The payload attached to the transfer at its acceptance (R40, R54). -/
  payload : List Byte
  /-- `GPIO_USABLE`, fixed for the launch (R33). -/
  usable : List PinId
  /-- `RESERVED` (R33). -/
  reserved : List PinId
  /-- `T_SETTLE` (R34, R126). -/
  tSettle : Nat
  /-- The levels the bus environment contributes at its next draws, oldest first; after them `Config.slaveSda` answers
  (R19, log 4). -/
  slave : List Level
  /-- The model's counter of free values drawn so far (log 4, log 5). -/
  draws : Nat
  /-- The environment's actions still to come, oldest first (log 1). -/
  inputs : List Pending
  /-- Format U words on the internal port, oldest first (log 2). -/
  uport : List Byte
  /-- `CLK` of the BUS_INIT command being executed, which ACQUIRE takes (R64, R73, log 8). -/
  opClk : PinId
  /-- `DAT` of the BUS_INIT command being executed (R64, R73, log 8). -/
  opDat : PinId
  /-- What the last value-returning micro-operation returned (log 9). -/
  result : PrimResult
  /-- What the response port has presented, oldest first (R14, log 10). -/
  responses : List Response
  deriving DecidableEq, Repr

/-- Faults: places of the sequencer that the rules never reach. Raised by the sequencer and by the engine's micro-operations
only; safe (the model stops), see log 13. -/
inductive Fault where
  /-- `SUB` names no event of the list of the current primitive (R21, R97). Safe. -/
  | positionOutsideList
  /-- A counter would pass the end of its range (R12, R86). Safe. -/
  | counterOutOfRange
  /-- A payload read at an index outside the payload buffer (R39, R40). Safe. -/
  | payloadIndexOutOfRange
  deriving DecidableEq, Repr

/-- Refusals: what the spec says a model refuses. -/
inductive Refusal where
  /-- An instruction without a meaning; raised by exec's refused arms only. Safe. -/
  | notModelled (mnemonic : String)
  /-- A micro-operation outside its `BOUND` precondition (R72). Raised by the micro-operations. Safe. -/
  | boundPrecondition
  /-- An engine primitive outside its line-level precondition (R72 with R87, R88, R91, R92; log 6). Raised by the engine's
  micro-operations. Safe. -/
  | linePrecondition
  /-- A command whose payload has not the length `LEN` (R59). Raised at the command port. Safe. -/
  | payloadLengthMismatch
  /-- A format U word that spells no micro-operation (R66). Raised at the internal port. Safe. -/
  | noMicroOperation
  /-- Another platform user returns a pin that the block holds, which its exclusive reservation rules out (R16, R115; log 15).
  Raised by the environment's actions. Safe. -/
  | environmentOutsideConditions
  deriving DecidableEq, Repr

/-- The parameters of a launch (`spec/00_scope.md` R10) that the step reads. -/
structure Launch where
  usable : List PinId
  reserved0 : List PinId
  tSettle : Nat
  slave : List Level
  deriving DecidableEq, Repr

/-- The state right after reset in a launch: the registers of R38, an empty `TRACE`, `RESERVED = RESERVED0` (R121). -/
def State.launch (p : Launch) : State where
  bound := false
  clkPin := 0#12
  datPin := 0#12
  sclO := true
  sdaO := true
  sclDir := .input
  sdaDir := .input
  fsm := .idle
  sub := 0#3
  bitCnt := 0#4
  shift := 0#8
  byteIdx := 0#16
  reqAddr := 0#7
  reqDir := false
  reqLen := 0#16
  curSettle := Config.curSettleAtReset 0
  ackBit := true
  busy := false
  faultFlag := false
  resp := 0x00000000#32
  pend := 0x00000000#32
  trace := []
  payload := []
  usable := PinSet.ofList p.usable
  reserved := PinSet.ofList p.reserved0
  tSettle := p.tSettle
  slave := p.slave
  draws := 1
  inputs := []
  uport := []
  opClk := 0#12
  opDat := 0#12
  result := .none
  responses := []

/-- The machine right after reset, in the launch whose parameters the spec leaves open (log 3). -/
def State.reset : State :=
  State.launch
    { usable := Config.gpioUsable, reserved0 := Config.reserved0, tSettle := Config.tSettle, slave := [] }

end Sys2Proof.Machine
end

