-- ==== Sys2Proof/Machine/Flags.lean ====
section
/-! DEFINITION. The encodings of flags and codes: FSM values (`spec/10_state.md` R20), direction bits (R18), the STATUS view
(R31), result codes and response words (`spec/30_encoding.md` R62, R63). -/

namespace Sys2Proof.Machine

/-- The value of a protocol state (R20). -/
def Fsm.value : Fsm → BitVec 3
  | .idle => 0#3
  | .start => 1#3
  | .addressBits => 2#3
  | .directionBit => 3#3
  | .addressAck => 4#3
  | .dataByteBits => 5#3
  | .dataAck => 6#3
  | .stop => 7#3

/-- The direction bit of a pin: 0 output, 1 input (R18). -/
def Dir.bit : Dir → BitVec 1
  | .output => 0#1
  | .input => 1#1

/-- One flag or level as a bit. -/
def levelBit (l : Bool) : BitVec 1 := BitVec.ofBool l

/-- The STATUS port: each field at its bits, bits 15:11 zero (R31). -/
def State.status (s : State) : StatusWord :=
  fieldAt 16 0 (levelBit s.bound) ||| fieldAt 16 1 (levelBit s.busy) ||| fieldAt 16 2 s.fsm.value |||
    fieldAt 16 5 (levelBit s.faultFlag) ||| fieldAt 16 6 (levelBit s.sclO) ||| fieldAt 16 7 (levelBit s.sdaO) |||
    fieldAt 16 8 s.sdaDir.bit ||| fieldAt 16 9 s.sclDir.bit ||| fieldAt 16 10 (levelBit s.ackBit)

/-- The value of a result code (R63). -/
def ResultCode.value : ResultCode → BitVec 4
  | .success => 0x0#4
  | .addressNacked => 0x1#4
  | .dataNacked => 0x2#4
  | .invalidPin => 0x3#4
  | .pinBusy => 0x4#4
  | .illegalState => 0xE#4
  | .illegalCommand => 0xF#4

/-- A format R word: `{INDEX, 0b000000000000, CODE}` (R62). -/
def respWord (c : ResultCode) (index : Len) : Word := index ++ (0#12 ++ c.value)

/-- The response word of a code that carries no index (R62). -/
def codeWord (c : ResultCode) : Word := respWord c 0#16

end Sys2Proof.Machine
end

