-- ==== Sys2Proof/Machine/Operands.lean ====
section
/-! DEFINITION. Where operands come from (`spec/30_encoding.md` R64): the line levels, the shift register, the address unit,
the payload byte, and the bus environment's draw. -/

namespace Sys2Proof.Machine

/-- The master's contribution to a line: an output drives its level, an input releases (R18). -/
def contribution (d : Dir) (o : Level) : Level :=
  match d with
  | .output => o
  | .input => true

/-- `M_SCL` (R18). -/
def State.mScl (s : State) : Level := contribution s.sclDir s.sclO

/-- `M_SDA` (R18). -/
def State.mSda (s : State) : Level := contribution s.sdaDir s.sdaO

/-- `SCL_LINE = M_SCL`: no slave pulls SCL low (R19). -/
def State.sclLine (s : State) : Level := s.mScl

/-- `SDA_LINE = M_SDA AND SlaveSDA()` for the level the bus environment contributes (R19). -/
def State.sdaLine (s : State) (slave : Level) : Level := s.mSda && slave

/-- The level of the k-th draw still to come: the launch's script, then the free values (R19, log 4). -/
def State.slaveAt (s : State) (k : Nat) : Level :=
  match s.slave[k]? with
  | some v => v
  | none => Config.slaveSda (s.draws + k)

/-- `SlaveSDA()` inside an ACK slot: the next draw (R19). -/
def State.slaveNow (s : State) : Level := s.slaveAt 0

/-- Inside an ACK slot: the phases `ADDRESS_ACK` and `DATA_ACK` (R19, R20; log 20). Outside one `SlaveSDA()` is 1 (R19). -/
def State.inAckSlot (s : State) : Bool := s.fsm == .addressAck || s.fsm == .dataAck

/-- The environment after one draw. -/
def State.afterDraw (s : State) : State := { s with slave := s.slave.tail, draws := s.draws + 1 }

/-- The address unit `{REQ_ADDR, REQ_DIR}` (R22, R43). -/
def addressUnit (a : Addr) (dir : Bool) : Byte := a ++ BitVec.ofBool dir

/-- `SHIFT[7]`, the next bit on the wire (R22). -/
def State.nextBit (s : State) : Level := s.shift.getLsbD 7

/-- `{SHIFT[6:0], 0}` (R22). -/
def shiftLeft (u : Byte) : Byte := u.extractLsb' 0 7 ++ 0#1

/-- `MemRead(i, 1)`: payload byte `i`, which exists for `i < REQ_LEN` only (R39, R40). DESIGN CHOICE (log 11): R40 speaks of the
current transfer; with `BUSY = 0` after a transfer ended or was abandoned, a SEND_BYTE asked for by itself reads the payload,
`REQ_LEN` and `BYTE_IDX` that transfer left. -/
def State.memRead (s : State) (i : Len) : Option Byte :=
  if i.toNat < s.reqLen.toNat then s.payload[i.toNat]? else none

/-- Inside a unit: a bit phase with bits still to send (R20, R23). -/
def State.inUnit (s : State) : Bool :=
  (s.fsm == .addressBits || s.fsm == .directionBit || s.fsm == .dataByteBits) && s.bitCnt != 0#4

end Sys2Proof.Machine
end

