-- ==== Sys2Proof/Machine/Ops.lean ====
section
/-! DEFINITION. The shared operations: the Pin Control Layer's effects (`spec/40_pin_control.md`), the responses and the abort
path (`spec/42_host_commands.md` R93, `spec/60_exceptions.md` R109, R111), reset (R121), and the engine's event lists
(`spec/41_protocol_engine.md`). -/

namespace Sys2Proof.Machine

/-- The outcome of a step of this machine. -/
abbrev Result := Host.Outcome State Fault Refusal

/-- Go on from a next state; a fault or a refusal ends the step. -/
def andThen (r : Result) (f : State → Result) : Result :=
  match r with
  | .next s => f s
  | .fault e => .fault e
  | .refused e => .refused e

/-- `Emit(e)`: append a pin event to `TRACE` (R13, R32). -/
def State.emit (s : State) (e : PinEvent) : State := { s with trace := s.trace ++ [e] }

/-! ### The platform GPIO registry (R73, R74) -/

/-- `GpioUsable(p)`. -/
def State.gpioUsable (s : State) (p : PinId) : Bool := decide (p ∈ s.usable)

/-- `GpioReserve(p)`: none when `p` is already in `RESERVED`. -/
def State.gpioReserve (s : State) (p : PinId) : Option State :=
  if p ∈ s.reserved then none else some { s with reserved := PinSet.insert p s.reserved }

/-- `GpioUnreserve(p)`. -/
def State.gpioUnreserve (s : State) (p : PinId) : State := { s with reserved := PinSet.erase p s.reserved }

/-- Take both pins over, lines released as outputs: the last part of ACQUIRE (R73). -/
def State.claim (s : State) (c d : PinId) : State :=
  { s with clkPin := c, datPin := d, sclO := true, sclDir := .output, sdaO := true, sdaDir := .output, bound := true }.emit
    (.claim c d)

/-- ACQUIRE(c, d): validate both, reserve clock then data, roll back (R73). -/
def State.acquire (s : State) (c d : PinId) : State × ResultCode :=
  if s.gpioUsable c && s.gpioUsable d then
    match s.gpioReserve c with
    | none => (s, .pinBusy)
    | some s1 =>
      match s1.gpioReserve d with
      | none => (s1.gpioUnreserve c, .pinBusy)
      | some s2 => (s2.claim c d, .success)
  else (s, .invalidPin)

/-- RELEASE(): nothing when no pair is held; otherwise clock then data to released inputs, both pins unreserved (R74). -/
def State.release (s : State) : State :=
  if s.bound then
    (({ s with sclDir := .input, sclO := true, sdaDir := .input, sdaO := true, bound := false }.gpioUnreserve
      s.clkPin).gpioUnreserve s.datPin).emit (.unclaim s.clkPin s.datPin)
  else s

/-! ### The lines (R75 to R79) -/

/-- DRIVE_CLOCK(l) (R75). -/
def State.driveClock (s : State) (l : Level) : State := { s with sclDir := .output, sclO := l }.emit (.dc l)

/-- DRIVE_DATA(l) (R76). -/
def State.driveData (s : State) (l : Level) : State := { s with sdaDir := .output, sdaO := l }.emit (.dd l)

/-- Emit the sample and return it. -/
def State.returnSample (s : State) (e : PinEvent) (v : Level) : State := { s with result := .level v }.emit e

/-- SDA to input, then sample `SDA_LINE` with the level `slave` of the environment (R77, R19). -/
def State.sampleSda (s : State) (slave : Level) : State :=
  let t : State := { s with sdaDir := .input }
  t.returnSample (.rd (t.sdaLine slave)) (t.sdaLine slave)

/-- READ_DATA() inside an ACK slot: the environment's level is a draw (R77, R19). -/
def State.drawSda (s : State) : State := (s.sampleSda s.slaveNow).afterDraw

/-- READ_DATA(): a draw inside an ACK slot, `SlaveSDA() = 1` outside one (R77, R19). -/
def State.readData (s : State) : State := if s.inAckSlot then s.drawSda else s.sampleSda true

/-- READ_CLOCK(): SCL to input, then sample `SCL_LINE` (R78). -/
def State.readClock (s : State) : State :=
  let t : State := { s with sclDir := .input }
  t.returnSample (.rc t.sclLine) t.sclLine

/-- SETTLE(): one settle delay of `CUR_SETTLE`; no line changes (R79). -/
def State.settle (s : State) : State := s.emit .s

/-- One primitive of the Pin Control Layer. -/
def State.perform (s : State) (op : PinOp) : State :=
  match op with
  | .driveClock l => s.driveClock l
  | .driveData l => s.driveData l
  | .readData => s.readData
  | .readClock => s.readClock
  | .settle => s.settle

/-- `ACK_BIT <- v` for the level the last READ_DATA returned (R91). -/
def State.latchAck (s : State) : State :=
  match s.result with
  | .level v => { s with ackBit := v }
  | .code _ => s
  | .none => s

/-- One pin event of an engine primitive: a READ_DATA of the engine is SAMPLE_ACK's, which is the ACK slot, so its level is a draw
and goes to `ACK_BIT` (R91, R19). -/
def State.performEvent (s : State) (op : PinOp) : State :=
  match op with
  | .readData => s.drawSda.latchAck
  | .driveClock l => s.driveClock l
  | .driveData l => s.driveData l
  | .readClock => s.readClock
  | .settle => s.settle

/-- `SUB <- 0` at the end of a list (R21). -/
def State.restart (s : State) : State := { s with sub := 0#3 }

/-- A list of pin events in order (R50); `SUB` is 0 again when the list ends (R21). -/
def State.performList (s : State) (ops : List PinOp) : State := (ops.foldl State.performEvent s).restart

/-! ### The engine's event lists (`spec/41_protocol_engine.md`) -/

/-- START: `DD(0) S DC(0) S` (R87). -/
def startList : List PinOp := [.driveData false, .settle, .driveClock false, .settle]

/-- SEND_BIT b: `DD(b) S DC(1) S DC(0) S` (R88). -/
def bitList (b : Level) : List PinOp :=
  [.driveData b, .settle, .driveClock true, .settle, .driveClock false, .settle]

/-- SAMPLE_ACK: `DD(1) S DC(1) S RD DC(0) S` (R91). -/
def ackList : List PinOp :=
  [.driveData true, .settle, .driveClock true, .settle, .readData, .driveClock false, .settle]

/-- STOP: `DD(0) S DC(1) S DD(1) S` (R92). -/
def stopList : List PinOp :=
  [.driveData false, .settle, .driveClock true, .settle, .driveData true, .settle]

/-! ### Preconditions (R72, R87, R88, R91, R92; log 6) -/

/-- Only while `BOUND = 1` (R72). -/
def State.whenBound (s : State) (f : State → Result) : Result :=
  if s.bound then f s else .refused .boundPrecondition

/-- Only while `BOUND = 0` (R72). -/
def State.whenUnbound (s : State) (f : State → Result) : Result :=
  if s.bound then .refused .boundPrecondition else f s

/-- Only while both lines are high: START's precondition (R87). Outside an ACK slot the environment contributes 1 (R19). -/
def State.whenIdleLines (s : State) (f : State → Result) : Result :=
  s.whenBound fun s => if s.sclLine && s.sdaLine true then f s else .refused .linePrecondition

/-- Only while SCL is low: the precondition of SEND_BIT, SAMPLE_ACK and STOP (R88, R91, R92). -/
def State.whenClockLow (s : State) (f : State → Result) : Result :=
  s.whenBound fun s => if s.sclLine then .refused .linePrecondition else f s

/-! ### Position and units (R21, R80, R88 to R90) -/

/-- `FSM <- f`. -/
def State.goto (s : State) (f : Fsm) : State := { s with fsm := f }

/-- The entry to `ADDRESS_BITS`: the address unit into `SHIFT`, seven bits to send (R80, R89). -/
def State.beginAddress (s : State) : State :=
  { s with shift := addressUnit s.reqAddr s.reqDir, bitCnt := 7#4, fsm := .addressBits }

/-- The entry to `DIRECTION_BIT`: one bit to send (R80, R89). -/
def State.beginDirection (s : State) : State := { s with bitCnt := 1#4, fsm := .directionBit }

/-- A payload byte into `SHIFT`, eight bits to send (R80, R90). -/
def State.beginByte (s : State) (b : Byte) : State := { s with shift := b, bitCnt := 8#4 }

/-- `BYTE_IDX <- BYTE_IDX + 1` (R24). -/
def State.nextByte (s : State) : State := { s with byteIdx := s.byteIdx + 1#16 }

/-- After the last event of a bit inside a unit: `SHIFT <- {SHIFT[6:0], 0}`, `BIT_CNT <- BIT_CNT - 1` (R88). -/
def State.shiftOut (s : State) : State := { s with shift := shiftLeft s.shift, bitCnt := s.bitCnt - 1#4 }

/-- Send the next bit of `SHIFT` inside a unit (R88). -/
def State.sendUnitBit (s : State) : State := (s.performList (bitList s.nextBit)).shiftOut

/-- Send `n` bits of `SHIFT`, most significant first (R42, R88). -/
def State.sendUnitBits (s : State) (n : Nat) : State :=
  match n with
  | 0 => s
  | n + 1 => (s.sendUnitBits n).sendUnitBit

/-! ### Responses, the abort path, abandonment, reset -/

/-- `BUSY <- 1` at acceptance (R93). -/
def State.accept (s : State) : State := { s with busy := true }

/-- `respond(w)` and `BUSY <- 0`: the end of every command; the presentation is recorded with the STATUS word after it
(R93, R14, log 10). -/
def State.complete (s : State) (w : Word) : State :=
  let t : State := { s with resp := w, busy := false }
  { t with responses := t.responses ++ [⟨w, t.status⟩] }

/-- The way into STOP at the end of an ACK slot: the outcome is recorded in `PEND` and every remaining unit is skipped
(R80, R111). This is the block's one trap-like entry. -/
def State.enterStop (s : State) (w : Word) : State := { s with pend := w, fsm := .stop }

/-- The end of STOP: back to `IDLE`, `PEND` presented, `BUSY` cleared (R80, R97, R111). The return beside `enterStop`. -/
def State.finishStop (s : State) : State := (s.goto .idle).complete s.pend

/-- `raise E` at acceptance: an immediate response without bus traffic (R111). -/
def State.reject (s : State) (c : ResultCode) : State := s.complete (codeWord c)

/-- A transfer is in progress (R109). -/
def State.inProgress (s : State) : Bool := s.busy && s.fsm != .idle

/-- Abandon(): `FAULT <- 1`, `BUSY <- 0`, nothing else (R109). -/
def State.abandon (s : State) : State := { s with faultFlag := true, busy := false }

/-- Reset: the registers of R38 and an empty `TRACE`; `RESERVED` and the parameters are not touched (R121). -/
def State.resetBlock (s : State) : State :=
  { s with
    bound := false, clkPin := 0#12, datPin := 0#12, sclO := true, sdaO := true, sclDir := .input, sdaDir := .input,
    fsm := .idle, sub := 0#3, bitCnt := 0#4, shift := 0#8, byteIdx := 0#16, reqAddr := 0#7, reqDir := false,
    reqLen := 0#16, curSettle := Config.curSettleAtReset s.draws, ackBit := true, busy := false, faultFlag := false,
    resp := 0x00000000#32, pend := 0x00000000#32, trace := [], payload := [], opClk := 0#12, opDat := 0#12,
    result := .none, draws := s.draws + 1 }

end Sys2Proof.Machine
end

