-- ==== Sys2Proof/Machine/Engine.lean ====
section
/-! DEFINITION. The meanings of the Bit-Bang Protocol Engine's micro-operations (`spec/41_protocol_engine.md` R87 to R92), each
performed whole; the sequencer performs the same event lists one event per step. -/

namespace Sys2Proof.Machine

/-- START (R87). -/
def execStart (s : State) : Result := s.whenIdleLines fun s => .next (s.performList startList)

/-- SEND_BIT `b`; `SHIFT` and `BIT_CNT` advance inside a unit only (R88, log 7). DESIGN CHOICE (log 7): asked for by itself inside a
unit with `b` other than `SHIFT[7]`, where R22 and R88 are silent, it drives `b` and advances all the same. -/
def execSendBit (b : Level) (s : State) : Result :=
  s.whenClockLow fun s =>
    let t := s.performList (bitList b)
    .next (if s.inUnit then t.shiftOut else t)

/-- SEND_ADDRESS: seven address bits, then the direction bit (R89). -/
def execSendAddress (s : State) : Result :=
  s.whenClockLow fun s => .next ((s.beginAddress.sendUnitBits 7).beginDirection.sendUnitBits 1)

/-- SEND_BYTE: the eight bits of payload byte `BYTE_IDX` (R90). -/
def execSendByte (s : State) : Result :=
  s.whenClockLow fun s =>
    match s.memRead s.byteIdx with
    | none => .fault .payloadIndexOutOfRange
    | some b => .next ((s.beginByte b).sendUnitBits 8)

/-- SAMPLE_ACK (R91). DESIGN CHOICE (log 6): of R91's precondition it checks that SCL is low; "after the 8th bit" is not checked, and
asked for by itself it is performed in any phase. -/
def execSampleAck (s : State) : Result := s.whenClockLow fun s => .next (s.performList ackList)

/-- STOP (R92). DESIGN CHOICE (log 6): of R92's precondition it checks that SCL is low; "after an ACK slot" is not checked, and asked
for by itself it is performed in any phase. -/
def execStop (s : State) : Result := s.whenClockLow fun s => .next (s.performList stopList)

end Sys2Proof.Machine
end

