-- ==== Sys2Proof/Machine/HostCommands.lean ====
section
/-! DEFINITION. The meanings of the host commands (`spec/42_host_commands.md` R93 to R96). A command is accepted only while
`BUSY = 0`; while `BUSY = 1` it waits on the port and changes nothing (R93, log 12). -/

namespace Sys2Proof.Machine

/-- Acceptance: `BUSY <- 1`, then the command; a hold while the block is busy (R93). -/
def State.whenFree (s : State) (f : State → State) : State := if s.busy then s else f s.accept

/-- ACQUIRE inside BUS_INIT, and its code as the response (R94). -/
def respondAcquire (r : State × ResultCode) : State := r.1.complete (codeWord r.2)

/-- The operands of the command being executed, which ACQUIRE takes (R64, log 8). -/
def State.latchOperands (s : State) (clk dat : PinId) : State := { s with opClk := clk, opDat := dat }

/-- BUS_INIT `CLK`, `DAT` (R94). -/
def execBusInit (clk dat : PinId) (s : State) : Result :=
  .next (s.whenFree fun s =>
    if s.faultFlag || s.bound then s.reject .illegalState
    else respondAcquire ((s.latchOperands clk dat).acquire clk dat))

/-- BUS_DEINIT (R95). -/
def execBusDeinit (s : State) : Result :=
  .next (s.whenFree fun s => s.release.complete (codeWord .success))

/-- The registers of an accepted transfer (R96). -/
def State.beginTransfer (s : State) (addr : Addr) (len : Len) (payload : List Byte) : State :=
  { s with
    reqAddr := addr, reqDir := false, reqLen := len, curSettle := s.tSettle, byteIdx := 0#16, bitCnt := 0#4, sub := 0#3,
    fsm := .start, payload := payload }

/-- TRANSFER_WRITE `ADDR`, `LEN` with its payload (R96); a pair whose payload has not `LEN` bytes is refused at the boundary
(R59). -/
def execTransferWrite (addr : Addr) (len : Len) (payload : List Byte) (s : State) : Result :=
  if payload.length = len.toNat then
    .next (s.whenFree fun s =>
      if s.faultFlag || !s.bound then s.reject .illegalState else s.beginTransfer addr len payload)
  else .refused .payloadLengthMismatch

end Sys2Proof.Machine
end

