-- ==== Sys2Proof/Machine/PinControl.lean ====
section
/-! DEFINITION. The meanings of the Pin Control Layer's micro-operations (`spec/40_pin_control.md` R72 to R79). -/

namespace Sys2Proof.Machine

/-- Record the code ACQUIRE returned (R73, log 9). -/
def returnCode (r : State × ResultCode) : State := { r.1 with result := .code r.2 }

/-- ACQUIRE, its operands those of the BUS_INIT command (R73, R72). -/
def execAcquire (s : State) : Result := s.whenUnbound fun s => .next (returnCode (s.acquire s.opClk s.opDat))

/-- RELEASE, in either state of `BOUND` (R74, R72). -/
def execRelease (s : State) : Result := .next s.release

/-- DRIVE_CLOCK `l` (R75, R72). -/
def execDriveClock (l : Level) (s : State) : Result := s.whenBound fun s => .next (s.driveClock l)

/-- DRIVE_DATA `l` (R76, R72). -/
def execDriveData (l : Level) (s : State) : Result := s.whenBound fun s => .next (s.driveData l)

/-- READ_DATA (R77, R72). -/
def execReadData (s : State) : Result := s.whenBound fun s => .next s.readData

/-- READ_CLOCK (R78, R72). -/
def execReadClock (s : State) : Result := s.whenBound fun s => .next s.readClock

/-- SETTLE (R79, R72). -/
def execSettle (s : State) : Result := s.whenBound fun s => .next s.settle

end Sys2Proof.Machine
end

