-- ==== Sys2Proof/Machine/Dispatch.lean ====
section
/-! DEFINITION. One arm per constructor of Instr: the instruction's meaning. -/

namespace Sys2Proof.Machine

def exec (i : Instr) (s : State) : Host.Outcome State Fault Refusal :=
  match i with
  | .busInit clk dat => Sys2Proof.Machine.execBusInit clk dat s
  | .busDeinit => Sys2Proof.Machine.execBusDeinit s
  | .transferWrite addr len payload => Sys2Proof.Machine.execTransferWrite addr len payload s
  | .acquire => Sys2Proof.Machine.execAcquire s
  | .release => Sys2Proof.Machine.execRelease s
  | .driveClock l => Sys2Proof.Machine.execDriveClock l s
  | .driveData l => Sys2Proof.Machine.execDriveData l s
  | .readData => Sys2Proof.Machine.execReadData s
  | .readClock => Sys2Proof.Machine.execReadClock s
  | .settle => Sys2Proof.Machine.execSettle s
  | .start => Sys2Proof.Machine.execStart s
  | .sendBit b => Sys2Proof.Machine.execSendBit b s
  | .sendAddress => Sys2Proof.Machine.execSendAddress s
  | .sendByte => Sys2Proof.Machine.execSendByte s
  | .sampleAck => Sys2Proof.Machine.execSampleAck s
  | .stop => Sys2Proof.Machine.execStop s

end Sys2Proof.Machine
end

