-- ==== Sys2Proof/Machine/Sequencer.lean ====
section
/-! DEFINITION. The sequencer: one pin event per step and the transition at the end of each list (`spec/42_host_commands.md`
R97, `spec/41_protocol_engine.md` R80). -/

namespace Sys2Proof.Machine

/-- `LAST(FSM)` (R97). -/
def Fsm.last : Fsm → Nat
  | .idle => 0
  | .start => 3
  | .addressBits => 5
  | .directionBit => 5
  | .addressAck => 6
  | .dataByteBits => 5
  | .dataAck => 6
  | .stop => 5

/-- The event list of the primitive `FSM` performs (R97); the bit on the wire is `SHIFT[7]`. -/
def State.eventList (s : State) : List PinOp :=
  match s.fsm with
  | .idle => []
  | .start => startList
  | .addressBits => bitList s.nextBit
  | .directionBit => bitList s.nextBit
  | .addressAck => ackList
  | .dataByteBits => bitList s.nextBit
  | .dataAck => ackList
  | .stop => stopList

/-- The pin event at the sequencer's position (R21). -/
def State.currentEvent (s : State) : Option PinOp := s.eventList[s.sub.toNat]?

/-- The sequencer has an enabled step (R97). -/
def State.sequencerEnabled (s : State) : Bool := s.busy && !s.faultFlag && s.fsm != .idle

/-- Enter `DATA_BYTE_BITS` with payload byte `i` in `SHIFT` (R80, R97). -/
def State.loadByte (s : State) (i : Len) : Result :=
  match s.memRead i with
  | none => .fault .payloadIndexOutOfRange
  | some b => .next ((s.beginByte b).goto .dataByteBits)

/-- The transition after the last event of the primitive `FSM` performs (R80, R97), from a state with `SUB = 0`. -/
def State.transition (s : State) : Result :=
  match s.fsm with
  | .idle => .next s
  | .start => .next s.beginAddress
  | .addressBits =>
    if s.bitCnt = 0#4 then .fault .counterOutOfRange
    else
      let t := s.shiftOut
      .next (if t.bitCnt = 0#4 then t.beginDirection else t)
  | .directionBit => .next { s with shift := shiftLeft s.shift, bitCnt := 0#4, fsm := .addressAck }
  | .addressAck =>
    if s.ackBit then .next (s.enterStop (codeWord .addressNacked))
    else if s.reqLen = 0#16 then .next (s.enterStop (codeWord .success))
    else s.loadByte 0#16
  | .dataByteBits =>
    if s.bitCnt = 0#4 then .fault .counterOutOfRange
    else
      let t := s.shiftOut
      .next (if t.bitCnt = 0#4 then t.goto .dataAck else t)
  | .dataAck =>
    if s.ackBit then .next (s.enterStop (respWord .dataNacked s.byteIdx))
    else if s.byteIdx = 65535#16 then .fault .counterOutOfRange
    else
      let t := s.nextByte
      if t.byteIdx.toNat < t.reqLen.toNat then t.loadByte t.byteIdx else .next (t.enterStop (codeWord .success))
  | .stop => .next s.finishStop

/-- Move the position: the next event of the list, or the transition at its end (R21, R97). -/
def State.advance (s : State) : Result :=
  if s.sub.toNat < s.fsm.last then .next { s with sub := s.sub + 1#3 }
  else s.restart.transition

/-- One sequencer step: the pin event at the position, only while a pair is held (R72), then the position moves (R97). -/
def State.sequencerStep (s : State) : Result :=
  s.whenBound fun s =>
    match s.currentEvent with
    | none => .fault .positionOutsideList
    | some op => (s.performEvent op).advance

end Sys2Proof.Machine
end

