-- ==== Sys2Proof/Machine/Agents.lean ====
section
/-! DEFINITION. The agents' steps: a format U word on the internal port, a command on the command port (`spec/42_host_commands.md`
R93), the environment's actions (R33, R109, R121, R126), and which agent moves next (log 1). -/

namespace Sys2Proof.Machine

/-- The environment's actions still to come. -/
def State.withInputs (s : State) (rest : List Pending) : State := { s with inputs := rest }

/-- The words still on the internal port. -/
def State.withPort (s : State) (rest : List Byte) : State := { s with uport := rest }

/-- The micro-operation a format U word spells; any other word is refused (R66). -/
def State.runMicroWord (s : State) (w : Byte) : Result :=
  match decodeMicro w with
  | .instr i => exec i s
  | .reject _ => .refused .noMicroOperation

/-- Acceptance of a command with `BUSY = 0`: decode it and perform it; an illegal word is answered `ILLEGAL_COMMAND` and changes
nothing else (R93, R61, R107); a payload of the wrong length is refused at the boundary (R59). -/
def State.acceptCommand (s : State) (w : Word) (payload : List Byte) : Result :=
  match decodeHost w payload with
  | .instr i => exec i s
  | .reject .illegalCommand => .next (s.accept.reject .illegalCommand)
  | .reject .payloadLengthMismatch => .refused .payloadLengthMismatch
  | .reject .noMicroOperation => .refused .noMicroOperation

/-- A step in which the environment does nothing: the sequencer's, or a wait when it has none (log 14). -/
def State.blockStep (s : State) : Result :=
  if s.sequencerEnabled then s.sequencerStep else .next s

/-- Another platform user reserves `p`; nothing when it is already reserved (R33, R73). -/
def State.platformReserve (s : State) (p : PinId) : State :=
  match s.gpioReserve p with
  | none => s
  | some t => t

/-- Another platform user returns `p`, which it cannot do with a pin the block holds (R16, R33, R115; log 15). DESIGN CHOICE
(log 15): `RESERVED` has no owners (R33), so any other pin may be returned, also one that a reset with `BOUND = 1` left reserved
(I-9). -/
def State.platformUnreserve (s : State) (p : PinId) : Result :=
  if s.bound && (p == s.clkPin || p == s.datPin) then .refused .environmentOutsideConditions
  else .next (s.gpioUnreserve p)

/-- The environment's action `a` with `rest` to come after it. A command and another user's reservation wait while `BUSY = 1`
(R93, R33); an abandonment with no transfer in progress is not enabled and is dropped (R109, log 16). -/
def State.act (s : State) (a : Action) (rest : List Pending) : Result :=
  let t := s.withInputs rest
  match a with
  | .command w payload => if s.busy then s.blockStep else t.acceptCommand w payload
  | .abandon => .next (if s.inProgress then t.abandon else t)
  | .reset => .next t.resetBlock
  | .setSettle d => .next { t with tSettle := d }
  | .reserve p => if s.busy then s.blockStep else .next (t.platformReserve p)
  | .unreserve p => if s.busy then s.blockStep else t.platformUnreserve p

/-- The environment's next action, or the sequencer step it lets pass first (log 1). -/
def State.environmentStep (s : State) : Result :=
  match s.inputs with
  | [] => s.blockStep
  | p :: rest =>
    if s.sequencerEnabled && p.after != 0 then
      (s.withInputs ({ p with after := p.after - 1 } :: rest)).sequencerStep
    else s.act p.action rest

/-- One step of the machine: the word on the internal port if there is one, else the environment or the sequencer. -/
def State.agentStep (s : State) : Result :=
  match s.uport with
  | w :: rest => (s.withPort rest).runMicroWord w
  | [] => s.environmentStep

/-- Put a command at the front of the command port, to be accepted now. -/
def State.offerCommand (s : State) (w : Word) (payload : List Byte) : State :=
  { s with uport := [], inputs := { after := 0, action := .command w payload } :: s.inputs }

/-- A held pair with SCL low and SDA as it is: where the sequencer issues SEND_BIT, SAMPLE_ACK and STOP (R88, R91, R92). -/
def State.withClockLow (s : State) : State := { s with bound := true, sclDir := .output, sclO := false }

/-- The situation in which the sequencer issues a micro-operation: its precondition and, for SEND_BYTE, a payload byte to read
(R72, R87, R88, R90, R91, R92; log 2). -/
def State.situated (s : State) (i : Instr) : State :=
  match i with
  | .busInit _ _ => s
  | .busDeinit => s
  | .transferWrite _ _ _ => s
  | .acquire => { s with bound := false }
  | .release => s
  | .driveClock _ => { s with bound := true }
  | .driveData _ => { s with bound := true }
  | .readData => { s with bound := true }
  | .readClock => { s with bound := true }
  | .settle => { s with bound := true }
  | .start => { s with bound := true, sclDir := .output, sclO := true, sdaDir := .output, sdaO := true }
  | .sendBit _ => s.withClockLow
  | .sendAddress => s.withClockLow
  | .sendByte =>
    let t := s.withClockLow
    match t.memRead t.byteIdx with
    | some _ => t
    | none => { t with byteIdx := 0#16, reqLen := 1#16, payload := [0#8] }
  | .sampleAck => s.withClockLow
  | .stop => s.withClockLow

/-- Put a format U word on the internal port, the sequencer standing where it issues it. -/
def State.offerMicroWord (s : State) (w : Byte) : State :=
  match decodeMicro w with
  | .instr i => (s.situated i).withPort [w]
  | .reject _ => s.withPort [w]

/-- Put a port word where the next step takes it. -/
def State.offer (s : State) (p : PortWord) : State :=
  match p with
  | .host w payload => s.offerCommand w payload
  | .micro w => s.offerMicroWord w

end Sys2Proof.Machine
end

