-- ==== Sys2Proof/Machine/Step.lean ====
section
/-! DEFINITION. The step of the machine, and a word placed where the step takes its next instruction. -/

namespace Sys2Proof.Machine

/-- One step (`spec/00_scope.md` R9: one agent moves, one pin event per sequencer step). -/
def step (s : State) : Host.Outcome State Fault Refusal := s.agentStep

/-- `s` with the table word `w` on its port, so that the next step runs it (log 2). -/
def State.withFetchWord (s : State) (nbits w : Nat) : State :=
  match tablePortWord nbits w with
  | none => s
  | some p => s.offer p

end Sys2Proof.Machine
end

