-- ==== Sys2Proof/Machine/TransferSpec.lean ====
section
/-! DEFINITION. A whole transfer in closed form (`spec/42_host_commands.md` R98, R99), the trace properties of the engine
(`spec/41_protocol_engine.md` R82, R83, R85), and the timing formula of `spec/70_reset_and_hazards.md` R132. -/

namespace Sys2Proof.Machine

/-- `START_EVTS` (R98). -/
def startEvents : List PinEvent := [.dd false, .s, .dc false, .s]

/-- One bit slot of `BITS` (R98). -/
def bitEvents (b : Level) : List PinEvent := [.dd b, .s, .dc true, .s, .dc false, .s]

/-- `BITS(u)`: bit 7 first (R98). -/
def unitEvents (u : Byte) : List PinEvent :=
  [7, 6, 5, 4, 3, 2, 1, 0].flatMap fun i => bitEvents (u.getLsbD i)

/-- `ACK(v)` (R98). -/
def ackEvents (v : Level) : List PinEvent := [.dd true, .s, .dc true, .s, .rd v, .dc false, .s]

/-- `STOP_EVTS` (R98). -/
def stopEvents : List PinEvent := [.dd false, .s, .dc true, .s, .dd true, .s]

/-- What a whole transfer does: its pin events, its response word and the number of units it sends (R98, R99). -/
structure TransferRun where
  events : List PinEvent
  response : Word
  units : Nat
  deriving DecidableEq, Repr

/-- The loop of `TraceOf` over the payload bytes from index `k` on, then STOP (R98). -/
def dataRun (v : Nat → Level) (k : Nat) : List Byte → TransferRun
  | [] => { events := stopEvents, response := codeWord .success, units := 0 }
  | b :: bs =>
    if v (k + 1) then
      { events := unitEvents b ++ ackEvents (v (k + 1)) ++ stopEvents
        response := respWord .dataNacked (BitVec.ofNat 16 k)
        units := 1 }
    else
      let rest := dataRun v (k + 1) bs
      { events := unitEvents b ++ ackEvents (v (k + 1)) ++ rest.events
        response := rest.response
        units := rest.units + 1 }

/-- `TraceOf(a, p, v)` (R98). -/
def traceOf (a : Addr) (p : List Byte) (v : Nat → Level) : TransferRun :=
  let opening := startEvents ++ unitEvents (addressUnit a false) ++ ackEvents (v 0)
  if v 0 then { events := opening ++ stopEvents, response := codeWord .addressNacked, units := 1 }
  else
    let rest := dataRun v 0 p
    { events := opening ++ rest.events, response := rest.response, units := rest.units + 1 }

/-- A `DD` event (R32). -/
def PinEvent.isDd : PinEvent → Bool
  | .dd _ => true
  | .dc _ => false
  | .rd _ => false
  | .rc _ => false
  | .s => false
  | .claim _ _ => false
  | .unclaim _ _ => false

/-- A `DC` event (R32). -/
def PinEvent.isDc : PinEvent → Bool
  | .dc _ => true
  | .dd _ => false
  | .rd _ => false
  | .rc _ => false
  | .s => false
  | .claim _ _ => false
  | .unclaim _ _ => false

/-- An `RD` event (R32). -/
def PinEvent.isRd : PinEvent → Bool
  | .rd _ => true
  | .dc _ => false
  | .dd _ => false
  | .rc _ => false
  | .s => false
  | .claim _ _ => false
  | .unclaim _ _ => false

/-- An `RC` event (R32). -/
def PinEvent.isRc : PinEvent → Bool
  | .rc _ => true
  | .dc _ => false
  | .dd _ => false
  | .rd _ => false
  | .s => false
  | .claim _ _ => false
  | .unclaim _ _ => false

/-- Every `DC` and `DD` is followed at once by exactly one `S`, and `S` follows nothing else (R82). -/
def settledDrives : List PinEvent → Bool
  | [] => true
  | .dc _ :: .s :: es => settledDrives es
  | .dd _ :: .s :: es => settledDrives es
  | .rd _ :: es => settledDrives es
  | .dc _ :: _ => false
  | .dd _ :: _ => false
  | .rc _ :: _ => false
  | .s :: _ => false
  | .claim _ _ :: _ => false
  | .unclaim _ _ :: _ => false

/-- The SCL level after a pin event of a transfer, from the level before it (R18, R32). -/
def clockAfter (scl : Level) : PinEvent → Level
  | .dc l => l
  | .rc _ => true
  | .dd _ => scl
  | .rd _ => scl
  | .s => scl
  | .claim _ _ => true
  | .unclaim _ _ => true

/-- The `DD` events that happen while SCL is high, from the SCL level before the list (R83). -/
def drivesWhileClockHigh (scl : Level) : List PinEvent → List PinEvent
  | [] => []
  | e :: es =>
    if scl && e.isDd then e :: drivesWhileClockHigh (clockAfter scl e) es
    else drivesWhileClockHigh (clockAfter scl e) es

/-- The time a pin event takes, for a settle delay `d` and a pin-operation latency `l` (R132: timing only). DESIGN CHOICE (log 19):
`CLAIM` and `UNCLAIM`, of which the spec gives no time, take none. -/
def eventTime (d l : Nat) : PinEvent → Nat
  | .s => d
  | .dc _ => l
  | .dd _ => l
  | .rd _ => l
  | .rc _ => l
  | .claim _ _ => 0
  | .unclaim _ _ => 0

/-- The time of a list of pin events (R132: timing only). -/
def traceTime (d l : Nat) (es : List PinEvent) : Nat := (es.map (eventTime d l)).sum

/-- The time of a transfer's events in a state: settle delays of `CUR_SETTLE`, pin operations of `T_GPIO` (R132). -/
def State.transferTime (s : State) (es : List PinEvent) : Nat := traceTime s.curSettle Config.tGpio es

end Sys2Proof.Machine
end

