-- ==== Sys2Proof/Safety.lean ====
section
/-! DEFINITION. What counts as a safe state and a safe run of the block: the idle bus (`spec/41_protocol_engine.md` R81), the
legal sequencer positions (`spec/10_state.md` R20 to R24, `spec/41_protocol_engine.md` R86), the held pin pair (R16), and the
end of a run (`spec/70_reset_and_hazards.md` R134). -/

namespace Sys2Proof.Machine

/-- Both lines released outputs: the idle bus of a held pair (R81). -/
def State.linesIdle (s : State) : Bool :=
  s.sclO && (s.sclDir == .output) && s.sdaO && (s.sdaDir == .output)

/-- Both lines released inputs: the block drives neither pin (R38, R74). -/
def State.linesUndriven (s : State) : Bool :=
  s.sclO && (s.sclDir == .input) && s.sdaO && (s.sdaDir == .input)

/-- `SCL_O` at a sequencer position (the lists of R87, R88, R91, R92). -/
def clockAt (f : Fsm) (sub : Nat) : Level :=
  match f with
  | .idle => true
  | .start => sub ≤ 2
  | .addressBits => sub == 3 || sub == 4
  | .directionBit => sub == 3 || sub == 4
  | .dataByteBits => sub == 3 || sub == 4
  | .addressAck => sub == 3 || sub == 4 || sub == 5
  | .dataAck => sub == 3 || sub == 4 || sub == 5
  | .stop => 3 ≤ sub

/-- `SDA_DIR` and `SDA_O` at a sequencer position, where the list fixes them: a primitive's first event sets SDA, so its
position 0 fixes nothing except at START, which relies on the idle bus (R87). -/
def State.dataAt (s : State) : Option (Dir × Level) :=
  match s.fsm, s.sub.toNat with
  | .idle, _ => some (.output, true)
  | .start, 0 => some (.output, true)
  | .start, _ + 1 => some (.output, false)
  | .addressBits, 0 => none
  | .addressBits, _ + 1 => some (.output, s.nextBit)
  | .directionBit, 0 => none
  | .directionBit, _ + 1 => some (.output, s.nextBit)
  | .dataByteBits, 0 => none
  | .dataByteBits, _ + 1 => some (.output, s.nextBit)
  | .addressAck, 0 => none
  | .addressAck, n + 1 => if n < 4 then some (.output, true) else some (.input, true)
  | .dataAck, 0 => none
  | .dataAck, n + 1 => if n < 4 then some (.output, true) else some (.input, true)
  | .stop, 0 => none
  | .stop, n + 1 => if n < 4 then some (.output, false) else some (.output, true)

/-- The line registers are what the sequencer position says (R81, R83). -/
def State.linesAtPosition (s : State) : Bool :=
  (s.sclDir == .output) && (s.sclO == clockAt s.fsm s.sub.toNat) &&
    (match s.dataAt with
     | none => true
     | some (d, l) => (s.sdaDir == d) && (s.sdaO == l))

/-- `BIT_CNT` has the range its phase gives it (R23). -/
def State.bitCntLegal (s : State) : Bool :=
  match s.fsm with
  | .idle => s.bitCnt == 0#4
  | .start => s.bitCnt == 0#4
  | .addressBits => 1 ≤ s.bitCnt.toNat && s.bitCnt.toNat ≤ 7
  | .directionBit => s.bitCnt == 1#4
  | .addressAck => s.bitCnt == 0#4
  | .dataByteBits => 1 ≤ s.bitCnt.toNat && s.bitCnt.toNat ≤ 8
  | .dataAck => s.bitCnt == 0#4
  | .stop => s.bitCnt == 0#4

/-- The position names an event of its list, and is 0 in `IDLE` (R21, R97). -/
def State.subLegal (s : State) : Bool := s.sub.toNat ≤ s.fsm.last

/-- In `STOP`, `PEND` is the outcome the last ACK slot decided (R30, R80). -/
def State.outcomeRecorded (s : State) : Bool :=
  (s.pend == codeWord .success && !s.ackBit && s.byteIdx == s.reqLen) ||
    (s.pend == codeWord .addressNacked && s.ackBit && s.byteIdx == 0#16) ||
    (s.pend == respWord .dataNacked s.byteIdx && s.ackBit && s.byteIdx.toNat < s.reqLen.toNat)

/-- `BYTE_IDX` in each phase of a transfer, and `PEND` in `STOP` (R24, R30). -/
def State.indexLegal (s : State) : Bool :=
  match s.fsm with
  | .idle => true
  | .start => s.byteIdx == 0#16
  | .addressBits => s.byteIdx == 0#16
  | .directionBit => s.byteIdx == 0#16
  | .addressAck => s.byteIdx == 0#16
  | .dataByteBits => s.byteIdx.toNat < s.reqLen.toNat
  | .dataAck => s.byteIdx.toNat < s.reqLen.toNat
  | .stop => s.byteIdx.toNat ≤ s.reqLen.toNat && s.outcomeRecorded

/-- The invariant of the machine: what every run from a launch keeps. -/
structure Inv (s : State) : Prop where
  /-- No micro-operation is put on the internal port from outside (R64, R115). -/
  noInjectedWord : s.uport = []
  /-- The platform's sets are in canonical form (R33). -/
  usableWf : PinSet.wf s.usable
  reservedWf : PinSet.wf s.reserved
  /-- A held pair is two different usable pins, both reserved (R16, R73). -/
  pairHeld : s.bound = true →
    s.clkPin ∈ s.reserved ∧ s.datPin ∈ s.reserved ∧ s.clkPin ∈ s.usable ∧ s.datPin ∈ s.usable ∧ s.clkPin ≠ s.datPin
  /-- Without a pair the block drives neither pin (R38, R74). -/
  unboundUndriven : s.bound = false → s.linesUndriven = true
  /-- A busy block holds a pair and is inside a transfer (R27, R97). -/
  busyInTransfer : s.busy = true → s.bound = true ∧ s.faultFlag = false ∧ s.fsm ≠ .idle
  /-- A free block without a fault is in `IDLE` (R20). -/
  freeIsIdle : s.busy = false → s.faultFlag = false → s.fsm = .idle
  /-- Without a fault the sequencer's position and counters are legal (R21, R23, R86). -/
  positionLegal : s.faultFlag = false → s.subLegal = true ∧ s.bitCntLegal = true
  /-- Without a fault a held pair's lines are what the position says (R81, R83). -/
  linesPlaced : s.faultFlag = false → s.bound = true → s.linesAtPosition = true
  /-- During a transfer the payload has `REQ_LEN` bytes and `BYTE_IDX` is legal (R24, R40, R54). -/
  payloadAttached : s.busy = true → s.payload.length = s.reqLen.toNat ∧ s.indexLegal = true
  /-- `REQ_DIR` is always 0 (R25). -/
  writesOnly : s.reqDir = false

/-- `n` steps of the machine, stopping at the first fault or refusal. -/
def runSteps (n : Nat) (s : State) : Result := Host.Core.run Sys2Proof.core n s

/-- What a claim about the block may read (R14). -/
structure Observation where
  responses : List Response
  status : StatusWord
  trace : List PinEvent
  deriving DecidableEq, Repr

/-- The observation of a state (R14, R134). -/
def State.observation (s : State) : Observation :=
  { responses := s.responses, status := s.status, trace := s.trace }

/-! ### The end of a run (R134)

Whether the last command was answered, and whether `FAULT` was ever 1, are facts about a run that its last state does not show: a
reset drops a transfer without a response and clears `FAULT` (R121). So they are recorded along the run (log 24). -/

/-- What has happened in a run so far, as far as its end depends on it (R134). -/
structure RunRecord where
  /-- `FAULT` has been 1. -/
  faulted : Bool
  /-- A command has been accepted, and the response of the last one accepted has been presented. -/
  answered : Bool
  deriving DecidableEq, Repr

/-- The record at the beginning of a run from `s`: no command is accepted yet. -/
def State.runRecord (s : State) : RunRecord := { faulted := s.faultFlag, answered := false }

/-- The record after a step from `s` to `t`. A response presented in the step is that of the last command accepted; a step that
sets `BUSY` has accepted a transfer whose response is still to come; any other step, a reset among them, answers nothing. -/
def RunRecord.after (r : RunRecord) (s t : State) : RunRecord :=
  { faulted := r.faulted || t.faultFlag
    answered := decide (s.responses.length < t.responses.length) || (r.answered && !(t.busy && !s.busy)) }

/-- A command still to come. -/
def Action.isCommand : Action → Bool
  | .command _ _ => true
  | .abandon => false
  | .reset => false
  | .setSettle _ => false
  | .reserve _ => false
  | .unreserve _ => false

/-- The host has issued its last command and the block is free, without a fault. -/
def State.portsQuiet (s : State) : Bool :=
  s.inputs.all (fun p => !p.action.isCommand) && s.uport.isEmpty && !s.busy && !s.faultFlag

/-- The state and the record after `n` more steps, none where the run stops. -/
def recordedRun : Nat → State → RunRecord → Option (State × RunRecord)
  | 0, s, r => some (s, r)
  | n + 1, s, r =>
    match step s with
    | .next t => recordedRun n t (r.after s t)
    | .fault _ => none
    | .refused _ => none

/-- What the run of `n` steps from `s` shows when it has ended there: the host has issued its last command, the block has presented
that command's response, and `FAULT` has never been 1. None while it has not ended (R134). DESIGN CHOICE (log 24): the observation is
that of the state after the `n` steps, so events after the last response that are no commands, such as a reset, show in it. -/
def endedObservation (n : Nat) (s : State) : Option Observation :=
  match recordedRun n s s.runRecord with
  | none => none
  | some (t, r) => if t.portsQuiet && r.answered && !r.faulted then some t.observation else none

/-- The run of `n` steps from `s` has ended (R134). -/
def runEnded (n : Nat) (s : State) : Bool := (endedObservation n s).isSome

end Sys2Proof.Machine
end

