-- ==== Sys2Proof/Certificates/Slice0/Obligations.lean ====
section
/-! DEFINITION. The statements for the provers: what the instructions and the machine do, from the numbered rules of `spec/`. -/

open Sys2Proof Sys2Proof.Machine

namespace Sys2Proof.Claims

/-- `t` at the end of a command: `RESP` is `w`, `BUSY` is 0, and the response port has presented `w` once, recorded with the
STATUS word after it (R93, R14; the record is the model's, log 10). -/
def answered (t : State) (w : Word) : State :=
  { t with
    resp := w
    busy := false
    responses := t.responses ++ [{ word := w, status := ({ t with resp := w, busy := false } : State).status }] }

/-- `t` after the pin events `es` (R32). -/
def withEvents (t : State) (es : List PinEvent) : State := { t with trace := t.trace ++ es }

/-- The next action of the environment is a reset that comes now. -/
def resetIsNext (s : State) : Prop :=
  s.uport = [] ∧ ∃ n rest, s.inputs = { after := n, action := .reset } :: rest ∧ (n = 0 ∨ s.sequencerEnabled = false)

/-- The block is ready for a transfer: it holds a pair, is free, has no fault, and nothing else comes in. -/
def readyAlone (s : State) : Prop :=
  s.bound = true ∧ s.busy = false ∧ s.faultFlag = false ∧ s.inputs = [] ∧ s.uport = []

/-- The sequencer is enabled and nothing comes in (R97). -/
def sequencerAlone (s : State) : Prop := s.sequencerEnabled = true ∧ s.inputs = [] ∧ s.uport = []

end Sys2Proof.Claims

open Sys2Proof.Claims

/-! ### Encoding (`spec/30_encoding.md`) -/

/-- Words written out from the spec's patterns and from the vectors H-1 to H-14 and section 2.2 of `spec/95_test_vectors.md`. -/
def Obligations.SpecWordsDecode : Prop :=
  decodeHost 0x01100401#32 [] = .instr (.busInit 4#12 17#12) ∧
  decodeHost 0x00000002#32 [] = .instr .busDeinit ∧
  decodeHost 0x00027803#32 [0x00#8, 0xAE#8] = .instr (.transferWrite 0x3C#7 2#16 [0x00#8, 0xAE#8]) ∧
  decodeHost 0x00027903#32 [0x00#8, 0xAE#8] = .reject .illegalCommand ∧
  decodeMicro 0x10#8 = .instr .acquire ∧ decodeMicro 0x31#8 = .instr (.driveClock true) ∧
  decodeMicro 0x50#8 = .instr .readData ∧ decodeMicro 0x91#8 = .instr (.sendBit true) ∧
  decodeMicro 0xC0#8 = .instr .sampleAck ∧ decodeMicro 0x11#8 = .reject .noMicroOperation

/-- Decoding the words of a well-formed instruction gives it back, every operand at every value (R57, R58, R59, R65). -/
def Obligations.DecodeOfEncode : Prop :=
  ∀ i : Instr, i.WellFormed → decode (encode i) = .instr i

/-- A port word that decodes is the encoding of a well-formed instruction: no bit of a legal word is free (R57, R59, R65, R66).
That BUS_INIT and BUS_DEINIT decode with no payload only is the model's reading of R59 and R67 (log 11). -/
def Obligations.EncodeOfDecode : Prop :=
  ∀ (p : PortWord) (i : Instr), decode p = .instr i → i.WellFormed ∧ encode i = p

/-- A format H word is illegal exactly when it matches none of the three patterns of R60 (R61). -/
def Obligations.IllegalExactlyOutsidePatterns : Prop :=
  ∀ (w : Word) (payload : List Byte),
    decodeHost w payload = .reject .illegalCommand ↔ ∀ r ∈ hostPatterns, r.fits w = false

/-- The opcode patterns are pairwise disjoint, on the command port and on the internal port (R60, R65). -/
def Obligations.OpcodePatternsDisjoint : Prop :=
  (hostPatterns.Pairwise fun r q => ∀ w : Word, r.fits w = true → q.fits w = false) ∧
  (microPatterns.Pairwise fun r q => ∀ w : Byte, r.fits w = true → q.fits w = false)

/-- A format U word spells a micro-operation exactly when it matches a pattern of R65; any other is refused (R66). -/
def Obligations.MicroWordsExactlyPatterns : Prop :=
  ∀ w : Byte,
    (decodeMicro w = .reject .noMicroOperation ↔ ∀ r ∈ microPatterns, r.fits w = false) ∧
    ∀ s : State, s.uport = [w] → decodeMicro w = .reject .noMicroOperation → step s = .refused .noMicroOperation

/-! ### State, reset, line levels -/

/-- The registers after reset (R38); `CUR_SETTLE` is unspecified there and nothing is said of it. -/
def Obligations.ResetRegisterValues : Prop :=
  ∀ p : Launch,
    let s := State.launch p
    s.bound = false ∧ s.clkPin = 0#12 ∧ s.datPin = 0#12 ∧ s.sclO = true ∧ s.sdaO = true ∧ s.sclDir = .input ∧
    s.sdaDir = .input ∧ s.fsm = .idle ∧ s.sub = 0#3 ∧ s.bitCnt = 0#4 ∧ s.shift = 0#8 ∧ s.byteIdx = 0#16 ∧
    s.reqAddr = 0#7 ∧ s.reqDir = false ∧ s.reqLen = 0#16 ∧ s.ackBit = true ∧ s.busy = false ∧ s.faultFlag = false ∧
    s.resp = 0#32 ∧ s.pend = 0#32 ∧ s.trace = [] ∧ s.status = 0x07C0#16

/-- The fields of the STATUS port, bit by bit (R31). -/
def Obligations.StatusPortLayout : Prop :=
  ∀ s : State,
    s.status.getLsbD 0 = s.bound ∧ s.status.getLsbD 1 = s.busy ∧ s.status.extractLsb' 2 3 = s.fsm.value ∧
    s.status.getLsbD 5 = s.faultFlag ∧ s.status.getLsbD 6 = s.sclO ∧ s.status.getLsbD 7 = s.sdaO ∧
    s.status.getLsbD 8 = (s.sdaDir == .input) ∧ s.status.getLsbD 9 = (s.sclDir == .input) ∧
    s.status.getLsbD 10 = s.ackBit ∧ s.status.extractLsb' 11 5 = 0#5

/-- The lines: an output level 0 pulls low, a level 1 or an input releases; a line is the wired-AND of all contributions, and
the environment contributes to SDA only (R18, R19). -/
def Obligations.LineLevelsOpenDrain : Prop :=
  ∀ (s : State) (slave : Level),
    (s.sclLine = false ↔ s.sclDir = .output ∧ s.sclO = false) ∧
    (s.mSda = false ↔ s.sdaDir = .output ∧ s.sdaO = false) ∧
    (s.sdaLine slave = false ↔ s.mSda = false ∨ slave = false)

/-- A reset, from every state and at any time: the registers of R38, an empty `TRACE`, nothing of the platform (R121). -/
def Obligations.ResetActionRestoresRegisters : Prop :=
  ∀ s : State, resetIsNext s →
    ∃ t, step s = .next t ∧
      t.bound = false ∧ t.clkPin = 0#12 ∧ t.datPin = 0#12 ∧ t.sclO = true ∧ t.sdaO = true ∧ t.sclDir = .input ∧
      t.sdaDir = .input ∧ t.fsm = .idle ∧ t.sub = 0#3 ∧ t.bitCnt = 0#4 ∧ t.shift = 0#8 ∧ t.byteIdx = 0#16 ∧
      t.reqAddr = 0#7 ∧ t.reqDir = false ∧ t.reqLen = 0#16 ∧ t.ackBit = true ∧ t.busy = false ∧ t.faultFlag = false ∧
      t.resp = 0#32 ∧ t.pend = 0#32 ∧ t.trace = [] ∧ t.status = 0x07C0#16 ∧
      t.reserved = s.reserved ∧ t.usable = s.usable ∧ t.tSettle = s.tSettle

/-! ### What a step runs -/

/-- A format U word on the internal port that spells a micro-operation: the step is that micro-operation's meaning, the word
taken off the port (R64; the port's place in the model is log 2). -/
def Obligations.StepRunsMicroWord : Prop :=
  ∀ (s : State) (w : Byte) (rest : List Byte) (i : Instr),
    s.uport = w :: rest → decode (.micro w) = .instr i → step s = exec i { s with uport := rest }

/-- A command on the command port of a free block: the step is that command's meaning, the command taken off the port
(R93). -/
def Obligations.StepRunsAcceptedCommand : Prop :=
  ∀ (s : State) (n : Nat) (w : Word) (payload : List Byte) (rest : List Pending) (i : Instr),
    s.uport = [] → s.busy = false → s.inputs = { after := n, action := .command w payload } :: rest →
    decode (.host w payload) = .instr i → step s = exec i { s with inputs := rest }

/-- An illegal word is answered `ILLEGAL_COMMAND` and changes nothing but `RESP` (R61, R107). That it is so with any payload
attached is the model's reading (log 11), and the record of presented responses is the model's own (log 10). -/
def Obligations.IllegalCommandAnswered : Prop :=
  ∀ (s : State) (n : Nat) (w : Word) (payload : List Byte) (rest : List Pending),
    s.uport = [] → s.busy = false → s.inputs = { after := n, action := .command w payload } :: rest →
    (∀ r ∈ hostPatterns, r.fits w = false) →
    step s = .next (answered { s with inputs := rest } 0x0000000F#32)

/-- A pair of a legal word and a payload that has not the length the word says is refused at the boundary (R59). -/
def Obligations.MismatchedPayloadRefused : Prop :=
  (∀ (s : State) (addr : Addr) (len : Len) (payload : List Byte),
    payload.length ≠ len.toNat → exec (.transferWrite addr len payload) s = .refused .payloadLengthMismatch) ∧
  ∀ (s : State) (n : Nat) (w : Word) (payload : List Byte) (rest : List Pending),
    s.uport = [] → s.busy = false → s.inputs = { after := n, action := .command w payload } :: rest →
    hostOp w = 0x3#4 → hostZero w = 0#4 → hostDir w = false → payload.length ≠ (hostLen w).toNat →
    step s = .refused .payloadLengthMismatch

/-- A command waits on the port while the block is busy: the step is the sequencer's, and the command stays (R93, R124). The same
command's meaning changes nothing while `BUSY = 1` (log 12). -/
def Obligations.CommandHeldWhileBusy : Prop :=
  (∀ (s : State) (w : Word) (payload : List Byte) (rest : List Pending),
    s.uport = [] → s.sequencerEnabled = true → s.inputs = { after := 0, action := .command w payload } :: rest →
    step s = s.sequencerStep ∧ ∀ t, step s = .next t → t.inputs = s.inputs) ∧
  ∀ (s : State) (i : Instr), s.busy = true →
    (i = .busDeinit ∨ (∃ c d, i = .busInit c d) ∨ ∃ a len p, i = .transferWrite a len p ∧ p.length = len.toNat) →
    exec i s = .next s

/-- With nothing coming in, the step is the sequencer's when it is enabled, and a wait otherwise (R97; the wait is log 14). -/
def Obligations.StepIsSequencerStep : Prop :=
  ∀ s : State, s.uport = [] → s.inputs = [] →
    (s.sequencerEnabled = true → step s = s.sequencerStep) ∧ (s.sequencerEnabled = false → step s = .next s)

/-- The host environment abandons a transfer: `FAULT <- 1`, `BUSY <- 0`, everything else kept; from then on BUS_INIT and
TRANSFER_WRITE answer `ILLEGAL_STATE` and BUS_DEINIT releases the pins and leaves `FAULT` (R109). With no transfer in progress
the event is not enabled (the model drops it, log 16). The record of presented responses is the model's own (log 10). -/
def Obligations.AbandonmentFreezesBlock : Prop :=
  (∀ (s : State) (rest : List Pending),
    s.uport = [] → s.inputs = { after := 0, action := .abandon } :: rest →
    (s.busy = true → s.fsm ≠ .idle →
      step s = .next { s with inputs := rest, faultFlag := true, busy := false }) ∧
    (s.busy = false ∨ s.fsm = .idle → step s = .next { s with inputs := rest })) ∧
  ∀ s : State, s.faultFlag = true → s.busy = false →
    (∀ c d, exec (.busInit c d) s = .next (answered s 0x0000000E#32)) ∧
    (∀ a len p, p.length = len.toNat → exec (.transferWrite a len p) s = .next (answered s 0x0000000E#32)) ∧
    ∃ t, exec .busDeinit s = .next t ∧ t.bound = false ∧ t.faultFlag = true ∧ t.resp = 0#32

/-- A table word placed for the fetch is what the next step runs, to a next state: a command of a free block, or a micro-operation
in the situation in which the sequencer issues it (log 2). -/
def Obligations.FetchWordRunsTableWord : Prop :=
  ∀ (s : State) (nbits w : Nat) (i : Instr), decodeTableWord nbits w = some i →
    (nbits = 32 ∧
      (s.busy = false →
        step (s.withFetchWord nbits w) = exec i { s with uport := [] } ∧
        ∃ t, step (s.withFetchWord nbits w) = .next t)) ∨
    (nbits = 8 ∧
      step (s.withFetchWord nbits w) = exec i { s.situated i with uport := [] } ∧
      ∃ t, step (s.withFetchWord nbits w) = .next t)

/-! ### The Pin Control Layer (`spec/40_pin_control.md`) -/

/-- The preconditions of R72: a primitive of the Pin Control Layer asked for in the wrong state of `BOUND` is refused. R72 names
those only; that START to STOP (R87 to R92), which issue DRIVE_DATA, are refused with them is the model's inference (log 6). -/
def Obligations.RefusedOutsideBoundPrecondition : Prop :=
  ∀ s : State,
    (s.bound = false → ∀ i : Instr,
      i ∈ ([.driveClock false, .driveClock true, .driveData false, .driveData true, .readData, .readClock, .settle, .start,
        .sendBit false, .sendBit true, .sendAddress, .sendByte, .sampleAck, .stop] : List Instr) →
      exec i s = .refused .boundPrecondition) ∧
    (s.bound = true → exec .acquire s = .refused .boundPrecondition)

/-- The line-level preconditions of the engine's primitives: START needs both lines high, the others SCL low; asked for
otherwise they are refused (R87, R88, R91, R92 read with R72: log 6). -/
def Obligations.RefusedOutsideLinePrecondition : Prop :=
  ∀ s : State, s.bound = true →
    (s.sclLine = false ∨ s.mSda = false → exec .start s = .refused .linePrecondition) ∧
    (s.sclLine = true → ∀ i : Instr,
      i ∈ ([.sendBit false, .sendBit true, .sendAddress, .sendByte, .sampleAck, .stop] : List Instr) →
      exec i s = .refused .linePrecondition)

/-- ACQUIRE (R73): its word, its three results with what each leaves, the priority of validation, the roll-back, and the same pin
twice. `opClk` and `opDat` are `CLK` and `DAT` of the BUS_INIT command (log 8); `result` is the returned code (log 9). -/
def Obligations.AcquireClaimsPairOrNothing : Prop :=
  encode .acquire = .micro 0x10#8 ∧
  ∀ s : State, s.bound = false →
    let c := s.opClk
    let d := s.opDat
    (¬(c ∈ s.usable ∧ d ∈ s.usable) → exec .acquire s = .next { s with result := .code .invalidPin }) ∧
    (c ∈ s.usable → d ∈ s.usable → c ∈ s.reserved ∨ d ∈ s.reserved ∨ c = d →
      exec .acquire s = .next { s with result := .code .pinBusy }) ∧
    (c ∈ s.usable → d ∈ s.usable → c ∉ s.reserved → d ∉ s.reserved → c ≠ d →
      ∃ reserved : List PinId,
        (∀ p, p ∈ reserved ↔ p ∈ s.reserved ∨ p = c ∨ p = d) ∧ (PinSet.wf s.reserved → PinSet.wf reserved) ∧
        exec .acquire s = .next (withEvents
          { s with
            clkPin := c, datPin := d, sclO := true, sclDir := .output, sdaO := true, sdaDir := .output, bound := true,
            reserved := reserved, result := .code .success }
          [.claim c d]))

/-- RELEASE (R74): its word; with a pair held both lines become released inputs, both pins leave `RESERVED`, `BOUND <- 0`; with
none it changes nothing and emits nothing. -/
def Obligations.ReleaseReturnsBothPins : Prop :=
  encode .release = .micro 0x20#8 ∧
  ∀ s : State,
    (s.bound = false → exec .release s = .next s) ∧
    (s.bound = true →
      ∃ reserved : List PinId,
        (∀ p, p ∈ reserved ↔ p ∈ s.reserved ∧ p ≠ s.clkPin ∧ p ≠ s.datPin) ∧ (PinSet.wf s.reserved → PinSet.wf reserved) ∧
        exec .release s = .next (withEvents
          { s with
            sclDir := .input, sclO := true, sdaDir := .input, sdaO := true, bound := false, reserved := reserved }
          [.unclaim s.clkPin s.datPin]))

/-- DRIVE_CLOCK and DRIVE_DATA (R75, R76): their words, the line they set, the event, and nothing else. -/
def Obligations.DrivesSetOneLine : Prop :=
  ∀ l : Level,
    encode (.driveClock l) = .micro (0x30#8 ||| (BitVec.ofBool l).zeroExtend 8) ∧
    encode (.driveData l) = .micro (0x40#8 ||| (BitVec.ofBool l).zeroExtend 8) ∧
    ∀ s : State, s.bound = true →
      exec (.driveClock l) s = .next (withEvents { s with sclDir := .output, sclO := l } [.dc l]) ∧
      exec (.driveData l) s = .next (withEvents { s with sdaDir := .output, sdaO := l } [.dd l])

/-- READ_DATA (R77, R19): its word; SDA becomes an input, so the master releases it, and the sampled and returned level is the
environment's: its draw inside an ACK slot, for every value of the draw, and 1 outside one, where nothing is drawn. `ACK_BIT` and the
other registers are unchanged. The model's choices: an ACK slot is the phases `ADDRESS_ACK` and `DATA_ACK` (log 20); the returned
value stands in `result` (log 9); `slave` and `draws` hold the levels to come (log 4). -/
def Obligations.ReadDataSamplesEnvironment : Prop :=
  encode .readData = .micro 0x50#8 ∧
  ∀ s : State, s.bound = true →
    (s.fsm = .addressAck ∨ s.fsm = .dataAck →
      exec .readData s = .next (withEvents
        { s with
          sdaDir := .input, result := .level (s.slaveAt 0), slave := s.slave.tail, draws := s.draws + 1 }
        [.rd (s.slaveAt 0)])) ∧
    (s.fsm ≠ .addressAck → s.fsm ≠ .dataAck →
      exec .readData s = .next (withEvents { s with sdaDir := .input, result := .level true } [.rd true])) ∧
    ∀ k, ({ s with slave := s.slave.tail, draws := s.draws + 1 } : State).slaveAt k = s.slaveAt (k + 1)

/-- READ_CLOCK (R78): its word; SCL becomes an input and reads 1, whatever `SCL_O` is. The model keeps the returned level in `result`
(log 9). -/
def Obligations.ReadClockReleasesClock : Prop :=
  encode .readClock = .micro 0x60#8 ∧
  ∀ s : State, s.bound = true →
    exec .readClock s = .next (withEvents { s with sclDir := .input, result := .level true } [.rc true]) ∧
    ({ s with sclDir := .input } : State).sclLine = true

/-- SETTLE (R79): its word; it appends `S` and changes no register, whatever the duration. -/
def Obligations.SettleOnlyEmits : Prop :=
  encode .settle = .micro 0x70#8 ∧
  ∀ s : State, s.bound = true → exec .settle s = .next (withEvents s [.s])

/-! ### The Bit-Bang Protocol Engine (`spec/41_protocol_engine.md`) -/

/-- START (R87): its word; with both lines high, SDA falls while SCL is high, then SCL falls. The model's readings: SDA is high when
the master releases it, the environment contributing 1 (log 23); the whole list is one step, at whose end `SUB` is 0 (R21,
log 21). -/
def Obligations.StartDrivesDataThenClockLow : Prop :=
  encode .start = .micro 0x80#8 ∧
  ∀ s : State, s.bound = true → s.sclLine = true → s.mSda = true →
    exec .start s = .next (withEvents
      { s with sdaDir := .output, sdaO := false, sclDir := .output, sclO := false, sub := 0#3 }
      [.dd false, .s, .dc false, .s])

/-- SEND_BIT b (R88): its word; with SCL low, the bit slot; inside a unit `SHIFT` and `BIT_CNT` advance, outside one they do not
(what counts as inside a unit is log 7). That a `b` other than `SHIFT[7]` is driven inside a unit and `SHIFT` and `BIT_CNT` advance all
the same is the model's choice too (log 7). The whole list is one step, at whose end `SUB` is 0 (R21, log 21). -/
def Obligations.SendBitClocksOneBit : Prop :=
  ∀ b : Level, encode (.sendBit b) = .micro (0x90#8 ||| (BitVec.ofBool b).zeroExtend 8) ∧
  ∀ s : State, s.bound = true → s.sclLine = false →
    let t : State := withEvents
      { s with sdaDir := .output, sdaO := b, sclDir := .output, sclO := false, sub := 0#3 }
      [.dd b, .s, .dc true, .s, .dc false, .s]
    (s.fsm ∈ [.addressBits, .directionBit, .dataByteBits] ∧ s.bitCnt ≠ 0#4 →
      exec (.sendBit b) s = .next
        { t with shift := s.shift.extractLsb' 0 7 ++ 0#1, bitCnt := BitVec.ofNat 4 (s.bitCnt.toNat - 1) }) ∧
    (¬(s.fsm ∈ [.addressBits, .directionBit, .dataByteBits] ∧ s.bitCnt ≠ 0#4) → exec (.sendBit b) s = .next t)

/-- SEND_ADDRESS (R89): its word; the 7-bit address most significant bit first, then the direction bit: 48 events. That `FSM` is
left at `DIRECTION_BIT` and `SUB` at 0 when it is asked for by itself is the model's reading (log 21, R21). -/
def Obligations.SendAddressSendsAddressUnit : Prop :=
  encode .sendAddress = .micro 0xA0#8 ∧
  ∀ s : State, s.bound = true → s.sclLine = false →
    exec .sendAddress s = .next (withEvents
      { s with
        shift := 0#8, fsm := .directionBit, bitCnt := 0#4, sub := 0#3,
        sdaDir := .output, sdaO := s.reqDir, sclDir := .output, sclO := false }
      ([6, 5, 4, 3, 2, 1, 0].flatMap (fun i => bitEvents (s.reqAddr.getLsbD i)) ++ bitEvents s.reqDir))

/-- SEND_BYTE (R90): its word; payload byte `BYTE_IDX`, most significant bit first: 48 events. That `FSM` stays as it was and `SUB`
is left at 0 when it is asked for by itself is the model's reading (log 21, R21). That with `BUSY = 0` it reads the payload the last
transfer left is the model's choice (log 11). A byte that does not exist stops the model (log 13). -/
def Obligations.SendByteSendsPayloadByte : Prop :=
  encode .sendByte = .micro 0xB0#8 ∧
  ∀ s : State, s.bound = true → s.sclLine = false →
    (∀ b : Byte, s.byteIdx.toNat < s.reqLen.toNat → s.payload[s.byteIdx.toNat]? = some b →
      exec .sendByte s = .next (withEvents
        { s with
          shift := 0#8, bitCnt := 0#4, sub := 0#3,
          sdaDir := .output, sdaO := b.getLsbD 0, sclDir := .output, sclO := false }
        ([7, 6, 5, 4, 3, 2, 1, 0].flatMap fun i => bitEvents (b.getLsbD i)))) ∧
    (¬(s.byteIdx.toNat < s.reqLen.toNat ∧ s.byteIdx.toNat < s.payload.length) →
      exec .sendByte s = .fault .payloadIndexOutOfRange)

/-- SAMPLE_ACK (R91): its word; SDA released while SCL is low, SCL raised, one sample into `ACK_BIT`, SCL lowered. The model's own:
it is performed in any phase, "after the 8th bit" not being checked (log 6), and its sample is a draw in every phase (log 20); the
returned level in `result` (log 9), the levels to come in `slave` and `draws` (log 4), the whole list as one step, at whose end
`SUB` is 0 (log 21, R21). -/
def Obligations.SampleAckLatchesSample : Prop :=
  encode .sampleAck = .micro 0xC0#8 ∧
  ∀ s : State, s.bound = true → s.sclLine = false →
    exec .sampleAck s = .next (withEvents
      { s with
        sdaDir := .input, sdaO := true, sclDir := .output, sclO := false, sub := 0#3,
        ackBit := s.slaveAt 0, result := .level (s.slaveAt 0), slave := s.slave.tail, draws := s.draws + 1 }
      [.dd true, .s, .dc true, .s, .rd (s.slaveAt 0), .dc false, .s])

/-- STOP (R92): its word; SDA low while SCL is low, SCL raised, SDA raised while SCL is high; both lines end released. The model's
choice: it is performed in any phase, "after an ACK slot" not being checked (log 6). The whole list is one step, at whose end `SUB`
is 0 (R21, log 21). -/
def Obligations.StopRaisesClockThenData : Prop :=
  encode .stop = .micro 0xD0#8 ∧
  ∀ s : State, s.bound = true → s.sclLine = false →
    exec .stop s = .next (withEvents
      { s with sdaDir := .output, sdaO := true, sclDir := .output, sclO := true, sub := 0#3 }
      [.dd false, .s, .dc true, .s, .dd true, .s])

/-! ### The host commands (`spec/42_host_commands.md`) -/

/-- BUS_INIT (R94, R103, R104, R108, R110): every outcome with everything it changes, in the order of priority. `opClk` and
`opDat` are the model's record of the operands (log 8), `responses` that of what was presented (log 10). -/
def Obligations.BusInitOutcomes : Prop :=
  ∀ (s : State) (c d : PinId), s.busy = false →
    let t : State := { s with opClk := c, opDat := d }
    (s.faultFlag = true ∨ s.bound = true → exec (.busInit c d) s = .next (answered s 0x0000000E#32)) ∧
    (s.faultFlag = false → s.bound = false → ¬(c ∈ s.usable ∧ d ∈ s.usable) →
      exec (.busInit c d) s = .next (answered t 0x00000003#32)) ∧
    (s.faultFlag = false → s.bound = false → c ∈ s.usable → d ∈ s.usable → c ∈ s.reserved ∨ d ∈ s.reserved ∨ c = d →
      exec (.busInit c d) s = .next (answered t 0x00000004#32)) ∧
    (s.faultFlag = false → s.bound = false → c ∈ s.usable → d ∈ s.usable → c ∉ s.reserved → d ∉ s.reserved → c ≠ d →
      ∃ reserved : List PinId,
        (∀ p, p ∈ reserved ↔ p ∈ s.reserved ∨ p = c ∨ p = d) ∧ (PinSet.wf s.reserved → PinSet.wf reserved) ∧
        exec (.busInit c d) s = .next (answered (withEvents
          { t with
            clkPin := c, datPin := d, sclO := true, sclDir := .output, sdaO := true, sdaDir := .output, bound := true,
            reserved := reserved }
          [.claim c d]) 0x00000000#32))

/-- BUS_DEINIT (R95): its word; it answers `SUCCESS` in every state in which it is accepted; a held pair is released, `FAULT`
stays. The record of presented responses is the model's own (log 10). -/
def Obligations.BusDeinitReleasesAndSucceeds : Prop :=
  encode .busDeinit = .host 0x00000002#32 [] ∧
  ∀ s : State, s.busy = false →
    (s.bound = false → exec .busDeinit s = .next (answered s 0x00000000#32)) ∧
    (s.bound = true →
      ∃ reserved : List PinId,
        (∀ p, p ∈ reserved ↔ p ∈ s.reserved ∧ p ≠ s.clkPin ∧ p ≠ s.datPin) ∧ (PinSet.wf s.reserved → PinSet.wf reserved) ∧
        exec .busDeinit s = .next (answered (withEvents
          { s with
            sclDir := .input, sclO := true, sdaDir := .input, sdaO := true, bound := false, reserved := reserved }
          [.unclaim s.clkPin s.datPin]) 0x00000000#32))

/-- TRANSFER_WRITE at acceptance (R96, R108): `ILLEGAL_STATE` without a pair or after an abandonment; otherwise the request is
captured, `BUSY` stays 1 and the sequencer stands at START. Nothing else changes. The payload's place (log 11) and the record of
presented responses (log 10) are the model's own. -/
def Obligations.TransferWriteAccepted : Prop :=
  ∀ (s : State) (a : Addr) (len : Len) (p : List Byte), s.busy = false → p.length = len.toNat →
    (s.faultFlag = true ∨ s.bound = false → exec (.transferWrite a len p) s = .next (answered s 0x0000000E#32)) ∧
    (s.faultFlag = false → s.bound = true →
      exec (.transferWrite a len p) s = .next
        { s with
          busy := true, reqAddr := a, reqDir := false, reqLen := len, curSettle := s.tSettle, byteIdx := 0#16,
          bitCnt := 0#4, sub := 0#3, fsm := .start, payload := p })

/-! ### The sequencer (R80, R97) -/

/-- A sequencer step performs exactly the micro-operation at its position, as that micro-operation's meaning says, with `ACK_BIT`
taking the sample in an ACK slot, and then only moves the position (R97); in `IDLE` and past the end of a list it is a fault. The
model's own: that fault (log 13), and the sample standing as the next level to come, `slaveAt 0` (log 4). -/
def Obligations.SequencerStepIsMicroOperation : Prop :=
  ∀ s : State, s.bound = true →
    let micro : PinOp → Instr := fun op =>
      match op with
      | .driveClock l => .driveClock l
      | .driveData l => .driveData l
      | .readData => .readData
      | .readClock => .readClock
      | .settle => .settle
    (s.fsm ≠ .idle → s.sub.toNat ≤ s.fsm.last →
      ∃ op u, s.currentEvent = some op ∧ exec (micro op) s = .next u ∧
        s.sequencerStep = ({ u with ackBit := if op = .readData then s.slaveAt 0 else s.ackBit } : State).advance) ∧
    (s.fsm = .idle ∨ s.fsm.last < s.sub.toNat → s.sequencerStep = .fault .positionOutsideList)

/-- The position inside a list: `SUB` moves by one and nothing else does (R21, R97). -/
def Obligations.PositionMovesInsideList : Prop :=
  ∀ s : State, s.sub.toNat < s.fsm.last → s.advance = .next { s with sub := BitVec.ofNat 3 (s.sub.toNat + 1) }

/-- The transitions at the end of each list, with everything each of them changes (R80, R97). The record of presented responses is
the model's own (log 10). -/
def Obligations.SequencerTransitions : Prop :=
  ∀ s : State, s.sub.toNat = s.fsm.last →
    let t : State := { s with sub := 0#3 }
    let shifted : Byte := s.shift.extractLsb' 0 7 ++ 0#1
    (s.fsm = .start →
      s.advance = .next { t with shift := s.reqAddr ++ BitVec.ofBool s.reqDir, bitCnt := 7#4, fsm := .addressBits }) ∧
    (s.fsm = .addressBits → 1 < s.bitCnt.toNat →
      s.advance = .next { t with shift := shifted, bitCnt := BitVec.ofNat 4 (s.bitCnt.toNat - 1) }) ∧
    (s.fsm = .addressBits → s.bitCnt.toNat = 1 →
      s.advance = .next { t with shift := shifted, bitCnt := 1#4, fsm := .directionBit }) ∧
    (s.fsm = .directionBit → s.advance = .next { t with shift := shifted, bitCnt := 0#4, fsm := .addressAck }) ∧
    (s.fsm = .addressAck → s.ackBit = true → s.advance = .next { t with pend := 0x00000001#32, fsm := .stop }) ∧
    (s.fsm = .addressAck → s.ackBit = false → s.reqLen = 0#16 →
      s.advance = .next { t with pend := 0x00000000#32, fsm := .stop }) ∧
    (∀ b, s.fsm = .addressAck → s.ackBit = false → 0 < s.reqLen.toNat → s.payload[0]? = some b →
      s.advance = .next { t with shift := b, bitCnt := 8#4, fsm := .dataByteBits }) ∧
    (s.fsm = .dataByteBits → 1 < s.bitCnt.toNat →
      s.advance = .next { t with shift := shifted, bitCnt := BitVec.ofNat 4 (s.bitCnt.toNat - 1) }) ∧
    (s.fsm = .dataByteBits → s.bitCnt.toNat = 1 →
      s.advance = .next { t with shift := shifted, bitCnt := 0#4, fsm := .dataAck }) ∧
    (s.fsm = .dataAck → s.ackBit = true →
      s.advance = .next { t with pend := s.byteIdx ++ (0x000#12 ++ 0x2#4), fsm := .stop }) ∧
    (∀ b, s.fsm = .dataAck → s.ackBit = false → s.byteIdx.toNat + 1 < s.reqLen.toNat →
      s.payload[s.byteIdx.toNat + 1]? = some b →
      s.advance = .next
        { t with byteIdx := BitVec.ofNat 16 (s.byteIdx.toNat + 1), shift := b, bitCnt := 8#4, fsm := .dataByteBits }) ∧
    (s.fsm = .dataAck → s.ackBit = false → s.byteIdx.toNat + 1 = s.reqLen.toNat →
      s.advance = .next
        { t with byteIdx := BitVec.ofNat 16 (s.byteIdx.toNat + 1), pend := 0x00000000#32, fsm := .stop }) ∧
    (s.fsm = .stop → s.advance = .next (answered { t with fsm := .idle } s.pend))

/-- The sequencer's steps through START, an ACK slot or STOP are that primitive performed whole, then its transition: 4, 7 and 6
steps (R87, R91, R92, R97). The primitive as one step is the model's (log 21). -/
def Obligations.PrimitiveIsItsSteps : Prop :=
  ∀ s u : State, sequencerAlone s → s.sub = 0#3 →
    (s.fsm = .start → exec .start s = .next u → runSteps 4 s = u.transition) ∧
    (s.fsm = .addressAck ∨ s.fsm = .dataAck → exec .sampleAck s = .next u → runSteps 7 s = u.transition) ∧
    (s.fsm = .stop → exec .stop s = .next u → runSteps 6 s = u.transition)

/-- The sequencer's 48 steps through a unit are SEND_ADDRESS or SEND_BYTE performed whole, then the ACK slot (R89, R90, R97).
The unit as one step, and where it leaves `FSM`, are the model's (log 21). -/
def Obligations.UnitIsItsSteps : Prop :=
  ∀ s u : State, sequencerAlone s → s.sub = 0#3 →
    (s.fsm = .addressBits → s.bitCnt = 7#4 → s.shift = s.reqAddr ++ BitVec.ofBool s.reqDir →
      exec .sendAddress s = .next u → runSteps 48 s = .next { u with fsm := .addressAck }) ∧
    (s.fsm = .dataByteBits → s.bitCnt = 8#4 → s.payload[s.byteIdx.toNat]? = some s.shift →
      exec .sendByte s = .next u → runSteps 48 s = .next { u with fsm := .dataAck })

/-! ### Whole transfers (R98 to R101, R82, R83) -/

/-- An accepted TRANSFER_WRITE runs to its response in as many steps as `TraceOf` has events, appends exactly those events, and
answers exactly that word, for every sequence of levels the ACK slots sample (R98); it leaves the bus idle and everything it
does not concern unchanged. The record of presented responses (log 10) and the counter of draws (log 4) are the model's own. -/
def Obligations.TransferRunsAsTraceOf : Prop :=
  ∀ (s s1 : State) (a : Addr) (len : Len) (p : List Byte), readyAlone s → p.length = len.toNat →
    exec (.transferWrite a len p) s = .next s1 →
    let r := traceOf a p s.slaveAt
    ∃ t, runSteps r.events.length s1 = .next t ∧
      t.trace = s.trace ++ r.events ∧ t.resp = r.response ∧ t.busy = false ∧ t.fsm = .idle ∧
      t.linesIdle = true ∧ t.responses = s.responses ++ [{ word := r.response, status := t.status }] ∧
      t.draws = s.draws + r.units ∧
      t.bound = s.bound ∧ t.clkPin = s.clkPin ∧ t.datPin = s.datPin ∧ t.faultFlag = s.faultFlag ∧
      t.reserved = s.reserved ∧ t.usable = s.usable ∧ t.inputs = s.inputs ∧ t.curSettle = s.tSettle

/-- The counts of R99 for the closed form of a transfer of `g` units. -/
def Obligations.TransferEventCounts : Prop :=
  ∀ (a : Addr) (p : List Byte) (v : Nat → Level), p.length ≤ 65535 →
    let r := traceOf a p v
    let g := r.units
    ((r.response = 0x00000000#32 ∧ g = p.length + 1) ∨ (r.response = 0x00000001#32 ∧ g = 1) ∨
      ∃ k, k < p.length ∧ r.response = BitVec.ofNat 16 k ++ (0x000#12 ++ 0x2#4) ∧ g = k + 2) ∧
    r.events.length = 10 + 55 * g ∧ r.events.count .s = 5 + 27 * g ∧ r.events.countP PinEvent.isDd = 3 + 9 * g ∧
    r.events.countP PinEvent.isDc = 2 + 18 * g ∧ r.events.countP PinEvent.isRd = g ∧
    r.events.countP PinEvent.isRc = 0 ∧ r.events.count (.dc true) = 9 * g + 1

/-- When a NACK comes, the transfer ends there and says where: `v k` is the first sample that is 1 (R100, R105, R106). -/
def Obligations.FirstNackDecidesOutcome : Prop :=
  ∀ (a : Addr) (p : List Byte) (v : Nat → Level), p.length ≤ 65535 →
    (v 0 = true → (traceOf a p v).response = 0x00000001#32) ∧
    (∀ k, k < p.length → (∀ j, j ≤ k → v j = false) → v (k + 1) = true →
      (traceOf a p v).response = BitVec.ofNat 16 k ++ (0x000#12 ++ 0x2#4)) ∧
    ((∀ j, j ≤ p.length → v j = false) → (traceOf a p v).response = 0x00000000#32)

/-- Bytes after the one that is not acknowledged are neither read nor sent: the transfer does not depend on them (R41, R106). -/
def Obligations.BytesAfterNackUnread : Prop :=
  ∀ (a : Addr) (p q : List Byte) (v : Nat → Level) (k : Nat), k ≤ p.length → k ≤ q.length →
    p.take k = q.take k → (∃ j, j ≤ k ∧ v j = true) → traceOf a p v = traceOf a q v

/-- Every DRIVE_CLOCK and DRIVE_DATA of a transfer is followed at once by exactly one SETTLE, and READ_DATA by none (R82). -/
def Obligations.TransferDrivesSettle : Prop :=
  ∀ (a : Addr) (p : List Byte) (v : Nat → Level), settledDrives (traceOf a p v).events = true

/-- From the idle bus, the only `DD` events of a transfer while SCL is high are the `DD(0)` that begins it and the `DD(1)` that,
with its settle, ends it (R83). It counts the `DD` events only, which is less than R83's words on
the master's contribution: READ_DATA's switch to input while SCL is high is not part of it. -/
def Obligations.DataDrivenHighClockTwice : Prop :=
  ∀ (a : Addr) (p : List Byte) (v : Nat → Level),
    let es := (traceOf a p v).events
    drivesWhileClockHigh true es = [.dd false, .dd true] ∧ es.head? = some (.dd false) ∧
    ∃ body, es = body ++ [.dc true, .s, .dd true, .s]

/-- A transfer does not depend on the transfers before it: two ready states that will sample the same levels run it with the same
events and the same response (R101). The levels to come are the model's `slaveAt` (log 4). -/
def Obligations.TransfersAreStateless : Prop :=
  ∀ (s s' s1 s1' : State) (a : Addr) (len : Len) (p : List Byte), readyAlone s → readyAlone s' →
    (∀ k, s.slaveAt k = s'.slaveAt k) → p.length = len.toNat →
    exec (.transferWrite a len p) s = .next s1 → exec (.transferWrite a len p) s' = .next s1' →
    ∃ n t t' es, runSteps n s1 = .next t ∧ runSteps n s1' = .next t' ∧ t.busy = false ∧ t'.busy = false ∧
      t.trace = s.trace ++ es ∧ t'.trace = s'.trace ++ es ∧ t.resp = t'.resp

/-- Without an abandonment a transfer always answers: from any legal state inside one, the block is free again after at most
`10 + 55 (LEN + 1)` steps, with exactly one more response (R134, R99). The record of presented responses is the model's own
(log 10). -/
def Obligations.EveryTransferAnswers : Prop :=
  ∀ s : State, Inv s → sequencerAlone s →
    ∃ n t, n ≤ 10 + 55 * (s.reqLen.toNat + 1) ∧ runSteps n s = .next t ∧ t.busy = false ∧ t.faultFlag = false ∧
      t.fsm = .idle ∧ t.linesIdle = true ∧
      t.responses = s.responses ++ [{ word := t.resp, status := t.status }]

/-- The time of a transfer: `(5 + 27 g) D + (5 + 28 g) L` (R132; timing only). R132 says about; that the time is exact is the
model's choice (log 19). -/
def Obligations.TransferTimeFormula : Prop :=
  ∀ (a : Addr) (p : List Byte) (v : Nat → Level) (d l : Nat),
    let r := traceOf a p v
    traceTime d l r.events = (5 + 27 * r.units) * d + (5 + 28 * r.units) * l

/-! ### Rules of the whole machine -/

/-- The invariant holds right after reset, in every launch. -/
def Obligations.InvariantAtReset : Prop :=
  (∀ p : Launch, Inv (State.launch p)) ∧ Inv State.reset

/-- Every step keeps the invariant. -/
def Obligations.StepKeepsInvariant : Prop :=
  ∀ s t : State, Inv s → step s = .next t → Inv t

/-- From a state with the invariant no step ends in a fault (R86, R40: the positions the model stops at, log 13, are never
reached). -/
def Obligations.NoFaultUnderInvariant : Prop :=
  ∀ (s : State) (f : Fault), Inv s → step s ≠ .fault f

/-- In every run of every launch, whatever comes in: whenever `FSM = IDLE`, `BOUND = 1` and `FAULT = 0`, both lines are released
outputs and high (R81). SDA is read with the environment contributing 1, the model's reading of R19 outside an ACK slot
(log 23). -/
def Obligations.IdleBusReleased : Prop :=
  ∀ (p : Launch) (inputs : List Pending) (n : Nat) (t : State),
    runSteps n { State.launch p with inputs := inputs } = .next t →
    t.fsm = .idle → t.bound = true → t.faultFlag = false →
    t.sclO = true ∧ t.sclDir = .output ∧ t.sdaO = true ∧ t.sdaDir = .output ∧ t.sclLine = true ∧ t.sdaLine true = true

/-- `BOUND = 1` exactly while a pair is held: both pins stay reserved in every run, whatever comes in (R16). -/
def Obligations.HeldPairStaysReserved : Prop :=
  ∀ (p : Launch) (inputs : List Pending) (n : Nat) (t : State),
    runSteps n { State.launch p with inputs := inputs } = .next t → t.bound = true →
    t.clkPin ∈ t.reserved ∧ t.datPin ∈ t.reserved ∧ t.clkPin ≠ t.datPin

/-- No command clears `FAULT`; only reset does (R28). -/
def Obligations.OnlyResetClearsFault : Prop :=
  ∀ s t : State, step s = .next t → s.faultFlag = true → t.faultFlag = false → resetIsNext s

/-- `TRACE` only grows, except at a reset (R32, R50, R121); and a sequencer step appends exactly one event (R21). -/
def Obligations.TraceOnlyGrows : Prop :=
  (∀ s t : State, step s = .next t → (∃ es, t.trace = s.trace ++ es) ∨ resetIsNext s) ∧
  ∀ s t : State, s.sequencerStep = .next t → ∃ e, t.trace = s.trace ++ [e]

/-- With no micro-operation put on the internal port from outside, `ACK_BIT` changes only at the sample of an ACK slot, and at a
reset (R26). -/
def Obligations.AckBitWrittenOnlyInAckSlot : Prop :=
  ∀ s t : State, s.uport = [] → step s = .next t → t.ackBit ≠ s.ackBit →
    ((s.fsm = .addressAck ∨ s.fsm = .dataAck) ∧ s.sub = 4#3 ∧ s.sequencerEnabled = true) ∨ resetIsNext s

/-- With no micro-operation put on the internal port from outside, `BOUND` changes only by an accepted BUS_INIT or BUS_DEINIT, and
at a reset (R16). -/
def Obligations.BoundChangesByCommandOnly : Prop :=
  ∀ s t : State, s.uport = [] → step s = .next t → t.bound ≠ s.bound →
    (∃ n w payload rest i, s.inputs = { after := n, action := .command w payload } :: rest ∧
      decode (.host w payload) = .instr i ∧ s.busy = false ∧
      ((s.bound = false ∧ ∃ c d, i = .busInit c d) ∨ (s.bound = true ∧ i = .busDeinit))) ∨
    resetIsNext s

/-- The settle duration is captured at a transfer's acceptance: a change of `T_SETTLE` during a transfer leaves `CUR_SETTLE`
(R126). -/
def Obligations.SettleDurationCaptured : Prop :=
  (∀ (s : State) (n d : Nat) (rest : List Pending),
    s.uport = [] → s.inputs = { after := n, action := .setSettle d } :: rest → n = 0 ∨ s.sequencerEnabled = false →
    step s = .next { s with tSettle := d, inputs := rest }) ∧
  ∀ s t : State, s.sequencerStep = .next t → t.curSettle = s.curSettle ∧ t.tSettle = s.tSettle

/-- Other platform users change `RESERVED` only while `BUSY = 0` (R33): then their reservation adds a free pin, and their return
removes a pin the block does not hold. The model's choices (log 15): while the block is busy their action waits; a return removes its
pin whoever reserved it, also one that a reset left reserved (I-9); the return of a held pin is refused. -/
def Obligations.OtherUsersWaitWhileBusy : Prop :=
  ∀ (s : State) (p : PinId) (rest : List Pending), s.uport = [] →
    (s.inputs = { after := 0, action := .reserve p } :: rest →
      (s.sequencerEnabled = true → step s = s.sequencerStep) ∧
      (s.busy = false → ∃ reserved, (∀ q, q ∈ reserved ↔ q ∈ s.reserved ∨ q = p) ∧
        step s = .next { s with inputs := rest, reserved := reserved })) ∧
    (s.inputs = { after := 0, action := .unreserve p } :: rest →
      (s.sequencerEnabled = true → step s = s.sequencerStep) ∧
      (s.busy = false → ¬(s.bound = true ∧ (p = s.clkPin ∨ p = s.datPin)) →
        ∃ reserved, (∀ q, q ∈ reserved ↔ q ∈ s.reserved ∧ q ≠ p) ∧
          step s = .next { s with inputs := rest, reserved := reserved }) ∧
      (s.busy = false → s.bound = true → p = s.clkPin ∨ p = s.datPin →
        step s = .refused .environmentOutsideConditions))
end

