-- ==== Sys2Proof/Laws/Decode.lean ====
section
/-! SUPPORT. The fields of the encoded format H words (R57, R58), bit `i` of a field, and the micro-operation map word by word
(R65). -/

namespace Sys2Proof

theorem getLsbD_fieldAt (n lo i : Nat) {w : Nat} (v : BitVec w) :
    (fieldAt n lo v).getLsbD i = (decide (i < n) && !decide (i < lo) && v.getLsbD (i - lo)) := by
  simp only [fieldAt, BitVec.getLsbD_shiftLeft, BitVec.getLsbD_setWidth]
  by_cases h1 : i < n
  · have h2 : i - lo < n := by omega
    simp [h1, h2]
  · simp [h1]

/-! ### Fields and patterns, bit by bit -/

theorem extractLsb'_eq_iff (w : Word) (lo n : Nat) (v : BitVec n) :
    w.extractLsb' lo n = v ↔ ∀ i, i < n → w.getLsbD (lo + i) = v.getLsbD i := by
  constructor
  · intro h i hi
    rw [← h]; simp [hi]
  · intro h
    apply BitVec.eq_of_getLsbD_eq
    intro i hi
    simpa [hi] using h i hi

/-- A word fits a pattern exactly when it has the pattern's bits where the mask is set (R60). -/
theorem Pattern.fits_iff_bits {n : Nat} (r : Pattern n) (hr : r.pattern &&& r.mask = r.pattern) (w : BitVec n) :
    r.fits w = true ↔ ∀ i, i < n → r.mask.getLsbD i = true → w.getLsbD i = r.pattern.getLsbD i := by
  simp only [Pattern.fits, beq_iff_eq]
  constructor
  · intro h i _ hm
    rw [← h, BitVec.getLsbD_and, hm, Bool.and_true]
  · intro h
    apply BitVec.eq_of_getLsbD_eq
    intro i hi
    rw [BitVec.getLsbD_and]
    cases hm : r.mask.getLsbD i
    · rw [← hr, BitVec.getLsbD_and, hm, Bool.and_false, Bool.and_false]
    · rw [h i hi hm, Bool.and_true]

theorem fits_busInitPattern (w : Word) :
    (⟨0x000000FF#32, 0x00000001#32⟩ : Pattern 32).fits w = true ↔ hostZero w = 0#4 ∧ hostOp w = 0x1#4 := by
  rw [Pattern.fits_iff_bits _ (by decide), hostZero, hostOp, extractLsb'_eq_iff, extractLsb'_eq_iff]
  constructor
  · intro h
    constructor <;> intro i hi <;> (rw [h _ (by omega) (by interval_cases i <;> decide)]; interval_cases i <;> decide)
  · rintro ⟨hz, ho⟩ i hi hm
    have h8 : i < 8 := by
      by_contra hge
      interval_cases i <;> first | omega | exact absurd hm (by decide)
    rcases lt_or_ge i 4 with h4 | h4
    · have := ho i h4
      rw [Nat.zero_add] at this
      rw [this]; interval_cases i <;> decide
    · obtain ⟨j, rfl⟩ := Nat.exists_eq_add_of_le h4
      rw [hz j (by omega)]
      have : j < 4 := by omega
      interval_cases j <;> decide

theorem fits_busDeinitPattern (w : Word) :
    (⟨0xFFFFFFFF#32, 0x00000002#32⟩ : Pattern 32).fits w = true ↔ w = 0x00000002#32 := by
  rw [Pattern.fits_iff_bits _ (by decide)]
  constructor
  · intro h
    apply BitVec.eq_of_getLsbD_eq
    intro i hi
    exact h i hi (by interval_cases i <;> decide)
  · rintro rfl i _ _
    rfl

theorem fits_transferWritePattern (w : Word) :
    (⟨0x000001FF#32, 0x00000003#32⟩ : Pattern 32).fits w = true ↔
      hostZero w = 0#4 ∧ hostOp w = 0x3#4 ∧ hostDir w = false := by
  rw [Pattern.fits_iff_bits _ (by decide), hostZero, hostOp, hostDir, extractLsb'_eq_iff, extractLsb'_eq_iff]
  constructor
  · intro h
    refine ⟨?_, ?_, by rw [h 8 (by omega) (by decide)]; decide⟩ <;> intro i hi <;>
      (rw [h _ (by omega) (by interval_cases i <;> decide)]; interval_cases i <;> decide)
  · rintro ⟨hz, ho, hd⟩ i hi hm
    have h9 : i < 9 := by
      by_contra hge
      interval_cases i <;> first | omega | exact absurd hm (by decide)
    rcases lt_or_ge i 4 with h4 | h4
    · have := ho i h4
      rw [Nat.zero_add] at this
      rw [this]; interval_cases i <;> decide
    · rcases Nat.lt_or_ge i 8 with h8 | h8
      · obtain ⟨j, rfl⟩ := Nat.exists_eq_add_of_le h4
        rw [hz j (by omega)]
        have : j < 4 := by omega
        interval_cases j <;> decide
      · have : i = 8 := by omega
        subst this
        rw [hd]; decide

/-- The one BUS_DEINIT word, by its fields (R60). -/
theorem busDeinitWord_iff (w : Word) :
    w = 0x00000002#32 ↔ hostZero w = 0#4 ∧ hostOp w = 0x2#4 ∧ hostHigh w = 0#24 := by
  constructor
  · rintro rfl
    decide
  · rintro ⟨hz, ho, hh⟩
    rw [hostZero, extractLsb'_eq_iff] at hz
    rw [hostOp, extractLsb'_eq_iff] at ho
    rw [hostHigh, extractLsb'_eq_iff] at hh
    apply BitVec.eq_of_getLsbD_eq
    intro i hi
    rcases lt_or_ge i 4 with h4 | h4
    · have := ho i h4
      rw [Nat.zero_add] at this
      rw [this]; interval_cases i <;> decide
    · rcases Nat.lt_or_ge i 8 with h8 | h8
      · obtain ⟨j, rfl⟩ := Nat.exists_eq_add_of_le h4
        rw [hz j (by omega)]
        have : j < 4 := by omega
        interval_cases j <;> decide
      · obtain ⟨j, rfl⟩ := Nat.exists_eq_add_of_le h8
        rw [hh j (by omega)]
        have : j < 24 := by omega
        interval_cases j <;> decide

/-! ### The BUS_INIT word -/

section BusInit
variable (clk dat : PinId)

/-- The format H word of BUS_INIT (R57). -/
abbrev busInitWord : Word := fieldAt 32 20 dat ||| fieldAt 32 8 clk ||| fieldAt 32 0 0x1#4

theorem hostZero_busInitWord : hostZero (busInitWord clk dat) = 0#4 := by
  unfold hostZero busInitWord fieldAt; ext i hi; simp; interval_cases i <;> simp

theorem hostOp_busInitWord : hostOp (busInitWord clk dat) = 0x1#4 := by
  unfold hostOp busInitWord fieldAt; ext i hi; simp; interval_cases i <;> simp

theorem hostClk_busInitWord : hostClk (busInitWord clk dat) = clk := by
  unfold hostClk busInitWord fieldAt; ext i hi; simp; interval_cases i <;> simp

theorem hostDat_busInitWord : hostDat (busInitWord clk dat) = dat := by
  unfold hostDat busInitWord fieldAt; ext i hi; simp; interval_cases i <;> simp

end BusInit

/-! ### The TRANSFER_WRITE word -/

section TransferWrite
variable (addr : Addr) (len : Len)

/-- The format H word of TRANSFER_WRITE (R57). -/
abbrev transferWriteWord : Word := fieldAt 32 16 len ||| fieldAt 32 9 addr ||| fieldAt 32 0 0x3#4

theorem hostZero_transferWriteWord : hostZero (transferWriteWord addr len) = 0#4 := by
  unfold hostZero transferWriteWord fieldAt; ext i hi; simp; interval_cases i <;> simp

theorem hostOp_transferWriteWord : hostOp (transferWriteWord addr len) = 0x3#4 := by
  unfold hostOp transferWriteWord fieldAt; ext i hi; simp; interval_cases i <;> simp

theorem hostDir_transferWriteWord : hostDir (transferWriteWord addr len) = false := by
  unfold hostDir transferWriteWord fieldAt; simp

theorem hostAddr_transferWriteWord : hostAddr (transferWriteWord addr len) = addr := by
  unfold hostAddr transferWriteWord fieldAt; ext i hi; simp; interval_cases i <;> simp

theorem hostLen_transferWriteWord : hostLen (transferWriteWord addr len) = len := by
  unfold hostLen transferWriteWord fieldAt; ext i hi; simp; interval_cases i <;> simp

end TransferWrite

end Sys2Proof
end

