-- ==== Sys2Proof/Laws/PinSet.lean ====
section
/-! SUPPORT. The sets of pin identifiers: membership after each operation, the canonical form kept, and the roll-back of an
insertion. -/

namespace Sys2Proof.Machine

theorem PinSet.mem_insert (p q : PinId) (ps : List PinId) : q ∈ PinSet.insert p ps ↔ q ∈ ps ∨ q = p := by
  induction ps with
  | nil => simp [PinSet.insert]
  | cons r rs ih =>
    unfold PinSet.insert
    split
    · simp [or_comm]
    · split
      · rename_i h; subst h; simp; tauto
      · simp [ih, or_assoc]

theorem PinSet.mem_erase (p q : PinId) (ps : List PinId) : q ∈ PinSet.erase p ps ↔ q ∈ ps ∧ q ≠ p := by
  simp [PinSet.erase]

theorem PinSet.wf_erase (p : PinId) (ps : List PinId) (h : PinSet.wf ps) : PinSet.wf (PinSet.erase p ps) :=
  h.sublist List.filter_sublist

theorem PinSet.wf_insert (p : PinId) (ps : List PinId) (h : PinSet.wf ps) : PinSet.wf (PinSet.insert p ps) := by
  induction ps with
  | nil => simp [PinSet.insert, PinSet.wf]
  | cons r rs ih =>
    obtain ⟨hr, hrs⟩ := List.pairwise_cons.mp h
    unfold PinSet.insert
    split
    · rename_i hp
      refine List.pairwise_cons.mpr ⟨fun q hq => ?_, h⟩
      rcases List.mem_cons.mp hq with rfl | hq
      · exact hp
      · exact lt_trans hp (hr q hq)
    · split
      · exact h
      · rename_i hp hne
        refine List.pairwise_cons.mpr ⟨fun q hq => ?_, ih hrs⟩
        rcases (PinSet.mem_insert p q rs).mp hq with hq | rfl
        · exact hr q hq
        · exact lt_of_le_of_ne (not_lt.mp hp) fun e => hne (BitVec.eq_of_toNat_eq e.symm)

theorem PinSet.wf_ofList (ps : List PinId) : PinSet.wf (PinSet.ofList ps) := by
  induction ps with
  | nil => simp [PinSet.ofList, PinSet.wf]
  | cons p ps ih => exact PinSet.wf_insert p _ ih

theorem PinSet.mem_ofList (q : PinId) (ps : List PinId) : q ∈ PinSet.ofList ps ↔ q ∈ ps := by
  induction ps with
  | nil => simp [PinSet.ofList]
  | cons p ps ih =>
    change q ∈ PinSet.insert p (PinSet.ofList ps) ↔ _
    rw [PinSet.mem_insert, ih, List.mem_cons, or_comm]

/-- The roll-back inside ACQUIRE: taking back what was just inserted gives the set it was inserted in (R73). -/
theorem PinSet.erase_insert (p : PinId) (ps : List PinId) (h : p ∉ ps) : PinSet.erase p (PinSet.insert p ps) = ps := by
  have hf : ∀ qs : List PinId, p ∉ qs → PinSet.erase p qs = qs := fun qs hq =>
    List.filter_eq_self.mpr fun a ha => by
      simpa using fun e : a = p => hq (e ▸ ha)
  induction ps with
  | nil => simp [PinSet.insert, PinSet.erase]
  | cons r rs ih =>
    obtain ⟨hr, hrs⟩ := not_or.mp (mt List.mem_cons.mpr h)
    simp only [PinSet.insert, hr, if_false]
    split
    · have : PinSet.erase p (p :: r :: rs) = PinSet.erase p (r :: rs) := by simp [PinSet.erase]
      rw [this, hf _ h]
    · have : PinSet.erase p (r :: PinSet.insert p rs) = r :: PinSet.erase p (PinSet.insert p rs) := by
        simp [PinSet.erase, Ne.symm hr]
      rw [this, ih hrs]

end Sys2Proof.Machine
end

