-- ==== Sys2Proof/Laws/State.lean ====
section
/-! SUPPORT. One lemma per field per shared update of State: what the update leaves in that field. Each is true by rfl; later
proofs cite them instead of unfolding a record update. -/

namespace Sys2Proof.Machine

variable (s : State)

/-! ### `State.emit` -/

@[simp] theorem State.emit_bound (e : PinEvent) : (s.emit e).bound = s.bound := rfl
@[simp] theorem State.emit_clkPin (e : PinEvent) : (s.emit e).clkPin = s.clkPin := rfl
@[simp] theorem State.emit_datPin (e : PinEvent) : (s.emit e).datPin = s.datPin := rfl
@[simp] theorem State.emit_sclO (e : PinEvent) : (s.emit e).sclO = s.sclO := rfl
@[simp] theorem State.emit_sdaO (e : PinEvent) : (s.emit e).sdaO = s.sdaO := rfl
@[simp] theorem State.emit_sclDir (e : PinEvent) : (s.emit e).sclDir = s.sclDir := rfl
@[simp] theorem State.emit_sdaDir (e : PinEvent) : (s.emit e).sdaDir = s.sdaDir := rfl
@[simp] theorem State.emit_fsm (e : PinEvent) : (s.emit e).fsm = s.fsm := rfl
@[simp] theorem State.emit_sub (e : PinEvent) : (s.emit e).sub = s.sub := rfl
@[simp] theorem State.emit_bitCnt (e : PinEvent) : (s.emit e).bitCnt = s.bitCnt := rfl
@[simp] theorem State.emit_shift (e : PinEvent) : (s.emit e).shift = s.shift := rfl
@[simp] theorem State.emit_byteIdx (e : PinEvent) : (s.emit e).byteIdx = s.byteIdx := rfl
@[simp] theorem State.emit_reqAddr (e : PinEvent) : (s.emit e).reqAddr = s.reqAddr := rfl
@[simp] theorem State.emit_reqDir (e : PinEvent) : (s.emit e).reqDir = s.reqDir := rfl
@[simp] theorem State.emit_reqLen (e : PinEvent) : (s.emit e).reqLen = s.reqLen := rfl
@[simp] theorem State.emit_curSettle (e : PinEvent) : (s.emit e).curSettle = s.curSettle := rfl
@[simp] theorem State.emit_ackBit (e : PinEvent) : (s.emit e).ackBit = s.ackBit := rfl
@[simp] theorem State.emit_busy (e : PinEvent) : (s.emit e).busy = s.busy := rfl
@[simp] theorem State.emit_faultFlag (e : PinEvent) : (s.emit e).faultFlag = s.faultFlag := rfl
@[simp] theorem State.emit_resp (e : PinEvent) : (s.emit e).resp = s.resp := rfl
@[simp] theorem State.emit_pend (e : PinEvent) : (s.emit e).pend = s.pend := rfl
@[simp] theorem State.emit_trace (e : PinEvent) : (s.emit e).trace = s.trace ++ [e] := rfl
@[simp] theorem State.emit_payload (e : PinEvent) : (s.emit e).payload = s.payload := rfl
@[simp] theorem State.emit_usable (e : PinEvent) : (s.emit e).usable = s.usable := rfl
@[simp] theorem State.emit_reserved (e : PinEvent) : (s.emit e).reserved = s.reserved := rfl
@[simp] theorem State.emit_tSettle (e : PinEvent) : (s.emit e).tSettle = s.tSettle := rfl
@[simp] theorem State.emit_slave (e : PinEvent) : (s.emit e).slave = s.slave := rfl
@[simp] theorem State.emit_draws (e : PinEvent) : (s.emit e).draws = s.draws := rfl
@[simp] theorem State.emit_inputs (e : PinEvent) : (s.emit e).inputs = s.inputs := rfl
@[simp] theorem State.emit_uport (e : PinEvent) : (s.emit e).uport = s.uport := rfl
@[simp] theorem State.emit_opClk (e : PinEvent) : (s.emit e).opClk = s.opClk := rfl
@[simp] theorem State.emit_opDat (e : PinEvent) : (s.emit e).opDat = s.opDat := rfl
@[simp] theorem State.emit_result (e : PinEvent) : (s.emit e).result = s.result := rfl
@[simp] theorem State.emit_responses (e : PinEvent) : (s.emit e).responses = s.responses := rfl

/-! ### `State.driveClock` -/

@[simp] theorem State.driveClock_bound (l : Level) : (s.driveClock l).bound = s.bound := rfl
@[simp] theorem State.driveClock_clkPin (l : Level) : (s.driveClock l).clkPin = s.clkPin := rfl
@[simp] theorem State.driveClock_datPin (l : Level) : (s.driveClock l).datPin = s.datPin := rfl
@[simp] theorem State.driveClock_sclO (l : Level) : (s.driveClock l).sclO = l := rfl
@[simp] theorem State.driveClock_sdaO (l : Level) : (s.driveClock l).sdaO = s.sdaO := rfl
@[simp] theorem State.driveClock_sclDir (l : Level) : (s.driveClock l).sclDir = .output := rfl
@[simp] theorem State.driveClock_sdaDir (l : Level) : (s.driveClock l).sdaDir = s.sdaDir := rfl
@[simp] theorem State.driveClock_fsm (l : Level) : (s.driveClock l).fsm = s.fsm := rfl
@[simp] theorem State.driveClock_sub (l : Level) : (s.driveClock l).sub = s.sub := rfl
@[simp] theorem State.driveClock_bitCnt (l : Level) : (s.driveClock l).bitCnt = s.bitCnt := rfl
@[simp] theorem State.driveClock_shift (l : Level) : (s.driveClock l).shift = s.shift := rfl
@[simp] theorem State.driveClock_byteIdx (l : Level) : (s.driveClock l).byteIdx = s.byteIdx := rfl
@[simp] theorem State.driveClock_reqAddr (l : Level) : (s.driveClock l).reqAddr = s.reqAddr := rfl
@[simp] theorem State.driveClock_reqDir (l : Level) : (s.driveClock l).reqDir = s.reqDir := rfl
@[simp] theorem State.driveClock_reqLen (l : Level) : (s.driveClock l).reqLen = s.reqLen := rfl
@[simp] theorem State.driveClock_curSettle (l : Level) : (s.driveClock l).curSettle = s.curSettle := rfl
@[simp] theorem State.driveClock_ackBit (l : Level) : (s.driveClock l).ackBit = s.ackBit := rfl
@[simp] theorem State.driveClock_busy (l : Level) : (s.driveClock l).busy = s.busy := rfl
@[simp] theorem State.driveClock_faultFlag (l : Level) : (s.driveClock l).faultFlag = s.faultFlag := rfl
@[simp] theorem State.driveClock_resp (l : Level) : (s.driveClock l).resp = s.resp := rfl
@[simp] theorem State.driveClock_pend (l : Level) : (s.driveClock l).pend = s.pend := rfl
@[simp] theorem State.driveClock_trace (l : Level) : (s.driveClock l).trace = s.trace ++ [.dc l] := rfl
@[simp] theorem State.driveClock_payload (l : Level) : (s.driveClock l).payload = s.payload := rfl
@[simp] theorem State.driveClock_usable (l : Level) : (s.driveClock l).usable = s.usable := rfl
@[simp] theorem State.driveClock_reserved (l : Level) : (s.driveClock l).reserved = s.reserved := rfl
@[simp] theorem State.driveClock_tSettle (l : Level) : (s.driveClock l).tSettle = s.tSettle := rfl
@[simp] theorem State.driveClock_slave (l : Level) : (s.driveClock l).slave = s.slave := rfl
@[simp] theorem State.driveClock_draws (l : Level) : (s.driveClock l).draws = s.draws := rfl
@[simp] theorem State.driveClock_inputs (l : Level) : (s.driveClock l).inputs = s.inputs := rfl
@[simp] theorem State.driveClock_uport (l : Level) : (s.driveClock l).uport = s.uport := rfl
@[simp] theorem State.driveClock_opClk (l : Level) : (s.driveClock l).opClk = s.opClk := rfl
@[simp] theorem State.driveClock_opDat (l : Level) : (s.driveClock l).opDat = s.opDat := rfl
@[simp] theorem State.driveClock_result (l : Level) : (s.driveClock l).result = s.result := rfl
@[simp] theorem State.driveClock_responses (l : Level) : (s.driveClock l).responses = s.responses := rfl

/-! ### `State.driveData` -/

@[simp] theorem State.driveData_bound (l : Level) : (s.driveData l).bound = s.bound := rfl
@[simp] theorem State.driveData_clkPin (l : Level) : (s.driveData l).clkPin = s.clkPin := rfl
@[simp] theorem State.driveData_datPin (l : Level) : (s.driveData l).datPin = s.datPin := rfl
@[simp] theorem State.driveData_sclO (l : Level) : (s.driveData l).sclO = s.sclO := rfl
@[simp] theorem State.driveData_sdaO (l : Level) : (s.driveData l).sdaO = l := rfl
@[simp] theorem State.driveData_sclDir (l : Level) : (s.driveData l).sclDir = s.sclDir := rfl
@[simp] theorem State.driveData_sdaDir (l : Level) : (s.driveData l).sdaDir = .output := rfl
@[simp] theorem State.driveData_fsm (l : Level) : (s.driveData l).fsm = s.fsm := rfl
@[simp] theorem State.driveData_sub (l : Level) : (s.driveData l).sub = s.sub := rfl
@[simp] theorem State.driveData_bitCnt (l : Level) : (s.driveData l).bitCnt = s.bitCnt := rfl
@[simp] theorem State.driveData_shift (l : Level) : (s.driveData l).shift = s.shift := rfl
@[simp] theorem State.driveData_byteIdx (l : Level) : (s.driveData l).byteIdx = s.byteIdx := rfl
@[simp] theorem State.driveData_reqAddr (l : Level) : (s.driveData l).reqAddr = s.reqAddr := rfl
@[simp] theorem State.driveData_reqDir (l : Level) : (s.driveData l).reqDir = s.reqDir := rfl
@[simp] theorem State.driveData_reqLen (l : Level) : (s.driveData l).reqLen = s.reqLen := rfl
@[simp] theorem State.driveData_curSettle (l : Level) : (s.driveData l).curSettle = s.curSettle := rfl
@[simp] theorem State.driveData_ackBit (l : Level) : (s.driveData l).ackBit = s.ackBit := rfl
@[simp] theorem State.driveData_busy (l : Level) : (s.driveData l).busy = s.busy := rfl
@[simp] theorem State.driveData_faultFlag (l : Level) : (s.driveData l).faultFlag = s.faultFlag := rfl
@[simp] theorem State.driveData_resp (l : Level) : (s.driveData l).resp = s.resp := rfl
@[simp] theorem State.driveData_pend (l : Level) : (s.driveData l).pend = s.pend := rfl
@[simp] theorem State.driveData_trace (l : Level) : (s.driveData l).trace = s.trace ++ [.dd l] := rfl
@[simp] theorem State.driveData_payload (l : Level) : (s.driveData l).payload = s.payload := rfl
@[simp] theorem State.driveData_usable (l : Level) : (s.driveData l).usable = s.usable := rfl
@[simp] theorem State.driveData_reserved (l : Level) : (s.driveData l).reserved = s.reserved := rfl
@[simp] theorem State.driveData_tSettle (l : Level) : (s.driveData l).tSettle = s.tSettle := rfl
@[simp] theorem State.driveData_slave (l : Level) : (s.driveData l).slave = s.slave := rfl
@[simp] theorem State.driveData_draws (l : Level) : (s.driveData l).draws = s.draws := rfl
@[simp] theorem State.driveData_inputs (l : Level) : (s.driveData l).inputs = s.inputs := rfl
@[simp] theorem State.driveData_uport (l : Level) : (s.driveData l).uport = s.uport := rfl
@[simp] theorem State.driveData_opClk (l : Level) : (s.driveData l).opClk = s.opClk := rfl
@[simp] theorem State.driveData_opDat (l : Level) : (s.driveData l).opDat = s.opDat := rfl
@[simp] theorem State.driveData_result (l : Level) : (s.driveData l).result = s.result := rfl
@[simp] theorem State.driveData_responses (l : Level) : (s.driveData l).responses = s.responses := rfl

/-! ### `State.settle` -/

@[simp] theorem State.settle_bound : (s.settle).bound = s.bound := rfl
@[simp] theorem State.settle_clkPin : (s.settle).clkPin = s.clkPin := rfl
@[simp] theorem State.settle_datPin : (s.settle).datPin = s.datPin := rfl
@[simp] theorem State.settle_sclO : (s.settle).sclO = s.sclO := rfl
@[simp] theorem State.settle_sdaO : (s.settle).sdaO = s.sdaO := rfl
@[simp] theorem State.settle_sclDir : (s.settle).sclDir = s.sclDir := rfl
@[simp] theorem State.settle_sdaDir : (s.settle).sdaDir = s.sdaDir := rfl
@[simp] theorem State.settle_fsm : (s.settle).fsm = s.fsm := rfl
@[simp] theorem State.settle_sub : (s.settle).sub = s.sub := rfl
@[simp] theorem State.settle_bitCnt : (s.settle).bitCnt = s.bitCnt := rfl
@[simp] theorem State.settle_shift : (s.settle).shift = s.shift := rfl
@[simp] theorem State.settle_byteIdx : (s.settle).byteIdx = s.byteIdx := rfl
@[simp] theorem State.settle_reqAddr : (s.settle).reqAddr = s.reqAddr := rfl
@[simp] theorem State.settle_reqDir : (s.settle).reqDir = s.reqDir := rfl
@[simp] theorem State.settle_reqLen : (s.settle).reqLen = s.reqLen := rfl
@[simp] theorem State.settle_curSettle : (s.settle).curSettle = s.curSettle := rfl
@[simp] theorem State.settle_ackBit : (s.settle).ackBit = s.ackBit := rfl
@[simp] theorem State.settle_busy : (s.settle).busy = s.busy := rfl
@[simp] theorem State.settle_faultFlag : (s.settle).faultFlag = s.faultFlag := rfl
@[simp] theorem State.settle_resp : (s.settle).resp = s.resp := rfl
@[simp] theorem State.settle_pend : (s.settle).pend = s.pend := rfl
@[simp] theorem State.settle_trace : (s.settle).trace = s.trace ++ [.s] := rfl
@[simp] theorem State.settle_payload : (s.settle).payload = s.payload := rfl
@[simp] theorem State.settle_usable : (s.settle).usable = s.usable := rfl
@[simp] theorem State.settle_reserved : (s.settle).reserved = s.reserved := rfl
@[simp] theorem State.settle_tSettle : (s.settle).tSettle = s.tSettle := rfl
@[simp] theorem State.settle_slave : (s.settle).slave = s.slave := rfl
@[simp] theorem State.settle_draws : (s.settle).draws = s.draws := rfl
@[simp] theorem State.settle_inputs : (s.settle).inputs = s.inputs := rfl
@[simp] theorem State.settle_uport : (s.settle).uport = s.uport := rfl
@[simp] theorem State.settle_opClk : (s.settle).opClk = s.opClk := rfl
@[simp] theorem State.settle_opDat : (s.settle).opDat = s.opDat := rfl
@[simp] theorem State.settle_result : (s.settle).result = s.result := rfl
@[simp] theorem State.settle_responses : (s.settle).responses = s.responses := rfl

/-! ### `State.sampleSda` -/

@[simp] theorem State.sampleSda_bound (v : Level) : (s.sampleSda v).bound = s.bound := rfl
@[simp] theorem State.sampleSda_clkPin (v : Level) : (s.sampleSda v).clkPin = s.clkPin := rfl
@[simp] theorem State.sampleSda_datPin (v : Level) : (s.sampleSda v).datPin = s.datPin := rfl
@[simp] theorem State.sampleSda_sclO (v : Level) : (s.sampleSda v).sclO = s.sclO := rfl
@[simp] theorem State.sampleSda_sdaO (v : Level) : (s.sampleSda v).sdaO = s.sdaO := rfl
@[simp] theorem State.sampleSda_sclDir (v : Level) : (s.sampleSda v).sclDir = s.sclDir := rfl
@[simp] theorem State.sampleSda_sdaDir (v : Level) : (s.sampleSda v).sdaDir = .input := rfl
@[simp] theorem State.sampleSda_fsm (v : Level) : (s.sampleSda v).fsm = s.fsm := rfl
@[simp] theorem State.sampleSda_sub (v : Level) : (s.sampleSda v).sub = s.sub := rfl
@[simp] theorem State.sampleSda_bitCnt (v : Level) : (s.sampleSda v).bitCnt = s.bitCnt := rfl
@[simp] theorem State.sampleSda_shift (v : Level) : (s.sampleSda v).shift = s.shift := rfl
@[simp] theorem State.sampleSda_byteIdx (v : Level) : (s.sampleSda v).byteIdx = s.byteIdx := rfl
@[simp] theorem State.sampleSda_reqAddr (v : Level) : (s.sampleSda v).reqAddr = s.reqAddr := rfl
@[simp] theorem State.sampleSda_reqDir (v : Level) : (s.sampleSda v).reqDir = s.reqDir := rfl
@[simp] theorem State.sampleSda_reqLen (v : Level) : (s.sampleSda v).reqLen = s.reqLen := rfl
@[simp] theorem State.sampleSda_curSettle (v : Level) : (s.sampleSda v).curSettle = s.curSettle := rfl
@[simp] theorem State.sampleSda_ackBit (v : Level) : (s.sampleSda v).ackBit = s.ackBit := rfl
@[simp] theorem State.sampleSda_busy (v : Level) : (s.sampleSda v).busy = s.busy := rfl
@[simp] theorem State.sampleSda_faultFlag (v : Level) : (s.sampleSda v).faultFlag = s.faultFlag := rfl
@[simp] theorem State.sampleSda_resp (v : Level) : (s.sampleSda v).resp = s.resp := rfl
@[simp] theorem State.sampleSda_pend (v : Level) : (s.sampleSda v).pend = s.pend := rfl
@[simp] theorem State.sampleSda_trace (v : Level) : (s.sampleSda v).trace = s.trace ++ [.rd v] := rfl
@[simp] theorem State.sampleSda_payload (v : Level) : (s.sampleSda v).payload = s.payload := rfl
@[simp] theorem State.sampleSda_usable (v : Level) : (s.sampleSda v).usable = s.usable := rfl
@[simp] theorem State.sampleSda_reserved (v : Level) : (s.sampleSda v).reserved = s.reserved := rfl
@[simp] theorem State.sampleSda_tSettle (v : Level) : (s.sampleSda v).tSettle = s.tSettle := rfl
@[simp] theorem State.sampleSda_slave (v : Level) : (s.sampleSda v).slave = s.slave := rfl
@[simp] theorem State.sampleSda_draws (v : Level) : (s.sampleSda v).draws = s.draws := rfl
@[simp] theorem State.sampleSda_inputs (v : Level) : (s.sampleSda v).inputs = s.inputs := rfl
@[simp] theorem State.sampleSda_uport (v : Level) : (s.sampleSda v).uport = s.uport := rfl
@[simp] theorem State.sampleSda_opClk (v : Level) : (s.sampleSda v).opClk = s.opClk := rfl
@[simp] theorem State.sampleSda_opDat (v : Level) : (s.sampleSda v).opDat = s.opDat := rfl
@[simp] theorem State.sampleSda_result (v : Level) : (s.sampleSda v).result = .level v := rfl
@[simp] theorem State.sampleSda_responses (v : Level) : (s.sampleSda v).responses = s.responses := rfl

/-! ### `State.drawSda` -/

@[simp] theorem State.drawSda_bound : (s.drawSda).bound = s.bound := rfl
@[simp] theorem State.drawSda_clkPin : (s.drawSda).clkPin = s.clkPin := rfl
@[simp] theorem State.drawSda_datPin : (s.drawSda).datPin = s.datPin := rfl
@[simp] theorem State.drawSda_sclO : (s.drawSda).sclO = s.sclO := rfl
@[simp] theorem State.drawSda_sdaO : (s.drawSda).sdaO = s.sdaO := rfl
@[simp] theorem State.drawSda_sclDir : (s.drawSda).sclDir = s.sclDir := rfl
@[simp] theorem State.drawSda_sdaDir : (s.drawSda).sdaDir = .input := rfl
@[simp] theorem State.drawSda_fsm : (s.drawSda).fsm = s.fsm := rfl
@[simp] theorem State.drawSda_sub : (s.drawSda).sub = s.sub := rfl
@[simp] theorem State.drawSda_bitCnt : (s.drawSda).bitCnt = s.bitCnt := rfl
@[simp] theorem State.drawSda_shift : (s.drawSda).shift = s.shift := rfl
@[simp] theorem State.drawSda_byteIdx : (s.drawSda).byteIdx = s.byteIdx := rfl
@[simp] theorem State.drawSda_reqAddr : (s.drawSda).reqAddr = s.reqAddr := rfl
@[simp] theorem State.drawSda_reqDir : (s.drawSda).reqDir = s.reqDir := rfl
@[simp] theorem State.drawSda_reqLen : (s.drawSda).reqLen = s.reqLen := rfl
@[simp] theorem State.drawSda_curSettle : (s.drawSda).curSettle = s.curSettle := rfl
@[simp] theorem State.drawSda_ackBit : (s.drawSda).ackBit = s.ackBit := rfl
@[simp] theorem State.drawSda_busy : (s.drawSda).busy = s.busy := rfl
@[simp] theorem State.drawSda_faultFlag : (s.drawSda).faultFlag = s.faultFlag := rfl
@[simp] theorem State.drawSda_resp : (s.drawSda).resp = s.resp := rfl
@[simp] theorem State.drawSda_pend : (s.drawSda).pend = s.pend := rfl
@[simp] theorem State.drawSda_trace : (s.drawSda).trace = s.trace ++ [.rd s.slaveNow] := rfl
@[simp] theorem State.drawSda_payload : (s.drawSda).payload = s.payload := rfl
@[simp] theorem State.drawSda_usable : (s.drawSda).usable = s.usable := rfl
@[simp] theorem State.drawSda_reserved : (s.drawSda).reserved = s.reserved := rfl
@[simp] theorem State.drawSda_tSettle : (s.drawSda).tSettle = s.tSettle := rfl
@[simp] theorem State.drawSda_slave : (s.drawSda).slave = s.slave.tail := rfl
@[simp] theorem State.drawSda_draws : (s.drawSda).draws = s.draws + 1 := rfl
@[simp] theorem State.drawSda_inputs : (s.drawSda).inputs = s.inputs := rfl
@[simp] theorem State.drawSda_uport : (s.drawSda).uport = s.uport := rfl
@[simp] theorem State.drawSda_opClk : (s.drawSda).opClk = s.opClk := rfl
@[simp] theorem State.drawSda_opDat : (s.drawSda).opDat = s.opDat := rfl
@[simp] theorem State.drawSda_result : (s.drawSda).result = .level s.slaveNow := rfl
@[simp] theorem State.drawSda_responses : (s.drawSda).responses = s.responses := rfl

/-! ### `State.readData` -/

@[simp] theorem State.readData_bound : (s.readData).bound = s.bound := by
  unfold State.readData; split <;> rfl
@[simp] theorem State.readData_clkPin : (s.readData).clkPin = s.clkPin := by
  unfold State.readData; split <;> rfl
@[simp] theorem State.readData_datPin : (s.readData).datPin = s.datPin := by
  unfold State.readData; split <;> rfl
@[simp] theorem State.readData_sclO : (s.readData).sclO = s.sclO := by
  unfold State.readData; split <;> rfl
@[simp] theorem State.readData_sdaO : (s.readData).sdaO = s.sdaO := by
  unfold State.readData; split <;> rfl
@[simp] theorem State.readData_sclDir : (s.readData).sclDir = s.sclDir := by
  unfold State.readData; split <;> rfl
@[simp] theorem State.readData_sdaDir : (s.readData).sdaDir = .input := by
  unfold State.readData; split <;> rfl
@[simp] theorem State.readData_fsm : (s.readData).fsm = s.fsm := by
  unfold State.readData; split <;> rfl
@[simp] theorem State.readData_sub : (s.readData).sub = s.sub := by
  unfold State.readData; split <;> rfl
@[simp] theorem State.readData_bitCnt : (s.readData).bitCnt = s.bitCnt := by
  unfold State.readData; split <;> rfl
@[simp] theorem State.readData_shift : (s.readData).shift = s.shift := by
  unfold State.readData; split <;> rfl
@[simp] theorem State.readData_byteIdx : (s.readData).byteIdx = s.byteIdx := by
  unfold State.readData; split <;> rfl
@[simp] theorem State.readData_reqAddr : (s.readData).reqAddr = s.reqAddr := by
  unfold State.readData; split <;> rfl
@[simp] theorem State.readData_reqDir : (s.readData).reqDir = s.reqDir := by
  unfold State.readData; split <;> rfl
@[simp] theorem State.readData_reqLen : (s.readData).reqLen = s.reqLen := by
  unfold State.readData; split <;> rfl
@[simp] theorem State.readData_curSettle : (s.readData).curSettle = s.curSettle := by
  unfold State.readData; split <;> rfl
@[simp] theorem State.readData_ackBit : (s.readData).ackBit = s.ackBit := by
  unfold State.readData; split <;> rfl
@[simp] theorem State.readData_busy : (s.readData).busy = s.busy := by
  unfold State.readData; split <;> rfl
@[simp] theorem State.readData_faultFlag : (s.readData).faultFlag = s.faultFlag := by
  unfold State.readData; split <;> rfl
@[simp] theorem State.readData_resp : (s.readData).resp = s.resp := by
  unfold State.readData; split <;> rfl
@[simp] theorem State.readData_pend : (s.readData).pend = s.pend := by
  unfold State.readData; split <;> rfl
@[simp] theorem State.readData_payload : (s.readData).payload = s.payload := by
  unfold State.readData; split <;> rfl
@[simp] theorem State.readData_usable : (s.readData).usable = s.usable := by
  unfold State.readData; split <;> rfl
@[simp] theorem State.readData_reserved : (s.readData).reserved = s.reserved := by
  unfold State.readData; split <;> rfl
@[simp] theorem State.readData_tSettle : (s.readData).tSettle = s.tSettle := by
  unfold State.readData; split <;> rfl
@[simp] theorem State.readData_inputs : (s.readData).inputs = s.inputs := by
  unfold State.readData; split <;> rfl
@[simp] theorem State.readData_uport : (s.readData).uport = s.uport := by
  unfold State.readData; split <;> rfl
@[simp] theorem State.readData_opClk : (s.readData).opClk = s.opClk := by
  unfold State.readData; split <;> rfl
@[simp] theorem State.readData_opDat : (s.readData).opDat = s.opDat := by
  unfold State.readData; split <;> rfl
@[simp] theorem State.readData_responses : (s.readData).responses = s.responses := by
  unfold State.readData; split <;> rfl

/-! ### `State.readClock` -/

@[simp] theorem State.readClock_bound : (s.readClock).bound = s.bound := rfl
@[simp] theorem State.readClock_clkPin : (s.readClock).clkPin = s.clkPin := rfl
@[simp] theorem State.readClock_datPin : (s.readClock).datPin = s.datPin := rfl
@[simp] theorem State.readClock_sclO : (s.readClock).sclO = s.sclO := rfl
@[simp] theorem State.readClock_sdaO : (s.readClock).sdaO = s.sdaO := rfl
@[simp] theorem State.readClock_sclDir : (s.readClock).sclDir = .input := rfl
@[simp] theorem State.readClock_sdaDir : (s.readClock).sdaDir = s.sdaDir := rfl
@[simp] theorem State.readClock_fsm : (s.readClock).fsm = s.fsm := rfl
@[simp] theorem State.readClock_sub : (s.readClock).sub = s.sub := rfl
@[simp] theorem State.readClock_bitCnt : (s.readClock).bitCnt = s.bitCnt := rfl
@[simp] theorem State.readClock_shift : (s.readClock).shift = s.shift := rfl
@[simp] theorem State.readClock_byteIdx : (s.readClock).byteIdx = s.byteIdx := rfl
@[simp] theorem State.readClock_reqAddr : (s.readClock).reqAddr = s.reqAddr := rfl
@[simp] theorem State.readClock_reqDir : (s.readClock).reqDir = s.reqDir := rfl
@[simp] theorem State.readClock_reqLen : (s.readClock).reqLen = s.reqLen := rfl
@[simp] theorem State.readClock_curSettle : (s.readClock).curSettle = s.curSettle := rfl
@[simp] theorem State.readClock_ackBit : (s.readClock).ackBit = s.ackBit := rfl
@[simp] theorem State.readClock_busy : (s.readClock).busy = s.busy := rfl
@[simp] theorem State.readClock_faultFlag : (s.readClock).faultFlag = s.faultFlag := rfl
@[simp] theorem State.readClock_resp : (s.readClock).resp = s.resp := rfl
@[simp] theorem State.readClock_pend : (s.readClock).pend = s.pend := rfl
@[simp] theorem State.readClock_trace : (s.readClock).trace = s.trace ++ [.rc true] := rfl
@[simp] theorem State.readClock_payload : (s.readClock).payload = s.payload := rfl
@[simp] theorem State.readClock_usable : (s.readClock).usable = s.usable := rfl
@[simp] theorem State.readClock_reserved : (s.readClock).reserved = s.reserved := rfl
@[simp] theorem State.readClock_tSettle : (s.readClock).tSettle = s.tSettle := rfl
@[simp] theorem State.readClock_slave : (s.readClock).slave = s.slave := rfl
@[simp] theorem State.readClock_draws : (s.readClock).draws = s.draws := rfl
@[simp] theorem State.readClock_inputs : (s.readClock).inputs = s.inputs := rfl
@[simp] theorem State.readClock_uport : (s.readClock).uport = s.uport := rfl
@[simp] theorem State.readClock_opClk : (s.readClock).opClk = s.opClk := rfl
@[simp] theorem State.readClock_opDat : (s.readClock).opDat = s.opDat := rfl
@[simp] theorem State.readClock_result : (s.readClock).result = .level true := rfl
@[simp] theorem State.readClock_responses : (s.readClock).responses = s.responses := rfl

/-! ### `State.restart` -/

@[simp] theorem State.restart_bound : (s.restart).bound = s.bound := rfl
@[simp] theorem State.restart_clkPin : (s.restart).clkPin = s.clkPin := rfl
@[simp] theorem State.restart_datPin : (s.restart).datPin = s.datPin := rfl
@[simp] theorem State.restart_sclO : (s.restart).sclO = s.sclO := rfl
@[simp] theorem State.restart_sdaO : (s.restart).sdaO = s.sdaO := rfl
@[simp] theorem State.restart_sclDir : (s.restart).sclDir = s.sclDir := rfl
@[simp] theorem State.restart_sdaDir : (s.restart).sdaDir = s.sdaDir := rfl
@[simp] theorem State.restart_fsm : (s.restart).fsm = s.fsm := rfl
@[simp] theorem State.restart_sub : (s.restart).sub = 0#3 := rfl
@[simp] theorem State.restart_bitCnt : (s.restart).bitCnt = s.bitCnt := rfl
@[simp] theorem State.restart_shift : (s.restart).shift = s.shift := rfl
@[simp] theorem State.restart_byteIdx : (s.restart).byteIdx = s.byteIdx := rfl
@[simp] theorem State.restart_reqAddr : (s.restart).reqAddr = s.reqAddr := rfl
@[simp] theorem State.restart_reqDir : (s.restart).reqDir = s.reqDir := rfl
@[simp] theorem State.restart_reqLen : (s.restart).reqLen = s.reqLen := rfl
@[simp] theorem State.restart_curSettle : (s.restart).curSettle = s.curSettle := rfl
@[simp] theorem State.restart_ackBit : (s.restart).ackBit = s.ackBit := rfl
@[simp] theorem State.restart_busy : (s.restart).busy = s.busy := rfl
@[simp] theorem State.restart_faultFlag : (s.restart).faultFlag = s.faultFlag := rfl
@[simp] theorem State.restart_resp : (s.restart).resp = s.resp := rfl
@[simp] theorem State.restart_pend : (s.restart).pend = s.pend := rfl
@[simp] theorem State.restart_trace : (s.restart).trace = s.trace := rfl
@[simp] theorem State.restart_payload : (s.restart).payload = s.payload := rfl
@[simp] theorem State.restart_usable : (s.restart).usable = s.usable := rfl
@[simp] theorem State.restart_reserved : (s.restart).reserved = s.reserved := rfl
@[simp] theorem State.restart_tSettle : (s.restart).tSettle = s.tSettle := rfl
@[simp] theorem State.restart_slave : (s.restart).slave = s.slave := rfl
@[simp] theorem State.restart_draws : (s.restart).draws = s.draws := rfl
@[simp] theorem State.restart_inputs : (s.restart).inputs = s.inputs := rfl
@[simp] theorem State.restart_uport : (s.restart).uport = s.uport := rfl
@[simp] theorem State.restart_opClk : (s.restart).opClk = s.opClk := rfl
@[simp] theorem State.restart_opDat : (s.restart).opDat = s.opDat := rfl
@[simp] theorem State.restart_result : (s.restart).result = s.result := rfl
@[simp] theorem State.restart_responses : (s.restart).responses = s.responses := rfl

/-! ### `State.goto` -/

@[simp] theorem State.goto_bound (f : Fsm) : (s.goto f).bound = s.bound := rfl
@[simp] theorem State.goto_clkPin (f : Fsm) : (s.goto f).clkPin = s.clkPin := rfl
@[simp] theorem State.goto_datPin (f : Fsm) : (s.goto f).datPin = s.datPin := rfl
@[simp] theorem State.goto_sclO (f : Fsm) : (s.goto f).sclO = s.sclO := rfl
@[simp] theorem State.goto_sdaO (f : Fsm) : (s.goto f).sdaO = s.sdaO := rfl
@[simp] theorem State.goto_sclDir (f : Fsm) : (s.goto f).sclDir = s.sclDir := rfl
@[simp] theorem State.goto_sdaDir (f : Fsm) : (s.goto f).sdaDir = s.sdaDir := rfl
@[simp] theorem State.goto_fsm (f : Fsm) : (s.goto f).fsm = f := rfl
@[simp] theorem State.goto_sub (f : Fsm) : (s.goto f).sub = s.sub := rfl
@[simp] theorem State.goto_bitCnt (f : Fsm) : (s.goto f).bitCnt = s.bitCnt := rfl
@[simp] theorem State.goto_shift (f : Fsm) : (s.goto f).shift = s.shift := rfl
@[simp] theorem State.goto_byteIdx (f : Fsm) : (s.goto f).byteIdx = s.byteIdx := rfl
@[simp] theorem State.goto_reqAddr (f : Fsm) : (s.goto f).reqAddr = s.reqAddr := rfl
@[simp] theorem State.goto_reqDir (f : Fsm) : (s.goto f).reqDir = s.reqDir := rfl
@[simp] theorem State.goto_reqLen (f : Fsm) : (s.goto f).reqLen = s.reqLen := rfl
@[simp] theorem State.goto_curSettle (f : Fsm) : (s.goto f).curSettle = s.curSettle := rfl
@[simp] theorem State.goto_ackBit (f : Fsm) : (s.goto f).ackBit = s.ackBit := rfl
@[simp] theorem State.goto_busy (f : Fsm) : (s.goto f).busy = s.busy := rfl
@[simp] theorem State.goto_faultFlag (f : Fsm) : (s.goto f).faultFlag = s.faultFlag := rfl
@[simp] theorem State.goto_resp (f : Fsm) : (s.goto f).resp = s.resp := rfl
@[simp] theorem State.goto_pend (f : Fsm) : (s.goto f).pend = s.pend := rfl
@[simp] theorem State.goto_trace (f : Fsm) : (s.goto f).trace = s.trace := rfl
@[simp] theorem State.goto_payload (f : Fsm) : (s.goto f).payload = s.payload := rfl
@[simp] theorem State.goto_usable (f : Fsm) : (s.goto f).usable = s.usable := rfl
@[simp] theorem State.goto_reserved (f : Fsm) : (s.goto f).reserved = s.reserved := rfl
@[simp] theorem State.goto_tSettle (f : Fsm) : (s.goto f).tSettle = s.tSettle := rfl
@[simp] theorem State.goto_slave (f : Fsm) : (s.goto f).slave = s.slave := rfl
@[simp] theorem State.goto_draws (f : Fsm) : (s.goto f).draws = s.draws := rfl
@[simp] theorem State.goto_inputs (f : Fsm) : (s.goto f).inputs = s.inputs := rfl
@[simp] theorem State.goto_uport (f : Fsm) : (s.goto f).uport = s.uport := rfl
@[simp] theorem State.goto_opClk (f : Fsm) : (s.goto f).opClk = s.opClk := rfl
@[simp] theorem State.goto_opDat (f : Fsm) : (s.goto f).opDat = s.opDat := rfl
@[simp] theorem State.goto_result (f : Fsm) : (s.goto f).result = s.result := rfl
@[simp] theorem State.goto_responses (f : Fsm) : (s.goto f).responses = s.responses := rfl

/-! ### `State.beginAddress` -/

@[simp] theorem State.beginAddress_bound : (s.beginAddress).bound = s.bound := rfl
@[simp] theorem State.beginAddress_clkPin : (s.beginAddress).clkPin = s.clkPin := rfl
@[simp] theorem State.beginAddress_datPin : (s.beginAddress).datPin = s.datPin := rfl
@[simp] theorem State.beginAddress_sclO : (s.beginAddress).sclO = s.sclO := rfl
@[simp] theorem State.beginAddress_sdaO : (s.beginAddress).sdaO = s.sdaO := rfl
@[simp] theorem State.beginAddress_sclDir : (s.beginAddress).sclDir = s.sclDir := rfl
@[simp] theorem State.beginAddress_sdaDir : (s.beginAddress).sdaDir = s.sdaDir := rfl
@[simp] theorem State.beginAddress_fsm : (s.beginAddress).fsm = .addressBits := rfl
@[simp] theorem State.beginAddress_sub : (s.beginAddress).sub = s.sub := rfl
@[simp] theorem State.beginAddress_bitCnt : (s.beginAddress).bitCnt = 7#4 := rfl
@[simp] theorem State.beginAddress_shift : (s.beginAddress).shift = addressUnit s.reqAddr s.reqDir := rfl
@[simp] theorem State.beginAddress_byteIdx : (s.beginAddress).byteIdx = s.byteIdx := rfl
@[simp] theorem State.beginAddress_reqAddr : (s.beginAddress).reqAddr = s.reqAddr := rfl
@[simp] theorem State.beginAddress_reqDir : (s.beginAddress).reqDir = s.reqDir := rfl
@[simp] theorem State.beginAddress_reqLen : (s.beginAddress).reqLen = s.reqLen := rfl
@[simp] theorem State.beginAddress_curSettle : (s.beginAddress).curSettle = s.curSettle := rfl
@[simp] theorem State.beginAddress_ackBit : (s.beginAddress).ackBit = s.ackBit := rfl
@[simp] theorem State.beginAddress_busy : (s.beginAddress).busy = s.busy := rfl
@[simp] theorem State.beginAddress_faultFlag : (s.beginAddress).faultFlag = s.faultFlag := rfl
@[simp] theorem State.beginAddress_resp : (s.beginAddress).resp = s.resp := rfl
@[simp] theorem State.beginAddress_pend : (s.beginAddress).pend = s.pend := rfl
@[simp] theorem State.beginAddress_trace : (s.beginAddress).trace = s.trace := rfl
@[simp] theorem State.beginAddress_payload : (s.beginAddress).payload = s.payload := rfl
@[simp] theorem State.beginAddress_usable : (s.beginAddress).usable = s.usable := rfl
@[simp] theorem State.beginAddress_reserved : (s.beginAddress).reserved = s.reserved := rfl
@[simp] theorem State.beginAddress_tSettle : (s.beginAddress).tSettle = s.tSettle := rfl
@[simp] theorem State.beginAddress_slave : (s.beginAddress).slave = s.slave := rfl
@[simp] theorem State.beginAddress_draws : (s.beginAddress).draws = s.draws := rfl
@[simp] theorem State.beginAddress_inputs : (s.beginAddress).inputs = s.inputs := rfl
@[simp] theorem State.beginAddress_uport : (s.beginAddress).uport = s.uport := rfl
@[simp] theorem State.beginAddress_opClk : (s.beginAddress).opClk = s.opClk := rfl
@[simp] theorem State.beginAddress_opDat : (s.beginAddress).opDat = s.opDat := rfl
@[simp] theorem State.beginAddress_result : (s.beginAddress).result = s.result := rfl
@[simp] theorem State.beginAddress_responses : (s.beginAddress).responses = s.responses := rfl

/-! ### `State.beginDirection` -/

@[simp] theorem State.beginDirection_bound : (s.beginDirection).bound = s.bound := rfl
@[simp] theorem State.beginDirection_clkPin : (s.beginDirection).clkPin = s.clkPin := rfl
@[simp] theorem State.beginDirection_datPin : (s.beginDirection).datPin = s.datPin := rfl
@[simp] theorem State.beginDirection_sclO : (s.beginDirection).sclO = s.sclO := rfl
@[simp] theorem State.beginDirection_sdaO : (s.beginDirection).sdaO = s.sdaO := rfl
@[simp] theorem State.beginDirection_sclDir : (s.beginDirection).sclDir = s.sclDir := rfl
@[simp] theorem State.beginDirection_sdaDir : (s.beginDirection).sdaDir = s.sdaDir := rfl
@[simp] theorem State.beginDirection_fsm : (s.beginDirection).fsm = .directionBit := rfl
@[simp] theorem State.beginDirection_sub : (s.beginDirection).sub = s.sub := rfl
@[simp] theorem State.beginDirection_bitCnt : (s.beginDirection).bitCnt = 1#4 := rfl
@[simp] theorem State.beginDirection_shift : (s.beginDirection).shift = s.shift := rfl
@[simp] theorem State.beginDirection_byteIdx : (s.beginDirection).byteIdx = s.byteIdx := rfl
@[simp] theorem State.beginDirection_reqAddr : (s.beginDirection).reqAddr = s.reqAddr := rfl
@[simp] theorem State.beginDirection_reqDir : (s.beginDirection).reqDir = s.reqDir := rfl
@[simp] theorem State.beginDirection_reqLen : (s.beginDirection).reqLen = s.reqLen := rfl
@[simp] theorem State.beginDirection_curSettle : (s.beginDirection).curSettle = s.curSettle := rfl
@[simp] theorem State.beginDirection_ackBit : (s.beginDirection).ackBit = s.ackBit := rfl
@[simp] theorem State.beginDirection_busy : (s.beginDirection).busy = s.busy := rfl
@[simp] theorem State.beginDirection_faultFlag : (s.beginDirection).faultFlag = s.faultFlag := rfl
@[simp] theorem State.beginDirection_resp : (s.beginDirection).resp = s.resp := rfl
@[simp] theorem State.beginDirection_pend : (s.beginDirection).pend = s.pend := rfl
@[simp] theorem State.beginDirection_trace : (s.beginDirection).trace = s.trace := rfl
@[simp] theorem State.beginDirection_payload : (s.beginDirection).payload = s.payload := rfl
@[simp] theorem State.beginDirection_usable : (s.beginDirection).usable = s.usable := rfl
@[simp] theorem State.beginDirection_reserved : (s.beginDirection).reserved = s.reserved := rfl
@[simp] theorem State.beginDirection_tSettle : (s.beginDirection).tSettle = s.tSettle := rfl
@[simp] theorem State.beginDirection_slave : (s.beginDirection).slave = s.slave := rfl
@[simp] theorem State.beginDirection_draws : (s.beginDirection).draws = s.draws := rfl
@[simp] theorem State.beginDirection_inputs : (s.beginDirection).inputs = s.inputs := rfl
@[simp] theorem State.beginDirection_uport : (s.beginDirection).uport = s.uport := rfl
@[simp] theorem State.beginDirection_opClk : (s.beginDirection).opClk = s.opClk := rfl
@[simp] theorem State.beginDirection_opDat : (s.beginDirection).opDat = s.opDat := rfl
@[simp] theorem State.beginDirection_result : (s.beginDirection).result = s.result := rfl
@[simp] theorem State.beginDirection_responses : (s.beginDirection).responses = s.responses := rfl

/-! ### `State.beginByte` -/

@[simp] theorem State.beginByte_bound (b : Byte) : (s.beginByte b).bound = s.bound := rfl
@[simp] theorem State.beginByte_clkPin (b : Byte) : (s.beginByte b).clkPin = s.clkPin := rfl
@[simp] theorem State.beginByte_datPin (b : Byte) : (s.beginByte b).datPin = s.datPin := rfl
@[simp] theorem State.beginByte_sclO (b : Byte) : (s.beginByte b).sclO = s.sclO := rfl
@[simp] theorem State.beginByte_sdaO (b : Byte) : (s.beginByte b).sdaO = s.sdaO := rfl
@[simp] theorem State.beginByte_sclDir (b : Byte) : (s.beginByte b).sclDir = s.sclDir := rfl
@[simp] theorem State.beginByte_sdaDir (b : Byte) : (s.beginByte b).sdaDir = s.sdaDir := rfl
@[simp] theorem State.beginByte_fsm (b : Byte) : (s.beginByte b).fsm = s.fsm := rfl
@[simp] theorem State.beginByte_sub (b : Byte) : (s.beginByte b).sub = s.sub := rfl
@[simp] theorem State.beginByte_bitCnt (b : Byte) : (s.beginByte b).bitCnt = 8#4 := rfl
@[simp] theorem State.beginByte_shift (b : Byte) : (s.beginByte b).shift = b := rfl
@[simp] theorem State.beginByte_byteIdx (b : Byte) : (s.beginByte b).byteIdx = s.byteIdx := rfl
@[simp] theorem State.beginByte_reqAddr (b : Byte) : (s.beginByte b).reqAddr = s.reqAddr := rfl
@[simp] theorem State.beginByte_reqDir (b : Byte) : (s.beginByte b).reqDir = s.reqDir := rfl
@[simp] theorem State.beginByte_reqLen (b : Byte) : (s.beginByte b).reqLen = s.reqLen := rfl
@[simp] theorem State.beginByte_curSettle (b : Byte) : (s.beginByte b).curSettle = s.curSettle := rfl
@[simp] theorem State.beginByte_ackBit (b : Byte) : (s.beginByte b).ackBit = s.ackBit := rfl
@[simp] theorem State.beginByte_busy (b : Byte) : (s.beginByte b).busy = s.busy := rfl
@[simp] theorem State.beginByte_faultFlag (b : Byte) : (s.beginByte b).faultFlag = s.faultFlag := rfl
@[simp] theorem State.beginByte_resp (b : Byte) : (s.beginByte b).resp = s.resp := rfl
@[simp] theorem State.beginByte_pend (b : Byte) : (s.beginByte b).pend = s.pend := rfl
@[simp] theorem State.beginByte_trace (b : Byte) : (s.beginByte b).trace = s.trace := rfl
@[simp] theorem State.beginByte_payload (b : Byte) : (s.beginByte b).payload = s.payload := rfl
@[simp] theorem State.beginByte_usable (b : Byte) : (s.beginByte b).usable = s.usable := rfl
@[simp] theorem State.beginByte_reserved (b : Byte) : (s.beginByte b).reserved = s.reserved := rfl
@[simp] theorem State.beginByte_tSettle (b : Byte) : (s.beginByte b).tSettle = s.tSettle := rfl
@[simp] theorem State.beginByte_slave (b : Byte) : (s.beginByte b).slave = s.slave := rfl
@[simp] theorem State.beginByte_draws (b : Byte) : (s.beginByte b).draws = s.draws := rfl
@[simp] theorem State.beginByte_inputs (b : Byte) : (s.beginByte b).inputs = s.inputs := rfl
@[simp] theorem State.beginByte_uport (b : Byte) : (s.beginByte b).uport = s.uport := rfl
@[simp] theorem State.beginByte_opClk (b : Byte) : (s.beginByte b).opClk = s.opClk := rfl
@[simp] theorem State.beginByte_opDat (b : Byte) : (s.beginByte b).opDat = s.opDat := rfl
@[simp] theorem State.beginByte_result (b : Byte) : (s.beginByte b).result = s.result := rfl
@[simp] theorem State.beginByte_responses (b : Byte) : (s.beginByte b).responses = s.responses := rfl

/-! ### `State.nextByte` -/

@[simp] theorem State.nextByte_bound : (s.nextByte).bound = s.bound := rfl
@[simp] theorem State.nextByte_clkPin : (s.nextByte).clkPin = s.clkPin := rfl
@[simp] theorem State.nextByte_datPin : (s.nextByte).datPin = s.datPin := rfl
@[simp] theorem State.nextByte_sclO : (s.nextByte).sclO = s.sclO := rfl
@[simp] theorem State.nextByte_sdaO : (s.nextByte).sdaO = s.sdaO := rfl
@[simp] theorem State.nextByte_sclDir : (s.nextByte).sclDir = s.sclDir := rfl
@[simp] theorem State.nextByte_sdaDir : (s.nextByte).sdaDir = s.sdaDir := rfl
@[simp] theorem State.nextByte_fsm : (s.nextByte).fsm = s.fsm := rfl
@[simp] theorem State.nextByte_sub : (s.nextByte).sub = s.sub := rfl
@[simp] theorem State.nextByte_bitCnt : (s.nextByte).bitCnt = s.bitCnt := rfl
@[simp] theorem State.nextByte_shift : (s.nextByte).shift = s.shift := rfl
@[simp] theorem State.nextByte_byteIdx : (s.nextByte).byteIdx = s.byteIdx + 1#16 := rfl
@[simp] theorem State.nextByte_reqAddr : (s.nextByte).reqAddr = s.reqAddr := rfl
@[simp] theorem State.nextByte_reqDir : (s.nextByte).reqDir = s.reqDir := rfl
@[simp] theorem State.nextByte_reqLen : (s.nextByte).reqLen = s.reqLen := rfl
@[simp] theorem State.nextByte_curSettle : (s.nextByte).curSettle = s.curSettle := rfl
@[simp] theorem State.nextByte_ackBit : (s.nextByte).ackBit = s.ackBit := rfl
@[simp] theorem State.nextByte_busy : (s.nextByte).busy = s.busy := rfl
@[simp] theorem State.nextByte_faultFlag : (s.nextByte).faultFlag = s.faultFlag := rfl
@[simp] theorem State.nextByte_resp : (s.nextByte).resp = s.resp := rfl
@[simp] theorem State.nextByte_pend : (s.nextByte).pend = s.pend := rfl
@[simp] theorem State.nextByte_trace : (s.nextByte).trace = s.trace := rfl
@[simp] theorem State.nextByte_payload : (s.nextByte).payload = s.payload := rfl
@[simp] theorem State.nextByte_usable : (s.nextByte).usable = s.usable := rfl
@[simp] theorem State.nextByte_reserved : (s.nextByte).reserved = s.reserved := rfl
@[simp] theorem State.nextByte_tSettle : (s.nextByte).tSettle = s.tSettle := rfl
@[simp] theorem State.nextByte_slave : (s.nextByte).slave = s.slave := rfl
@[simp] theorem State.nextByte_draws : (s.nextByte).draws = s.draws := rfl
@[simp] theorem State.nextByte_inputs : (s.nextByte).inputs = s.inputs := rfl
@[simp] theorem State.nextByte_uport : (s.nextByte).uport = s.uport := rfl
@[simp] theorem State.nextByte_opClk : (s.nextByte).opClk = s.opClk := rfl
@[simp] theorem State.nextByte_opDat : (s.nextByte).opDat = s.opDat := rfl
@[simp] theorem State.nextByte_result : (s.nextByte).result = s.result := rfl
@[simp] theorem State.nextByte_responses : (s.nextByte).responses = s.responses := rfl

/-! ### `State.shiftOut` -/

@[simp] theorem State.shiftOut_bound : (s.shiftOut).bound = s.bound := rfl
@[simp] theorem State.shiftOut_clkPin : (s.shiftOut).clkPin = s.clkPin := rfl
@[simp] theorem State.shiftOut_datPin : (s.shiftOut).datPin = s.datPin := rfl
@[simp] theorem State.shiftOut_sclO : (s.shiftOut).sclO = s.sclO := rfl
@[simp] theorem State.shiftOut_sdaO : (s.shiftOut).sdaO = s.sdaO := rfl
@[simp] theorem State.shiftOut_sclDir : (s.shiftOut).sclDir = s.sclDir := rfl
@[simp] theorem State.shiftOut_sdaDir : (s.shiftOut).sdaDir = s.sdaDir := rfl
@[simp] theorem State.shiftOut_fsm : (s.shiftOut).fsm = s.fsm := rfl
@[simp] theorem State.shiftOut_sub : (s.shiftOut).sub = s.sub := rfl
@[simp] theorem State.shiftOut_bitCnt : (s.shiftOut).bitCnt = s.bitCnt - 1#4 := rfl
@[simp] theorem State.shiftOut_shift : (s.shiftOut).shift = shiftLeft s.shift := rfl
@[simp] theorem State.shiftOut_byteIdx : (s.shiftOut).byteIdx = s.byteIdx := rfl
@[simp] theorem State.shiftOut_reqAddr : (s.shiftOut).reqAddr = s.reqAddr := rfl
@[simp] theorem State.shiftOut_reqDir : (s.shiftOut).reqDir = s.reqDir := rfl
@[simp] theorem State.shiftOut_reqLen : (s.shiftOut).reqLen = s.reqLen := rfl
@[simp] theorem State.shiftOut_curSettle : (s.shiftOut).curSettle = s.curSettle := rfl
@[simp] theorem State.shiftOut_ackBit : (s.shiftOut).ackBit = s.ackBit := rfl
@[simp] theorem State.shiftOut_busy : (s.shiftOut).busy = s.busy := rfl
@[simp] theorem State.shiftOut_faultFlag : (s.shiftOut).faultFlag = s.faultFlag := rfl
@[simp] theorem State.shiftOut_resp : (s.shiftOut).resp = s.resp := rfl
@[simp] theorem State.shiftOut_pend : (s.shiftOut).pend = s.pend := rfl
@[simp] theorem State.shiftOut_trace : (s.shiftOut).trace = s.trace := rfl
@[simp] theorem State.shiftOut_payload : (s.shiftOut).payload = s.payload := rfl
@[simp] theorem State.shiftOut_usable : (s.shiftOut).usable = s.usable := rfl
@[simp] theorem State.shiftOut_reserved : (s.shiftOut).reserved = s.reserved := rfl
@[simp] theorem State.shiftOut_tSettle : (s.shiftOut).tSettle = s.tSettle := rfl
@[simp] theorem State.shiftOut_slave : (s.shiftOut).slave = s.slave := rfl
@[simp] theorem State.shiftOut_draws : (s.shiftOut).draws = s.draws := rfl
@[simp] theorem State.shiftOut_inputs : (s.shiftOut).inputs = s.inputs := rfl
@[simp] theorem State.shiftOut_uport : (s.shiftOut).uport = s.uport := rfl
@[simp] theorem State.shiftOut_opClk : (s.shiftOut).opClk = s.opClk := rfl
@[simp] theorem State.shiftOut_opDat : (s.shiftOut).opDat = s.opDat := rfl
@[simp] theorem State.shiftOut_result : (s.shiftOut).result = s.result := rfl
@[simp] theorem State.shiftOut_responses : (s.shiftOut).responses = s.responses := rfl

/-! ### `State.accept` -/

@[simp] theorem State.accept_bound : (s.accept).bound = s.bound := rfl
@[simp] theorem State.accept_clkPin : (s.accept).clkPin = s.clkPin := rfl
@[simp] theorem State.accept_datPin : (s.accept).datPin = s.datPin := rfl
@[simp] theorem State.accept_sclO : (s.accept).sclO = s.sclO := rfl
@[simp] theorem State.accept_sdaO : (s.accept).sdaO = s.sdaO := rfl
@[simp] theorem State.accept_sclDir : (s.accept).sclDir = s.sclDir := rfl
@[simp] theorem State.accept_sdaDir : (s.accept).sdaDir = s.sdaDir := rfl
@[simp] theorem State.accept_fsm : (s.accept).fsm = s.fsm := rfl
@[simp] theorem State.accept_sub : (s.accept).sub = s.sub := rfl
@[simp] theorem State.accept_bitCnt : (s.accept).bitCnt = s.bitCnt := rfl
@[simp] theorem State.accept_shift : (s.accept).shift = s.shift := rfl
@[simp] theorem State.accept_byteIdx : (s.accept).byteIdx = s.byteIdx := rfl
@[simp] theorem State.accept_reqAddr : (s.accept).reqAddr = s.reqAddr := rfl
@[simp] theorem State.accept_reqDir : (s.accept).reqDir = s.reqDir := rfl
@[simp] theorem State.accept_reqLen : (s.accept).reqLen = s.reqLen := rfl
@[simp] theorem State.accept_curSettle : (s.accept).curSettle = s.curSettle := rfl
@[simp] theorem State.accept_ackBit : (s.accept).ackBit = s.ackBit := rfl
@[simp] theorem State.accept_busy : (s.accept).busy = true := rfl
@[simp] theorem State.accept_faultFlag : (s.accept).faultFlag = s.faultFlag := rfl
@[simp] theorem State.accept_resp : (s.accept).resp = s.resp := rfl
@[simp] theorem State.accept_pend : (s.accept).pend = s.pend := rfl
@[simp] theorem State.accept_trace : (s.accept).trace = s.trace := rfl
@[simp] theorem State.accept_payload : (s.accept).payload = s.payload := rfl
@[simp] theorem State.accept_usable : (s.accept).usable = s.usable := rfl
@[simp] theorem State.accept_reserved : (s.accept).reserved = s.reserved := rfl
@[simp] theorem State.accept_tSettle : (s.accept).tSettle = s.tSettle := rfl
@[simp] theorem State.accept_slave : (s.accept).slave = s.slave := rfl
@[simp] theorem State.accept_draws : (s.accept).draws = s.draws := rfl
@[simp] theorem State.accept_inputs : (s.accept).inputs = s.inputs := rfl
@[simp] theorem State.accept_uport : (s.accept).uport = s.uport := rfl
@[simp] theorem State.accept_opClk : (s.accept).opClk = s.opClk := rfl
@[simp] theorem State.accept_opDat : (s.accept).opDat = s.opDat := rfl
@[simp] theorem State.accept_result : (s.accept).result = s.result := rfl
@[simp] theorem State.accept_responses : (s.accept).responses = s.responses := rfl

/-! ### `State.latchOperands` -/

@[simp] theorem State.latchOperands_bound (c d : PinId) : (s.latchOperands c d).bound = s.bound := rfl
@[simp] theorem State.latchOperands_clkPin (c d : PinId) : (s.latchOperands c d).clkPin = s.clkPin := rfl
@[simp] theorem State.latchOperands_datPin (c d : PinId) : (s.latchOperands c d).datPin = s.datPin := rfl
@[simp] theorem State.latchOperands_sclO (c d : PinId) : (s.latchOperands c d).sclO = s.sclO := rfl
@[simp] theorem State.latchOperands_sdaO (c d : PinId) : (s.latchOperands c d).sdaO = s.sdaO := rfl
@[simp] theorem State.latchOperands_sclDir (c d : PinId) : (s.latchOperands c d).sclDir = s.sclDir := rfl
@[simp] theorem State.latchOperands_sdaDir (c d : PinId) : (s.latchOperands c d).sdaDir = s.sdaDir := rfl
@[simp] theorem State.latchOperands_fsm (c d : PinId) : (s.latchOperands c d).fsm = s.fsm := rfl
@[simp] theorem State.latchOperands_sub (c d : PinId) : (s.latchOperands c d).sub = s.sub := rfl
@[simp] theorem State.latchOperands_bitCnt (c d : PinId) : (s.latchOperands c d).bitCnt = s.bitCnt := rfl
@[simp] theorem State.latchOperands_shift (c d : PinId) : (s.latchOperands c d).shift = s.shift := rfl
@[simp] theorem State.latchOperands_byteIdx (c d : PinId) : (s.latchOperands c d).byteIdx = s.byteIdx := rfl
@[simp] theorem State.latchOperands_reqAddr (c d : PinId) : (s.latchOperands c d).reqAddr = s.reqAddr := rfl
@[simp] theorem State.latchOperands_reqDir (c d : PinId) : (s.latchOperands c d).reqDir = s.reqDir := rfl
@[simp] theorem State.latchOperands_reqLen (c d : PinId) : (s.latchOperands c d).reqLen = s.reqLen := rfl
@[simp] theorem State.latchOperands_curSettle (c d : PinId) : (s.latchOperands c d).curSettle = s.curSettle := rfl
@[simp] theorem State.latchOperands_ackBit (c d : PinId) : (s.latchOperands c d).ackBit = s.ackBit := rfl
@[simp] theorem State.latchOperands_busy (c d : PinId) : (s.latchOperands c d).busy = s.busy := rfl
@[simp] theorem State.latchOperands_faultFlag (c d : PinId) : (s.latchOperands c d).faultFlag = s.faultFlag := rfl
@[simp] theorem State.latchOperands_resp (c d : PinId) : (s.latchOperands c d).resp = s.resp := rfl
@[simp] theorem State.latchOperands_pend (c d : PinId) : (s.latchOperands c d).pend = s.pend := rfl
@[simp] theorem State.latchOperands_trace (c d : PinId) : (s.latchOperands c d).trace = s.trace := rfl
@[simp] theorem State.latchOperands_payload (c d : PinId) : (s.latchOperands c d).payload = s.payload := rfl
@[simp] theorem State.latchOperands_usable (c d : PinId) : (s.latchOperands c d).usable = s.usable := rfl
@[simp] theorem State.latchOperands_reserved (c d : PinId) : (s.latchOperands c d).reserved = s.reserved := rfl
@[simp] theorem State.latchOperands_tSettle (c d : PinId) : (s.latchOperands c d).tSettle = s.tSettle := rfl
@[simp] theorem State.latchOperands_slave (c d : PinId) : (s.latchOperands c d).slave = s.slave := rfl
@[simp] theorem State.latchOperands_draws (c d : PinId) : (s.latchOperands c d).draws = s.draws := rfl
@[simp] theorem State.latchOperands_inputs (c d : PinId) : (s.latchOperands c d).inputs = s.inputs := rfl
@[simp] theorem State.latchOperands_uport (c d : PinId) : (s.latchOperands c d).uport = s.uport := rfl
@[simp] theorem State.latchOperands_opClk (c d : PinId) : (s.latchOperands c d).opClk = c := rfl
@[simp] theorem State.latchOperands_opDat (c d : PinId) : (s.latchOperands c d).opDat = d := rfl
@[simp] theorem State.latchOperands_result (c d : PinId) : (s.latchOperands c d).result = s.result := rfl
@[simp] theorem State.latchOperands_responses (c d : PinId) : (s.latchOperands c d).responses = s.responses := rfl

/-! ### `State.complete` -/

@[simp] theorem State.complete_bound (w : Word) : (s.complete w).bound = s.bound := rfl
@[simp] theorem State.complete_clkPin (w : Word) : (s.complete w).clkPin = s.clkPin := rfl
@[simp] theorem State.complete_datPin (w : Word) : (s.complete w).datPin = s.datPin := rfl
@[simp] theorem State.complete_sclO (w : Word) : (s.complete w).sclO = s.sclO := rfl
@[simp] theorem State.complete_sdaO (w : Word) : (s.complete w).sdaO = s.sdaO := rfl
@[simp] theorem State.complete_sclDir (w : Word) : (s.complete w).sclDir = s.sclDir := rfl
@[simp] theorem State.complete_sdaDir (w : Word) : (s.complete w).sdaDir = s.sdaDir := rfl
@[simp] theorem State.complete_fsm (w : Word) : (s.complete w).fsm = s.fsm := rfl
@[simp] theorem State.complete_sub (w : Word) : (s.complete w).sub = s.sub := rfl
@[simp] theorem State.complete_bitCnt (w : Word) : (s.complete w).bitCnt = s.bitCnt := rfl
@[simp] theorem State.complete_shift (w : Word) : (s.complete w).shift = s.shift := rfl
@[simp] theorem State.complete_byteIdx (w : Word) : (s.complete w).byteIdx = s.byteIdx := rfl
@[simp] theorem State.complete_reqAddr (w : Word) : (s.complete w).reqAddr = s.reqAddr := rfl
@[simp] theorem State.complete_reqDir (w : Word) : (s.complete w).reqDir = s.reqDir := rfl
@[simp] theorem State.complete_reqLen (w : Word) : (s.complete w).reqLen = s.reqLen := rfl
@[simp] theorem State.complete_curSettle (w : Word) : (s.complete w).curSettle = s.curSettle := rfl
@[simp] theorem State.complete_ackBit (w : Word) : (s.complete w).ackBit = s.ackBit := rfl
@[simp] theorem State.complete_busy (w : Word) : (s.complete w).busy = false := rfl
@[simp] theorem State.complete_faultFlag (w : Word) : (s.complete w).faultFlag = s.faultFlag := rfl
@[simp] theorem State.complete_resp (w : Word) : (s.complete w).resp = w := rfl
@[simp] theorem State.complete_pend (w : Word) : (s.complete w).pend = s.pend := rfl
@[simp] theorem State.complete_trace (w : Word) : (s.complete w).trace = s.trace := rfl
@[simp] theorem State.complete_payload (w : Word) : (s.complete w).payload = s.payload := rfl
@[simp] theorem State.complete_usable (w : Word) : (s.complete w).usable = s.usable := rfl
@[simp] theorem State.complete_reserved (w : Word) : (s.complete w).reserved = s.reserved := rfl
@[simp] theorem State.complete_tSettle (w : Word) : (s.complete w).tSettle = s.tSettle := rfl
@[simp] theorem State.complete_slave (w : Word) : (s.complete w).slave = s.slave := rfl
@[simp] theorem State.complete_draws (w : Word) : (s.complete w).draws = s.draws := rfl
@[simp] theorem State.complete_inputs (w : Word) : (s.complete w).inputs = s.inputs := rfl
@[simp] theorem State.complete_uport (w : Word) : (s.complete w).uport = s.uport := rfl
@[simp] theorem State.complete_opClk (w : Word) : (s.complete w).opClk = s.opClk := rfl
@[simp] theorem State.complete_opDat (w : Word) : (s.complete w).opDat = s.opDat := rfl
@[simp] theorem State.complete_result (w : Word) : (s.complete w).result = s.result := rfl
@[simp] theorem State.complete_responses (w : Word) : (s.complete w).responses = s.responses ++ [⟨w, ({ s with resp := w, busy := false } : State).status⟩] := rfl

/-! ### `State.enterStop` -/

@[simp] theorem State.enterStop_bound (w : Word) : (s.enterStop w).bound = s.bound := rfl
@[simp] theorem State.enterStop_clkPin (w : Word) : (s.enterStop w).clkPin = s.clkPin := rfl
@[simp] theorem State.enterStop_datPin (w : Word) : (s.enterStop w).datPin = s.datPin := rfl
@[simp] theorem State.enterStop_sclO (w : Word) : (s.enterStop w).sclO = s.sclO := rfl
@[simp] theorem State.enterStop_sdaO (w : Word) : (s.enterStop w).sdaO = s.sdaO := rfl
@[simp] theorem State.enterStop_sclDir (w : Word) : (s.enterStop w).sclDir = s.sclDir := rfl
@[simp] theorem State.enterStop_sdaDir (w : Word) : (s.enterStop w).sdaDir = s.sdaDir := rfl
@[simp] theorem State.enterStop_fsm (w : Word) : (s.enterStop w).fsm = .stop := rfl
@[simp] theorem State.enterStop_sub (w : Word) : (s.enterStop w).sub = s.sub := rfl
@[simp] theorem State.enterStop_bitCnt (w : Word) : (s.enterStop w).bitCnt = s.bitCnt := rfl
@[simp] theorem State.enterStop_shift (w : Word) : (s.enterStop w).shift = s.shift := rfl
@[simp] theorem State.enterStop_byteIdx (w : Word) : (s.enterStop w).byteIdx = s.byteIdx := rfl
@[simp] theorem State.enterStop_reqAddr (w : Word) : (s.enterStop w).reqAddr = s.reqAddr := rfl
@[simp] theorem State.enterStop_reqDir (w : Word) : (s.enterStop w).reqDir = s.reqDir := rfl
@[simp] theorem State.enterStop_reqLen (w : Word) : (s.enterStop w).reqLen = s.reqLen := rfl
@[simp] theorem State.enterStop_curSettle (w : Word) : (s.enterStop w).curSettle = s.curSettle := rfl
@[simp] theorem State.enterStop_ackBit (w : Word) : (s.enterStop w).ackBit = s.ackBit := rfl
@[simp] theorem State.enterStop_busy (w : Word) : (s.enterStop w).busy = s.busy := rfl
@[simp] theorem State.enterStop_faultFlag (w : Word) : (s.enterStop w).faultFlag = s.faultFlag := rfl
@[simp] theorem State.enterStop_resp (w : Word) : (s.enterStop w).resp = s.resp := rfl
@[simp] theorem State.enterStop_pend (w : Word) : (s.enterStop w).pend = w := rfl
@[simp] theorem State.enterStop_trace (w : Word) : (s.enterStop w).trace = s.trace := rfl
@[simp] theorem State.enterStop_payload (w : Word) : (s.enterStop w).payload = s.payload := rfl
@[simp] theorem State.enterStop_usable (w : Word) : (s.enterStop w).usable = s.usable := rfl
@[simp] theorem State.enterStop_reserved (w : Word) : (s.enterStop w).reserved = s.reserved := rfl
@[simp] theorem State.enterStop_tSettle (w : Word) : (s.enterStop w).tSettle = s.tSettle := rfl
@[simp] theorem State.enterStop_slave (w : Word) : (s.enterStop w).slave = s.slave := rfl
@[simp] theorem State.enterStop_draws (w : Word) : (s.enterStop w).draws = s.draws := rfl
@[simp] theorem State.enterStop_inputs (w : Word) : (s.enterStop w).inputs = s.inputs := rfl
@[simp] theorem State.enterStop_uport (w : Word) : (s.enterStop w).uport = s.uport := rfl
@[simp] theorem State.enterStop_opClk (w : Word) : (s.enterStop w).opClk = s.opClk := rfl
@[simp] theorem State.enterStop_opDat (w : Word) : (s.enterStop w).opDat = s.opDat := rfl
@[simp] theorem State.enterStop_result (w : Word) : (s.enterStop w).result = s.result := rfl
@[simp] theorem State.enterStop_responses (w : Word) : (s.enterStop w).responses = s.responses := rfl

/-! ### `State.abandon` -/

@[simp] theorem State.abandon_bound : (s.abandon).bound = s.bound := rfl
@[simp] theorem State.abandon_clkPin : (s.abandon).clkPin = s.clkPin := rfl
@[simp] theorem State.abandon_datPin : (s.abandon).datPin = s.datPin := rfl
@[simp] theorem State.abandon_sclO : (s.abandon).sclO = s.sclO := rfl
@[simp] theorem State.abandon_sdaO : (s.abandon).sdaO = s.sdaO := rfl
@[simp] theorem State.abandon_sclDir : (s.abandon).sclDir = s.sclDir := rfl
@[simp] theorem State.abandon_sdaDir : (s.abandon).sdaDir = s.sdaDir := rfl
@[simp] theorem State.abandon_fsm : (s.abandon).fsm = s.fsm := rfl
@[simp] theorem State.abandon_sub : (s.abandon).sub = s.sub := rfl
@[simp] theorem State.abandon_bitCnt : (s.abandon).bitCnt = s.bitCnt := rfl
@[simp] theorem State.abandon_shift : (s.abandon).shift = s.shift := rfl
@[simp] theorem State.abandon_byteIdx : (s.abandon).byteIdx = s.byteIdx := rfl
@[simp] theorem State.abandon_reqAddr : (s.abandon).reqAddr = s.reqAddr := rfl
@[simp] theorem State.abandon_reqDir : (s.abandon).reqDir = s.reqDir := rfl
@[simp] theorem State.abandon_reqLen : (s.abandon).reqLen = s.reqLen := rfl
@[simp] theorem State.abandon_curSettle : (s.abandon).curSettle = s.curSettle := rfl
@[simp] theorem State.abandon_ackBit : (s.abandon).ackBit = s.ackBit := rfl
@[simp] theorem State.abandon_busy : (s.abandon).busy = false := rfl
@[simp] theorem State.abandon_faultFlag : (s.abandon).faultFlag = true := rfl
@[simp] theorem State.abandon_resp : (s.abandon).resp = s.resp := rfl
@[simp] theorem State.abandon_pend : (s.abandon).pend = s.pend := rfl
@[simp] theorem State.abandon_trace : (s.abandon).trace = s.trace := rfl
@[simp] theorem State.abandon_payload : (s.abandon).payload = s.payload := rfl
@[simp] theorem State.abandon_usable : (s.abandon).usable = s.usable := rfl
@[simp] theorem State.abandon_reserved : (s.abandon).reserved = s.reserved := rfl
@[simp] theorem State.abandon_tSettle : (s.abandon).tSettle = s.tSettle := rfl
@[simp] theorem State.abandon_slave : (s.abandon).slave = s.slave := rfl
@[simp] theorem State.abandon_draws : (s.abandon).draws = s.draws := rfl
@[simp] theorem State.abandon_inputs : (s.abandon).inputs = s.inputs := rfl
@[simp] theorem State.abandon_uport : (s.abandon).uport = s.uport := rfl
@[simp] theorem State.abandon_opClk : (s.abandon).opClk = s.opClk := rfl
@[simp] theorem State.abandon_opDat : (s.abandon).opDat = s.opDat := rfl
@[simp] theorem State.abandon_result : (s.abandon).result = s.result := rfl
@[simp] theorem State.abandon_responses : (s.abandon).responses = s.responses := rfl

/-! ### `State.withInputs` -/

@[simp] theorem State.withInputs_bound (xs : List Pending) : (s.withInputs xs).bound = s.bound := rfl
@[simp] theorem State.withInputs_clkPin (xs : List Pending) : (s.withInputs xs).clkPin = s.clkPin := rfl
@[simp] theorem State.withInputs_datPin (xs : List Pending) : (s.withInputs xs).datPin = s.datPin := rfl
@[simp] theorem State.withInputs_sclO (xs : List Pending) : (s.withInputs xs).sclO = s.sclO := rfl
@[simp] theorem State.withInputs_sdaO (xs : List Pending) : (s.withInputs xs).sdaO = s.sdaO := rfl
@[simp] theorem State.withInputs_sclDir (xs : List Pending) : (s.withInputs xs).sclDir = s.sclDir := rfl
@[simp] theorem State.withInputs_sdaDir (xs : List Pending) : (s.withInputs xs).sdaDir = s.sdaDir := rfl
@[simp] theorem State.withInputs_fsm (xs : List Pending) : (s.withInputs xs).fsm = s.fsm := rfl
@[simp] theorem State.withInputs_sub (xs : List Pending) : (s.withInputs xs).sub = s.sub := rfl
@[simp] theorem State.withInputs_bitCnt (xs : List Pending) : (s.withInputs xs).bitCnt = s.bitCnt := rfl
@[simp] theorem State.withInputs_shift (xs : List Pending) : (s.withInputs xs).shift = s.shift := rfl
@[simp] theorem State.withInputs_byteIdx (xs : List Pending) : (s.withInputs xs).byteIdx = s.byteIdx := rfl
@[simp] theorem State.withInputs_reqAddr (xs : List Pending) : (s.withInputs xs).reqAddr = s.reqAddr := rfl
@[simp] theorem State.withInputs_reqDir (xs : List Pending) : (s.withInputs xs).reqDir = s.reqDir := rfl
@[simp] theorem State.withInputs_reqLen (xs : List Pending) : (s.withInputs xs).reqLen = s.reqLen := rfl
@[simp] theorem State.withInputs_curSettle (xs : List Pending) : (s.withInputs xs).curSettle = s.curSettle := rfl
@[simp] theorem State.withInputs_ackBit (xs : List Pending) : (s.withInputs xs).ackBit = s.ackBit := rfl
@[simp] theorem State.withInputs_busy (xs : List Pending) : (s.withInputs xs).busy = s.busy := rfl
@[simp] theorem State.withInputs_faultFlag (xs : List Pending) : (s.withInputs xs).faultFlag = s.faultFlag := rfl
@[simp] theorem State.withInputs_resp (xs : List Pending) : (s.withInputs xs).resp = s.resp := rfl
@[simp] theorem State.withInputs_pend (xs : List Pending) : (s.withInputs xs).pend = s.pend := rfl
@[simp] theorem State.withInputs_trace (xs : List Pending) : (s.withInputs xs).trace = s.trace := rfl
@[simp] theorem State.withInputs_payload (xs : List Pending) : (s.withInputs xs).payload = s.payload := rfl
@[simp] theorem State.withInputs_usable (xs : List Pending) : (s.withInputs xs).usable = s.usable := rfl
@[simp] theorem State.withInputs_reserved (xs : List Pending) : (s.withInputs xs).reserved = s.reserved := rfl
@[simp] theorem State.withInputs_tSettle (xs : List Pending) : (s.withInputs xs).tSettle = s.tSettle := rfl
@[simp] theorem State.withInputs_slave (xs : List Pending) : (s.withInputs xs).slave = s.slave := rfl
@[simp] theorem State.withInputs_draws (xs : List Pending) : (s.withInputs xs).draws = s.draws := rfl
@[simp] theorem State.withInputs_inputs (xs : List Pending) : (s.withInputs xs).inputs = xs := rfl
@[simp] theorem State.withInputs_uport (xs : List Pending) : (s.withInputs xs).uport = s.uport := rfl
@[simp] theorem State.withInputs_opClk (xs : List Pending) : (s.withInputs xs).opClk = s.opClk := rfl
@[simp] theorem State.withInputs_opDat (xs : List Pending) : (s.withInputs xs).opDat = s.opDat := rfl
@[simp] theorem State.withInputs_result (xs : List Pending) : (s.withInputs xs).result = s.result := rfl
@[simp] theorem State.withInputs_responses (xs : List Pending) : (s.withInputs xs).responses = s.responses := rfl

/-! ### `State.withPort` -/

@[simp] theorem State.withPort_bound (ws : List Byte) : (s.withPort ws).bound = s.bound := rfl
@[simp] theorem State.withPort_clkPin (ws : List Byte) : (s.withPort ws).clkPin = s.clkPin := rfl
@[simp] theorem State.withPort_datPin (ws : List Byte) : (s.withPort ws).datPin = s.datPin := rfl
@[simp] theorem State.withPort_sclO (ws : List Byte) : (s.withPort ws).sclO = s.sclO := rfl
@[simp] theorem State.withPort_sdaO (ws : List Byte) : (s.withPort ws).sdaO = s.sdaO := rfl
@[simp] theorem State.withPort_sclDir (ws : List Byte) : (s.withPort ws).sclDir = s.sclDir := rfl
@[simp] theorem State.withPort_sdaDir (ws : List Byte) : (s.withPort ws).sdaDir = s.sdaDir := rfl
@[simp] theorem State.withPort_fsm (ws : List Byte) : (s.withPort ws).fsm = s.fsm := rfl
@[simp] theorem State.withPort_sub (ws : List Byte) : (s.withPort ws).sub = s.sub := rfl
@[simp] theorem State.withPort_bitCnt (ws : List Byte) : (s.withPort ws).bitCnt = s.bitCnt := rfl
@[simp] theorem State.withPort_shift (ws : List Byte) : (s.withPort ws).shift = s.shift := rfl
@[simp] theorem State.withPort_byteIdx (ws : List Byte) : (s.withPort ws).byteIdx = s.byteIdx := rfl
@[simp] theorem State.withPort_reqAddr (ws : List Byte) : (s.withPort ws).reqAddr = s.reqAddr := rfl
@[simp] theorem State.withPort_reqDir (ws : List Byte) : (s.withPort ws).reqDir = s.reqDir := rfl
@[simp] theorem State.withPort_reqLen (ws : List Byte) : (s.withPort ws).reqLen = s.reqLen := rfl
@[simp] theorem State.withPort_curSettle (ws : List Byte) : (s.withPort ws).curSettle = s.curSettle := rfl
@[simp] theorem State.withPort_ackBit (ws : List Byte) : (s.withPort ws).ackBit = s.ackBit := rfl
@[simp] theorem State.withPort_busy (ws : List Byte) : (s.withPort ws).busy = s.busy := rfl
@[simp] theorem State.withPort_faultFlag (ws : List Byte) : (s.withPort ws).faultFlag = s.faultFlag := rfl
@[simp] theorem State.withPort_resp (ws : List Byte) : (s.withPort ws).resp = s.resp := rfl
@[simp] theorem State.withPort_pend (ws : List Byte) : (s.withPort ws).pend = s.pend := rfl
@[simp] theorem State.withPort_trace (ws : List Byte) : (s.withPort ws).trace = s.trace := rfl
@[simp] theorem State.withPort_payload (ws : List Byte) : (s.withPort ws).payload = s.payload := rfl
@[simp] theorem State.withPort_usable (ws : List Byte) : (s.withPort ws).usable = s.usable := rfl
@[simp] theorem State.withPort_reserved (ws : List Byte) : (s.withPort ws).reserved = s.reserved := rfl
@[simp] theorem State.withPort_tSettle (ws : List Byte) : (s.withPort ws).tSettle = s.tSettle := rfl
@[simp] theorem State.withPort_slave (ws : List Byte) : (s.withPort ws).slave = s.slave := rfl
@[simp] theorem State.withPort_draws (ws : List Byte) : (s.withPort ws).draws = s.draws := rfl
@[simp] theorem State.withPort_inputs (ws : List Byte) : (s.withPort ws).inputs = s.inputs := rfl
@[simp] theorem State.withPort_uport (ws : List Byte) : (s.withPort ws).uport = ws := rfl
@[simp] theorem State.withPort_opClk (ws : List Byte) : (s.withPort ws).opClk = s.opClk := rfl
@[simp] theorem State.withPort_opDat (ws : List Byte) : (s.withPort ws).opDat = s.opDat := rfl
@[simp] theorem State.withPort_result (ws : List Byte) : (s.withPort ws).result = s.result := rfl
@[simp] theorem State.withPort_responses (ws : List Byte) : (s.withPort ws).responses = s.responses := rfl

end Sys2Proof.Machine
end

