-- ==== Sys2Proof/Laws/Ops.lean ====
section
/-! SUPPORT. One lemma per shared operation that says everything it does: the draw, the event lists performed whole, the bits of a
unit, ACQUIRE's three cases, RELEASE, the end of a command, and the preconditions. -/

namespace Sys2Proof.Machine

variable (s : State)

/-! ### The outcome of a step -/

theorem andThen_eq_next (r : Result) (f : State → Result) (t : State) :
    andThen r f = .next t ↔ ∃ u, r = .next u ∧ f u = .next t := by
  cases r <;> simp [andThen]

/-! ### Preconditions -/

section Preconditions
variable (f : State → Result)

theorem State.whenBound_of_bound (h : s.bound = true) : s.whenBound f = f s := if_pos h

theorem State.whenBound_of_unbound (h : s.bound = false) : s.whenBound f = .refused .boundPrecondition := by
  simp [State.whenBound, h]

theorem State.whenUnbound_of_unbound (h : s.bound = false) : s.whenUnbound f = f s := by
  simp [State.whenUnbound, h]

theorem State.whenIdleLines_of_high (h : s.bound = true) (hc : s.sclLine = true) (hd : s.mSda = true) :
    s.whenIdleLines f = f s := by
  simp [State.whenIdleLines, State.whenBound, State.sdaLine, h, hc, hd]

theorem State.whenClockLow_of_low (h : s.bound = true) (hc : s.sclLine = false) : s.whenClockLow f = f s := by
  simp [State.whenClockLow, State.whenBound, h, hc]

end Preconditions

/-! ### The end of a command -/

theorem State.whenFree_of_free (f : State → State) (h : s.busy = false) : s.whenFree f = f s.accept := by
  simp [State.whenFree, h]

theorem State.whenFree_of_busy (f : State → State) (h : s.busy = true) : s.whenFree f = s := if_pos h

/-- Accepting and completing at once is completing: `BUSY` is 0 again (R93). -/
theorem State.complete_accept (w : Word) : s.accept.complete w = s.complete w := rfl

/-! ### The bus environment -/

/-- A draw takes the next level and leaves the later ones in order. -/
theorem State.slaveAt_afterDraw (k : Nat) : s.afterDraw.slaveAt k = s.slaveAt (k + 1) := by
  simp only [State.slaveAt, State.afterDraw, List.getElem?_tail]
  cases s.slave[k + 1]? <;> simp [Nat.add_assoc, Nat.add_comm 1 k]

/-- The levels still to come depend on the script and the counter alone. -/
theorem State.slaveAt_congr (t : State) (k : Nat) (h1 : t.slave = s.slave) (h2 : t.draws = s.draws) :
    t.slaveAt k = s.slaveAt k := by
  simp only [State.slaveAt, h1, h2]

/-! ### One pin event -/

/-- READ_DATA inside an ACK slot samples the environment's draw (R77, R19). -/
theorem State.readData_inside (h : s.inAckSlot = true) :
    s.readData =
      { s with
        sdaDir := .input, result := .level s.slaveNow, slave := s.slave.tail, draws := s.draws + 1
        trace := s.trace ++ [.rd s.slaveNow] } := if_pos h

/-- READ_DATA outside an ACK slot samples 1 and draws nothing (R77, R19). -/
theorem State.readData_outside (h : s.inAckSlot = false) :
    s.readData = { s with sdaDir := .input, result := .level true, trace := s.trace ++ [.rd true] } :=
  if_neg (by simp [h])

/-- The engine's READ_DATA: the sample goes to `ACK_BIT` (R91). -/
theorem State.performEvent_readData :
    s.performEvent .readData =
      { s with
        sdaDir := .input, result := .level s.slaveNow, slave := s.slave.tail, draws := s.draws + 1, ackBit := s.slaveNow
        trace := s.trace ++ [.rd s.slaveNow] } := rfl

/-! ### ACQUIRE and RELEASE -/

section Pair
variable (c d : PinId)

/-- The state after a successful ACQUIRE (R73). -/
abbrev State.acquired : State :=
  { s with
    clkPin := c, datPin := d, sclO := true, sclDir := .output, sdaO := true, sdaDir := .output, bound := true
    reserved := PinSet.insert d (PinSet.insert c s.reserved), trace := s.trace ++ [.claim c d] }

/-- The state after a RELEASE with a pair held (R74). -/
abbrev State.released : State :=
  { s with
    sclDir := .input, sclO := true, sdaDir := .input, sdaO := true, bound := false
    reserved := PinSet.erase s.datPin (PinSet.erase s.clkPin s.reserved), trace := s.trace ++ [.unclaim s.clkPin s.datPin] }

theorem State.acquire_invalidPin (h : ¬(c ∈ s.usable ∧ d ∈ s.usable)) : s.acquire c d = (s, .invalidPin) := by
  simp [State.acquire, State.gpioUsable, h]

theorem State.acquire_pinBusy (hc : c ∈ s.usable) (hd : d ∈ s.usable) (h : c ∈ s.reserved ∨ d ∈ s.reserved ∨ c = d) :
    s.acquire c d = (s, .pinBusy) := by
  by_cases hcr : c ∈ s.reserved
  · simp [State.acquire, State.gpioUsable, State.gpioReserve, hc, hd, hcr]
  · have hdr : d ∈ PinSet.insert c s.reserved := by
      rw [PinSet.mem_insert]
      rcases h with h | h | h
      · exact absurd h hcr
      · exact .inl h
      · exact .inr h.symm
    simp [State.acquire, State.gpioUsable, State.gpioReserve, State.gpioUnreserve, hc, hd, hcr, hdr,
      PinSet.erase_insert _ _ hcr]

theorem State.acquire_success (hc : c ∈ s.usable) (hd : d ∈ s.usable) (hcr : c ∉ s.reserved) (hdr : d ∉ s.reserved)
    (hne : c ≠ d) : s.acquire c d = (s.acquired c d, .success) := by
  have hdi : d ∉ PinSet.insert c s.reserved := by
    rw [PinSet.mem_insert, not_or]
    exact ⟨hdr, fun e => hne e.symm⟩
  simp [State.acquire, State.gpioUsable, State.gpioReserve, State.claim, State.emit, hc, hd, hcr, hdi]

/-- ACQUIRE ends in one of three ways (R73). -/
theorem State.acquire_cases :
    (¬(c ∈ s.usable ∧ d ∈ s.usable) ∧ s.acquire c d = (s, .invalidPin)) ∨
    ((c ∈ s.usable ∧ d ∈ s.usable) ∧ (c ∈ s.reserved ∨ d ∈ s.reserved ∨ c = d) ∧ s.acquire c d = (s, .pinBusy)) ∨
    ((c ∈ s.usable ∧ d ∈ s.usable) ∧ c ∉ s.reserved ∧ d ∉ s.reserved ∧ c ≠ d ∧
      s.acquire c d = (s.acquired c d, .success)) := by
  by_cases hu : c ∈ s.usable ∧ d ∈ s.usable
  · by_cases hb : c ∈ s.reserved ∨ d ∈ s.reserved ∨ c = d
    · exact .inr (.inl ⟨hu, hb, s.acquire_pinBusy c d hu.1 hu.2 hb⟩)
    · simp only [not_or] at hb
      exact .inr (.inr ⟨hu, hb.1, hb.2.1, hb.2.2, s.acquire_success c d hu.1 hu.2 hb.1 hb.2.1 hb.2.2⟩)
  · exact .inl ⟨hu, s.acquire_invalidPin c d hu⟩

theorem State.release_unbound (h : s.bound = false) : s.release = s := by
  simp [State.release, h]

theorem State.release_bound (h : s.bound = true) : s.release = s.released := by
  simp [State.release, h, State.emit, State.gpioUnreserve]

theorem State.mem_acquired_reserved (p : PinId) :
    p ∈ (s.acquired c d).reserved ↔ p ∈ s.reserved ∨ p = c ∨ p = d := by
  simp [PinSet.mem_insert, or_assoc]

theorem State.mem_released_reserved (p : PinId) :
    p ∈ s.released.reserved ↔ p ∈ s.reserved ∧ p ≠ s.clkPin ∧ p ≠ s.datPin := by
  simp [PinSet.mem_erase, and_assoc]

end Pair

/-! ### The event lists, performed whole -/

theorem State.performList_start :
    s.performList startList =
      { s with
        sdaDir := .output, sdaO := false, sclDir := .output, sclO := false, sub := 0#3, trace := s.trace ++ startEvents } := by
  simp [State.performList, State.restart, startList, State.performEvent, State.driveClock, State.driveData, State.settle, State.emit,
    startEvents]

theorem State.performList_bit (b : Level) :
    s.performList (bitList b) =
      { s with
        sdaDir := .output, sdaO := b, sclDir := .output, sclO := false, sub := 0#3, trace := s.trace ++ bitEvents b } := by
  simp [State.performList, State.restart, bitList, State.performEvent, State.driveClock, State.driveData, State.settle, State.emit,
    bitEvents]

theorem State.performList_ack :
    s.performList ackList =
      { s with
        sdaDir := .input, sdaO := true, sclDir := .output, sclO := false, sub := 0#3, ackBit := s.slaveNow
        result := .level s.slaveNow, slave := s.slave.tail, draws := s.draws + 1
        trace := s.trace ++ ackEvents s.slaveNow } := by
  simp [State.performList, State.restart, ackList, State.performEvent, State.driveClock, State.driveData, State.settle, State.emit,
    State.drawSda, State.sampleSda, State.returnSample, State.afterDraw, State.latchAck, State.sdaLine, State.mSda, contribution, ackEvents,
    State.slaveNow, State.slaveAt]

theorem State.performList_stop :
    s.performList stopList =
      { s with
        sdaDir := .output, sdaO := true, sclDir := .output, sclO := true, sub := 0#3, trace := s.trace ++ stopEvents } := by
  simp [State.performList, State.restart, stopList, State.performEvent, State.driveClock, State.driveData, State.settle, State.emit,
    stopEvents]

/-! ### The bits of a unit -/

/-- One bit of a unit: the bit slot of `SHIFT[7]`, then the shift. -/
theorem State.sendUnitBit_eq :
    s.sendUnitBit =
      { s with
        sdaDir := .output, sdaO := s.nextBit, sclDir := .output, sclO := false, sub := 0#3
        trace := s.trace ++ bitEvents s.nextBit, shift := shiftLeft s.shift, bitCnt := s.bitCnt - 1#4 } := by
  rw [State.sendUnitBit, State.performList_bit]; rfl

theorem getLsbD_shiftLeft (u : Byte) (i : Nat) : (shiftLeft u).getLsbD (i + 1) = (decide (i < 7) && u.getLsbD i) := by
  simp only [shiftLeft, BitVec.getLsbD_append, BitVec.getLsbD_extractLsb']
  have h1 : ¬ i + 1 < 1 := by omega
  simp [h1]

/-- Eight shifts leave nothing of the unit. -/
theorem shiftLeft_eight (u : Byte) :
    shiftLeft (shiftLeft (shiftLeft (shiftLeft (shiftLeft (shiftLeft (shiftLeft (shiftLeft u))))))) = 0#8 := by
  revert u; decide +revert

end Sys2Proof.Machine
end

