-- ==== Sys2Proof/Laws/PerInstr.lean ====
section
/-! SUPPORT. Statements made per instruction, about its syntax: the encoded word fits a row of the opcode table (R60, R65), and a
well-formed command carries the payload its word asks for (R59). -/

namespace Sys2Proof.Laws.EncodingMatchesTable

/-- The word of `i` fits a row of its port's table; a well-formed command's payload has the length its word says. -/
def Statement (i : Instr) : Prop :=
  match encode i with
  | .host w payload =>
    (∃ r ∈ hostPatterns, r.fits w = true) ∧
      (i.WellFormed → payload.length = if hostOp w = 0x3#4 then (hostLen w).toNat else 0)
  | .micro w => ∃ r ∈ microPatterns, r.fits w = true

theorem busInit (clk dat : PinId) : Statement (.busInit clk dat) :=
  ⟨⟨_, .head _, (fits_busInitPattern _).2 ⟨hostZero_busInitWord clk dat, hostOp_busInitWord clk dat⟩⟩, fun _ => by
    rw [if_neg]
    · rfl
    · rw [show hostOp (busInitWord clk dat) = 0x1#4 from hostOp_busInitWord clk dat]; decide⟩

theorem busDeinit : Statement .busDeinit :=
  ⟨⟨_, .tail _ (.head _), (fits_busDeinitPattern _).2 (by decide)⟩, fun _ => by decide⟩

theorem transferWrite (addr : Addr) (len : Len) (payload : List Byte) : Statement (.transferWrite addr len payload) :=
  ⟨⟨_, .tail _ (.tail _ (.head _)), (fits_transferWritePattern _).2
      ⟨hostZero_transferWriteWord addr len, hostOp_transferWriteWord addr len, hostDir_transferWriteWord addr len⟩⟩,
    fun h => by
      rw [if_pos (hostOp_transferWriteWord addr len), show hostLen (transferWriteWord addr len) = len from
        hostLen_transferWriteWord addr len]
      simpa [Instr.WellFormed, Instr.payloadMatches] using h⟩

/-- The micro-operation words of the table (R65). -/
theorem fits_microWord (uop : BitVec 4) (l : Level)
    (h : 0x1#4 ≤ uop ∧ uop ≤ 0xD#4 ∧ (l = true → uop = 0x3#4 ∨ uop = 0x4#4 ∨ uop = 0x9#4)) :
    ∃ r ∈ microPatterns, r.fits (microWord uop l) = true := by
  revert uop l
  decide

theorem acquire : Statement .acquire := fits_microWord 0x1#4 false (by decide)
theorem release : Statement .release := fits_microWord 0x2#4 false (by decide)
theorem driveClock (l : Level) : Statement (.driveClock l) := fits_microWord 0x3#4 l (by simp)
theorem driveData (l : Level) : Statement (.driveData l) := fits_microWord 0x4#4 l (by simp)
theorem readData : Statement .readData := fits_microWord 0x5#4 false (by decide)
theorem readClock : Statement .readClock := fits_microWord 0x6#4 false (by decide)
theorem settle : Statement .settle := fits_microWord 0x7#4 false (by decide)
theorem start : Statement .start := fits_microWord 0x8#4 false (by decide)
theorem sendBit (b : Level) : Statement (.sendBit b) := fits_microWord 0x9#4 b (by simp)
theorem sendAddress : Statement .sendAddress := fits_microWord 0xA#4 false (by decide)
theorem sendByte : Statement .sendByte := fits_microWord 0xB#4 false (by decide)
theorem sampleAck : Statement .sampleAck := fits_microWord 0xC#4 false (by decide)
theorem stop : Statement .stop := fits_microWord 0xD#4 false (by decide)

end Sys2Proof.Laws.EncodingMatchesTable
end

