-- ==== Sys2Proof/Laws/Step.lean ====
section
/-! SUPPORT. What a step can do, said once: the cases of `step`, what a sequencer step keeps, and the runs of `runSteps`. -/

namespace Sys2Proof.Machine

variable (s t : State)

/-! ### Runs -/

theorem runSteps_zero : runSteps 0 s = .next s := rfl

theorem runSteps_succ (n : Nat) (h : step s = .next t) : runSteps (n + 1) s = runSteps n t := by
  simp only [runSteps, Host.Core.run, core]
  rw [h]

/-- A run of `m + n` steps is a run of `m`, then a run of `n`. -/
theorem runSteps_add (m n : Nat) (h : runSteps m s = .next t) : runSteps (m + n) s = runSteps n t := by
  induction m generalizing s with
  | zero => simp only [runSteps_zero, Host.Outcome.next.injEq] at h; subst h; rw [Nat.zero_add]
  | succ m ih =>
    rw [Nat.succ_add]
    cases hs : step s with
    | next u => rw [runSteps_succ s u _ hs] at h ⊢; exact ih u h
    | fault e => simp [runSteps, Host.Core.run, core, hs] at h
    | refused e => simp [runSteps, Host.Core.run, core, hs] at h

/-- A property that every step keeps holds at the end of every run. -/
theorem runSteps_induction (P : State → Prop) (hstep : ∀ u v, P u → step u = .next v → P v) (n : Nat) (h0 : P s)
    (h : runSteps n s = .next t) : P t := by
  induction n generalizing s with
  | zero => simp only [runSteps_zero, Host.Outcome.next.injEq] at h; exact h ▸ h0
  | succ n ih =>
    cases hs : step s with
    | next u => rw [runSteps_succ s u _ hs] at h; exact ih u (hstep s u h0 hs) h
    | fault e => simp [runSteps, Host.Core.run, core, hs] at h
    | refused e => simp [runSteps, Host.Core.run, core, hs] at h

/-! ### Recorded runs (R134) -/

theorem recordedRun_succ (n : Nat) (r : RunRecord) (h : step s = .next t) :
    recordedRun (n + 1) s r = recordedRun n t (r.after s t) := by
  simp only [recordedRun, h]

/-- A recorded run ends in the state of the run itself. -/
theorem recordedRun_state (n : Nat) (r r' : RunRecord) (h : recordedRun n s r = some (t, r')) : runSteps n s = .next t := by
  induction n generalizing s r with
  | zero => simp only [recordedRun, Option.some.injEq, Prod.mk.injEq] at h; rw [runSteps_zero, h.1]
  | succ n ih =>
    simp only [recordedRun] at h
    cases hs : step s with
    | next u => rw [runSteps_succ s u n hs]; rw [hs] at h; exact ih u _ h
    | fault e => simp [hs] at h
    | refused e => simp [hs] at h

/-- `FAULT` once 1 stays on the record, whatever comes after: such a run does not end. -/
theorem recordedRun_faulted (n : Nat) (r r' : RunRecord) (hr : r.faulted = true) (h : recordedRun n s r = some (t, r')) :
    r'.faulted = true := by
  induction n generalizing s r with
  | zero => simp only [recordedRun, Option.some.injEq, Prod.mk.injEq] at h; rw [← h.2, hr]
  | succ n ih =>
    simp only [recordedRun] at h
    split at h
    · exact ih _ _ (by simp [RunRecord.after, hr]) h
    · cases h
    · cases h

/-- What an ended run is: everything `endedObservation` asks for, and what it shows. -/
theorem endedObservation_eq_some (n : Nat) (o : Observation) :
    endedObservation n s = some o ↔
      ∃ u r, recordedRun n s s.runRecord = some (u, r) ∧ u.portsQuiet = true ∧ r.answered = true ∧ r.faulted = false ∧
        u.observation = o := by
  simp only [endedObservation]
  cases h : recordedRun n s s.runRecord with
  | none => simp
  | some p => obtain ⟨u, r⟩ := p; simp [and_assoc]

/-! ### The cases of a step -/

theorem State.sequencerEnabled_iff : s.sequencerEnabled = true ↔ s.busy = true ∧ s.faultFlag = false ∧ s.fsm ≠ .idle := by
  simp [State.sequencerEnabled, and_assoc]

theorem State.not_sequencerEnabled_of_free (h : s.busy = false) : s.sequencerEnabled = false := by
  simp [State.sequencerEnabled, h]

/-- The environment's action reached: not deferred by an enabled sequencer. -/
theorem State.agentStep_eq_act (n : Nat) (a : Action) (rest : List Pending) (hu : s.uport = [])
    (hi : s.inputs = { after := n, action := a } :: rest) (hn : n = 0 ∨ s.sequencerEnabled = false) :
    step s = s.act a rest := by
  simp only [step, State.agentStep, hu, State.environmentStep, hi]
  rw [if_neg]
  rcases hn with h | h <;> simp [h]

/-- Everything a step can do, with nothing on the internal port: a sequencer step (with one action deferred once more), a wait or
a dropped abandonment, an accepted command, an abandonment, a reset, a change of `T_SETTLE`, or another user's reservation. -/
theorem step_cases (hu : s.uport = []) (h : step s = .next t) :
    (s.sequencerEnabled = true ∧ ∃ xs, (s.withInputs xs).sequencerStep = .next t) ∨
    (∃ xs, t = s.withInputs xs) ∨
    (∃ n w p rest, s.inputs = { after := n, action := .command w p } :: rest ∧ s.busy = false ∧
      (s.withInputs rest).acceptCommand w p = .next t) ∨
    (∃ n rest, s.inputs = { after := n, action := .abandon } :: rest ∧ s.inProgress = true ∧ t = (s.withInputs rest).abandon) ∨
    (∃ n rest, s.inputs = { after := n, action := .reset } :: rest ∧ (n = 0 ∨ s.sequencerEnabled = false) ∧
      t = (s.withInputs rest).resetBlock) ∨
    (∃ rest d, t = { s with inputs := rest, tSettle := d }) ∨
    (∃ rest p, s.busy = false ∧ t = (s.withInputs rest).platformReserve p) ∨
    (∃ rest p, s.busy = false ∧ (s.bound = true → p ≠ s.clkPin ∧ p ≠ s.datPin) ∧ t = (s.withInputs rest).gpioUnreserve p) := by
  have block : s.blockStep = .next t →
      (s.sequencerEnabled = true ∧ ∃ xs, (s.withInputs xs).sequencerStep = .next t) ∨ ∃ xs, t = s.withInputs xs := by
    intro hb
    simp only [State.blockStep] at hb
    split at hb
    · exact .inl ⟨‹_›, s.inputs, hb⟩
    · exact .inr ⟨s.inputs, Host.Outcome.next.inj hb.symm⟩
  cases hi : s.inputs with
  | nil =>
    simp only [step, State.agentStep, hu, State.environmentStep, hi] at h
    rcases block h with h | h
    · exact .inl h
    · exact .inr (.inl h)
  | cons p rest =>
    by_cases hd : s.sequencerEnabled = true ∧ p.after ≠ 0
    · simp only [step, State.agentStep, hu, State.environmentStep, hi] at h
      rw [if_pos (by simp [hd])] at h
      exact .inl ⟨hd.1, _, h⟩
    · have hn : p.after = 0 ∨ s.sequencerEnabled = false := by
        by_cases h0 : p.after = 0
        · exact .inl h0
        · exact .inr (by simpa using fun he => hd ⟨he, h0⟩)
      rw [s.agentStep_eq_act p.after p.action rest hu hi hn] at h
      obtain ⟨n, a⟩ := p
      cases a <;> simp only [State.act] at h
      case command w q =>
        split at h
        · exact (block h).elim .inl fun hx => .inr (.inl hx)
        · exact .inr (.inr (.inl ⟨n, w, q, rest, rfl, Bool.eq_false_iff.2 ‹_›, h⟩))
      case abandon =>
        simp only [Host.Outcome.next.injEq] at h
        split at h
        · exact .inr (.inr (.inr (.inl ⟨n, rest, rfl, ‹_›, h.symm⟩)))
        · exact .inr (.inl ⟨rest, h.symm⟩)
      case reset =>
        simp only [Host.Outcome.next.injEq] at h
        exact .inr (.inr (.inr (.inr (.inl ⟨n, rest, rfl, hn, h.symm⟩))))
      case setSettle d =>
        simp only [Host.Outcome.next.injEq] at h
        exact .inr (.inr (.inr (.inr (.inr (.inl ⟨rest, d, h.symm⟩)))))
      case reserve q =>
        split at h
        · exact (block h).elim .inl fun hx => .inr (.inl hx)
        · simp only [Host.Outcome.next.injEq] at h
          exact .inr (.inr (.inr (.inr (.inr (.inr (.inl ⟨rest, q, Bool.eq_false_iff.2 ‹_›, h.symm⟩))))))
      case unreserve q =>
        split at h
        · exact (block h).elim .inl fun hx => .inr (.inl hx)
        · rename_i hb
          simp only [State.platformUnreserve] at h
          split at h
          · simp at h
          · rename_i hq
            simp only [Host.Outcome.next.injEq] at h
            refine .inr (.inr (.inr (.inr (.inr (.inr (.inr ⟨rest, q, by simpa using hb, ?_, h.symm⟩))))))
            intro hbd
            simpa [State.withInputs, hbd] using hq

/-! ### What a sequencer step keeps -/

/-- The registers that no sequencer step writes (R97). -/
def State.sameEnvironment (s t : State) : Prop :=
  t.bound = s.bound ∧ t.clkPin = s.clkPin ∧ t.datPin = s.datPin ∧ t.reqAddr = s.reqAddr ∧ t.reqDir = s.reqDir ∧
  t.reqLen = s.reqLen ∧ t.curSettle = s.curSettle ∧ t.faultFlag = s.faultFlag ∧ t.payload = s.payload ∧
  t.usable = s.usable ∧ t.reserved = s.reserved ∧ t.tSettle = s.tSettle ∧ t.inputs = s.inputs ∧ t.uport = s.uport ∧
  t.opClk = s.opClk ∧ t.opDat = s.opDat

theorem State.advance_keeps (h : s.advance = .next t) :
    s.sameEnvironment t ∧ t.ackBit = s.ackBit ∧ t.trace = s.trace ∧ t.draws = s.draws ∧ t.slave = s.slave := by
  simp only [State.advance] at h
  split at h
  · simp only [Host.Outcome.next.injEq] at h
    subst h
    simp [State.sameEnvironment]
  · simp only [State.transition, State.loadByte] at h
    split at h <;> (repeat' split at h) <;> cases h <;> exact ⟨by repeat' constructor, rfl, rfl, rfl, rfl⟩

/-- A sequencer step appends the event at its position, keeps the environment, and writes `ACK_BIT` in an ACK slot only. -/
theorem State.sequencerStep_keeps (h : s.sequencerStep = .next t) :
    s.sameEnvironment t ∧ (∃ e, t.trace = s.trace ++ [e]) ∧
    (t.ackBit = s.ackBit ∨ s.currentEvent = some .readData) := by
  simp only [State.sequencerStep, State.whenBound] at h
  split at h
  swap
  · simp at h
  split at h
  · simp at h
  rename_i op hop
  obtain ⟨h1, h2, h3, -, -⟩ := State.advance_keeps _ _ h
  refine ⟨?_, ?_, ?_⟩
  · cases op <;> exact h1
  · cases op <;> exact ⟨_, h3⟩
  · cases op with
    | readData => exact .inr hop
    | driveClock l => exact .inl h2
    | driveData l => exact .inl h2
    | readClock => exact .inl h2
    | settle => exact .inl h2

end Sys2Proof.Machine
end

