-- ==== Sys2Proof/Tests/Slice0.lean ====
section
/-! SUPPORT. Tests of one step each, with expected values taken from `spec/95_test_vectors.md` (the vector's name in each comment),
and the witnesses of the obligations' hypotheses. -/

namespace Sys2Proof.Tests

open Sys2Proof Sys2Proof.Machine Sys2Proof.Claims

/-! ### Small states -/

/-- A launch with pins 4, 5 and 17 usable, `r` reserved and the samples `v` to come. -/
def fresh (r : List PinId) (v : List Level) : State :=
  State.launch { usable := [4#12, 5#12, 17#12], reserved0 := r, tSettle := 10, slave := v }

/-- The pair (4, 17) held, the bus idle. -/
def held (v : List Level) : State :=
  { fresh [4#12, 17#12] v with bound := true, clkPin := 4#12, datPin := 17#12, sclDir := .output, sdaDir := .output }

/-- The pair held with SCL low and SDA low. -/
def low (v : List Level) : State := { held v with sclO := false, sdaO := false }

/-- Inside P1: the sequencer at `f`, `sub`, with `n` bits to send of `u` (the lines low). -/
def inside (f : Fsm) (sub : BitVec 3) (n : BitVec 4) (u : Byte) : State :=
  { low [false, false, false] with
    busy := true, fsm := f, sub := sub, bitCnt := n, shift := u, reqAddr := 0x3C#7, reqLen := 2#16
    payload := [0x00#8, 0xAE#8] }

/-- `s` with the action `a` coming after `n` sequencer steps. -/
def coming (s : State) (n : Nat) (a : Action) : State := { s with inputs := [{ after := n, action := a }] }

/-- What `f` sees in the next state, if there is one. -/
def seen {α : Type} (r : Result) (f : State → α) : Option α :=
  match r with
  | .next t => some (f t)
  | .fault _ => none
  | .refused _ => none

/-- Every line register, as (`SCL_O`, `SCL_DIR`, `SDA_O`, `SDA_DIR`). -/
def lines (s : State) : Level × Dir × Level × Dir := (s.sclO, s.sclDir, s.sdaO, s.sdaDir)

/-- The `DD` levels of a trace. -/
def ddLevels : List PinEvent → List Level
  | [] => []
  | .dd l :: es => l :: ddLevels es
  | .dc _ :: es => ddLevels es
  | .rd _ :: es => ddLevels es
  | .rc _ :: es => ddLevels es
  | .s :: es => ddLevels es
  | .claim _ _ :: es => ddLevels es
  | .unclaim _ _ :: es => ddLevels es

/-! ### Well-formedness (R59) -/

/-- One byte short, one byte long. -/
theorem test_wellformed_refuses_wrong_payload_length :
    ¬(Instr.transferWrite 0x3C#7 2#16 [0xAE#8]).WellFormed ∧ ¬(Instr.transferWrite 0x3C#7 0#16 [0xAE#8]).WellFormed ∧
    (Instr.transferWrite 0x3C#7 1#16 [0xAE#8]).WellFormed := by decide

/-! ### Decoding: words written out from R57, R60, R65 and the vectors H-1 to H-14 and section 2.2 -/

/-- H-1 to H-5. -/
theorem test_decode_host_words :
    decodeHost 0x01100401#32 [] = .instr (.busInit 4#12 17#12) ∧
    decodeHost 0x00000002#32 [] = .instr .busDeinit ∧
    decodeHost 0x00027803#32 [0x00#8, 0xAE#8] = .instr (.transferWrite 0x3C#7 2#16 [0x00#8, 0xAE#8]) ∧
    decodeHost 0x0000A003#32 [] = .instr (Instr.probe 0x50#7) ∧
    decodeHost 0x00034E03#32 [1#8, 2#8, 3#8] = .instr (.transferWrite 0x27#7 3#16 [1#8, 2#8, 3#8]) := by decide

/-- H-6, H-8. -/
theorem test_decode_largest_operands :
    decodeHost 0x0000FE03#32 [] = .instr (Instr.probe 0x7F#7) ∧
    decodeHost 0xFFFFFF01#32 [] = .instr (.busInit 4095#12 4095#12) := by decide

/-- H-7, by its fields. -/
theorem test_decode_largest_length : hostLen 0xFFFF0003#32 = 65535#16 ∧ hostAddr 0xFFFF0003#32 = 0#7 := by decide

/-- H-9 to H-12. -/
theorem test_decode_illegal_words :
    decodeHost 0x00027903#32 [] = .reject .illegalCommand ∧ decodeHost 0x00000000#32 [] = .reject .illegalCommand ∧
    decodeHost 0x00000012#32 [] = .reject .illegalCommand ∧ decodeHost 0x00000102#32 [] = .reject .illegalCommand := by
  decide

/-- H-13 at both ends, H-14. -/
theorem test_decode_illegal_operations :
    decodeHost 0x00000004#32 [] = .reject .illegalCommand ∧ decodeHost 0x0000000F#32 [] = .reject .illegalCommand ∧
    decodeHost 0x00000011#32 [] = .reject .illegalCommand := by decide

/-- R59: a legal word with a payload of the wrong length. -/
theorem test_decode_payload_mismatch :
    decodeHost 0x00027803#32 [0xAE#8] = .reject .payloadLengthMismatch ∧
    decodeHost 0x01100401#32 [0xAE#8] = .reject .payloadLengthMismatch := by decide

/-- Section 2.2. -/
theorem test_decode_micro_words :
    decodeMicro 0x10#8 = .instr .acquire ∧ decodeMicro 0x20#8 = .instr .release ∧
    decodeMicro 0x30#8 = .instr (.driveClock false) ∧ decodeMicro 0x31#8 = .instr (.driveClock true) ∧
    decodeMicro 0x40#8 = .instr (.driveData false) ∧ decodeMicro 0x41#8 = .instr (.driveData true) ∧
    decodeMicro 0x50#8 = .instr .readData ∧ decodeMicro 0x60#8 = .instr .readClock ∧ decodeMicro 0x70#8 = .instr .settle ∧
    decodeMicro 0x80#8 = .instr .start ∧ decodeMicro 0x90#8 = .instr (.sendBit false) ∧
    decodeMicro 0x91#8 = .instr (.sendBit true) ∧ decodeMicro 0xA0#8 = .instr .sendAddress ∧
    decodeMicro 0xB0#8 = .instr .sendByte ∧ decodeMicro 0xC0#8 = .instr .sampleAck ∧ decodeMicro 0xD0#8 = .instr .stop := by
  decide

/-- Section 2.2: the words that are none. -/
theorem test_decode_micro_none :
    ∀ w ∈ [0x00#8, 0x11#8, 0x32#8, 0x51#8, 0xE0#8, 0xF0#8], decodeMicro w = .reject .noMicroOperation := by decide

/-- H-1 and H-3, encoded. -/
theorem test_encode_words :
    encode (.busInit 4#12 17#12) = .host 0x01100401#32 [] ∧
    encode (.transferWrite 0x3C#7 2#16 [0x00#8, 0xAE#8]) = .host 0x00027803#32 [0x00#8, 0xAE#8] ∧
    encode (.sendBit true) = .micro 0x91#8 := by decide

/-- A table word with zero operand bytes. -/
theorem test_table_words :
    decodeTableWord 32 0x00010003 = some (.transferWrite 0#7 1#16 [0#8]) ∧ decodeTableWord 32 2 = some .busDeinit ∧
    decodeTableWord 8 0xD0 = some .stop ∧ decodeTableWord 8 0x11 = none ∧ decodeTableWord 16 0x10 = none := by decide

/-! ### Reset and STATUS (section 2.7) -/

theorem test_status_after_reset : (fresh [] []).status = 0x07C0#16 := by decide

/-- During P1 after step 57. -/
theorem test_status_after_ack_sampled :
    ({ held [] with
      sdaDir := .input, ackBit := false, fsm := .addressAck, busy := true } : State).status = 0x01D3#16 := by decide

/-! ### The Pin Control Layer (section 2.3) -/

/-- PC-1. -/
theorem test_acquire_success :
    seen (exec .acquire ((fresh [] []).latchOperands 4#12 17#12)) (fun t => (t.clkPin, t.datPin, lines t)) =
      some (4#12, 17#12, true, .output, true, .output) ∧
    seen (exec .acquire ((fresh [] []).latchOperands 4#12 17#12)) (fun t => (t.reserved, t.trace, t.result)) =
      some ([4#12, 17#12], [.claim 4#12 17#12], .code .success) := by decide

/-- PC-3, PC-4, PC-6, PC-7. -/
theorem test_acquire_errors :
    seen (exec .acquire ((fresh [] []).latchOperands 4#12 18#12)) (fun t => (t.result, t.reserved)) =
      some (.code .invalidPin, []) ∧
    seen (exec .acquire ((fresh [99#12] []).latchOperands 99#12 17#12)) (fun t => (t.result, t.reserved)) =
      some (.code .invalidPin, [99#12]) ∧
    seen (exec .acquire ((fresh [17#12] []).latchOperands 4#12 17#12)) (fun t => (t.result, t.reserved)) =
      some (.code .pinBusy, [17#12]) ∧
    seen (exec .acquire ((fresh [] []).latchOperands 4#12 4#12)) (fun t => (t.result, t.reserved)) =
      some (.code .pinBusy, []) := by decide

/-- PC-8, PC-10. -/
theorem test_release_held :
    seen (exec .release (low [])) lines = some (true, .input, true, .input) ∧
    seen (exec .release (low [])) (fun t => (t.bound, t.reserved, t.trace)) = some (false, [], [.unclaim 4#12 17#12]) := by
  decide

/-- PC-9. -/
theorem test_release_unbound :
    seen (exec .release (fresh [5#12] [])) (fun t => (t.bound, t.reserved, t.trace)) = some (false, [5#12], []) := by decide

/-- PC-11, PC-13. -/
theorem test_drive_clock :
    seen (exec (.driveClock false) (held [])) (fun t => (lines t, t.sclLine, t.trace)) =
      some ((false, .output, true, .output), false, [.dc false]) ∧
    seen (exec (.driveClock true) { low [] with sclDir := .input }) lines = some (true, .output, false, .output) := by decide

/-- PC-14, PC-15. -/
theorem test_drive_data :
    seen (exec (.driveData false) { held [] with sdaDir := .input }) (fun t => (lines t, t.trace)) =
      some ((true, .output, false, .output), [.dd false]) ∧
    seen (exec (.driveData true) (low [])) (fun t => (t.sdaLine true, t.sdaLine false)) = some (true, false) := by decide

/-- PC-16 and PC-18 in an ACK slot. -/
theorem test_read_data :
    seen (exec .readData { held [false] with fsm := .addressAck }) (fun t => (t.result, t.sdaDir, t.trace)) =
      some (.level false, .input, [.rd false]) ∧
    seen (exec .readData { low [true] with fsm := .dataAck }) (fun t => (t.result, t.sdaDir, t.ackBit)) =
      some (.level true, .input, true) := by decide

/-- R19: outside an ACK slot `SlaveSDA()` is 1 and nothing is drawn. -/
theorem test_read_data_outside_ack_slot :
    seen (exec .readData (low [false])) (fun t => (t.result, t.sdaDir, t.slave, t.trace)) =
      some (.level true, .input, [false], [.rd true]) := by decide

/-- PC-20. -/
theorem test_read_clock :
    seen (exec .readClock (low [])) (fun t => (t.result, t.sclDir, t.sclLine, t.trace)) =
      some (.level true, .input, true, [.rc true]) := by decide

/-- PC-21. -/
theorem test_settle :
    seen (exec .settle { low [] with curSettle := 0 }) (fun t => (lines t, t.trace)) =
      some ((false, .output, false, .output), [.s]) := by decide

/-! ### The protocol engine (section 2.4) -/

/-- PE-1. -/
theorem test_start :
    seen (exec .start (held [])) (fun t => (lines t, t.trace)) =
      some ((false, .output, false, .output), [.dd false, .s, .dc false, .s]) := by decide

/-- PE-2, PE-3. -/
theorem test_send_bit :
    seen (exec (.sendBit true) (low [])) (fun t => (lines t, t.trace)) =
      some ((false, .output, true, .output), [.dd true, .s, .dc true, .s, .dc false, .s]) ∧
    seen (exec (.sendBit false) (low [])) lines = some (false, .output, false, .output) := by decide

/-- Section 2.4, steps 4 to 10 of P1: inside a unit `SHIFT` and `BIT_CNT` advance. -/
theorem test_send_bit_inside_unit :
    seen (exec (.sendBit false) (inside .addressBits 0#3 7#4 0x78#8)) (fun t => (t.shift, t.bitCnt)) =
      some (0xF0#8, 6#4) := by decide

/-- PE-5, PE-6. -/
theorem test_send_address :
    seen (exec .sendAddress { low [] with reqAddr := 0x7F#7 }) (fun t => (ddLevels t.trace, t.trace.length)) =
      some ([true, true, true, true, true, true, true, false], 48) ∧
    seen (exec .sendAddress { low [] with reqAddr := 0x3C#7 }) (fun t => (ddLevels t.trace, t.shift, t.fsm)) =
      some ([false, true, true, true, true, false, false, false], 0#8, .directionBit) := by decide

/-- PE-8, PE-9. -/
theorem test_send_byte :
    seen (exec .sendByte { low [] with reqLen := 2#16, payload := [0x80#8, 0x01#8] })
      (fun t => (ddLevels t.trace, t.trace.length)) =
      some ([true, false, false, false, false, false, false, false], 48) ∧
    seen (exec .sendByte { low [] with reqLen := 2#16, byteIdx := 1#16, payload := [0x80#8, 0x01#8] })
      (fun t => (ddLevels t.trace, t.shift)) =
      some ([false, false, false, false, false, false, false, true], 0#8) := by decide

/-- PE-10, PE-11. -/
theorem test_sample_ack :
    seen (exec .sampleAck (low [false])) (fun t => (t.ackBit, lines t, t.trace)) =
      some (false, (false, .output, true, .input), [.dd true, .s, .dc true, .s, .rd false, .dc false, .s]) ∧
    seen (exec .sampleAck (low [true])) (fun t => (t.ackBit, t.sdaDir)) = some (true, .input) := by decide

/-- PE-12. -/
theorem test_stop :
    seen (exec .stop { low [] with sdaO := true, sdaDir := .input }) (fun t => (lines t, t.trace)) =
      some ((true, .output, true, .output), [.dd false, .s, .dc true, .s, .dd true, .s]) := by decide

/-! ### The host commands (section 2.5) -/

/-- HC-1, HC-2. -/
theorem test_bus_init :
    seen (exec (.busInit 4#12 17#12) (fresh [] [])) (fun t => (t.resp, t.status, t.trace)) =
      some (0x00000000#32, 0x04C1#16, [.claim 4#12 17#12]) ∧
    seen (exec (.busInit 5#12 6#12) (held [])) (fun t => (t.resp, t.status, t.clkPin)) =
      some (0x0000000E#32, 0x04C1#16, 4#12) := by decide

/-- HC-3, HC-4, HC-6. -/
theorem test_bus_init_errors :
    seen (exec (.busInit 99#12 17#12) (fresh [] [])) (fun t => (t.resp, t.status)) = some (0x00000003#32, 0x07C0#16) ∧
    seen (exec (.busInit 4#12 5#12) (fresh [5#12] [])) (fun t => (t.resp, t.reserved)) = some (0x00000004#32, [5#12]) ∧
    seen (exec (.busInit 99#12 99#12) (fresh [99#12] [])) (fun t => t.resp) = some 0x00000003#32 := by decide

/-- HC-8, HC-10. -/
theorem test_bus_deinit :
    seen (exec .busDeinit (held [])) (fun t => (t.resp, t.bound, t.reserved, t.trace)) =
      some (0x00000000#32, false, [], [.unclaim 4#12 17#12]) ∧
    seen (exec .busDeinit { held [] with faultFlag := true }) (fun t => (t.resp, t.bound, t.faultFlag)) =
      some (0x00000000#32, false, true) := by decide

/-- HC-11, and P1 after step 0 (section 2.4). -/
theorem test_transfer_write :
    seen (exec (.transferWrite 0x3C#7 1#16 [0xAE#8]) (fresh [] [])) (fun t => (t.resp, t.status)) =
      some (0x0000000E#32, 0x07C0#16) ∧
    seen (exec (.transferWrite 0x3C#7 2#16 [0x00#8, 0xAE#8]) (held []))
      (fun t => (t.fsm, t.bitCnt, t.sub, t.byteIdx, t.reqLen, t.busy)) =
      some (.start, 0#4, 0#3, 0#16, 2#16, true) := by decide

/-! ### The sequencer and the environment (sections 2.4, 2.5) -/

/-- P1, step 57 and step 59: the address ACK sampled, then byte 0 loaded. -/
theorem test_sequencer_ack_slot :
    seen (step { inside .addressAck 4#3 0#4 0#8 with sdaO := true, sclO := true })
      (fun t => (t.ackBit, t.sub, t.sdaDir, t.trace)) = some (false, 5#3, .input, [.rd false]) ∧
    seen (step { inside .addressAck 6#3 0#4 0#8 with ackBit := false }) (fun t => (t.fsm, t.bitCnt, t.shift, t.sub)) =
      some (.dataByteBits, 8#4, 0x00#8, 0#3) := by decide

/-- P3: a NACK at index 1 records `0x00010002`. -/
theorem test_sequencer_data_nack :
    seen (step { inside .dataAck 6#3 0#4 0#8 with ackBit := true, byteIdx := 1#16 }) (fun t => (t.fsm, t.pend)) =
      some (.stop, 0x00010002#32) := by decide

/-- HC-21: abandoned after step 4 of P1. -/
theorem test_abandon :
    seen (step (coming (inside .addressBits 0#3 7#4 0x78#8) 0 .abandon)) (fun t => (t.faultFlag, t.busy, t.status)) =
      some (true, false, 0x0429#16) := by decide

/-- HC-19, HC-22. -/
theorem test_illegal_command_and_reset :
    seen (step (coming (held []) 0 (.command 0x00000000#32 []))) (fun t => (t.resp, t.status)) =
      some (0x0000000F#32, 0x04C1#16) ∧
    seen (step (coming (low []) 0 .reset)) (fun t => (t.resp, t.status, t.trace)) = some (0x00000000#32, 0x07C0#16, []) := by
  decide

/-! ### The end of a run (R134) -/

/-- HC-1, HC-2: the last command answered; a command still to come. -/
theorem test_run_ends_with_the_last_response :
    (endedObservation 1 (coming (fresh [] []) 0 (.command 0x01100401#32 []))).map (fun o => (o.responses.map Response.word, o.trace)) =
      some ([0x00000000#32], [.claim 4#12 17#12]) ∧
    runEnded 0 (coming (fresh [] []) 0 (.command 0x01100401#32 [])) = false ∧ runEnded 1 (fresh [] []) = false := by decide

/-- R121, R134: a transfer dropped by a reset is not answered, and a run with an abandonment does not end, not even by a command
answered after the reset (P5). -/
theorem test_run_does_not_end_without_a_response :
    (let s : State := { held [] with
      inputs := [{ after := 0, action := .command 0x0000A003#32 [] }, { after := 1, action := .reset }] }
    runEnded 3 s = false) ∧
    (let s : State := { held [] with
      inputs := [{ after := 0, action := .command 0x0000A003#32 [] }, { after := 1, action := .abandon },
        { after := 0, action := .reset }, { after := 0, action := .command 0x01100401#32 [] }] }
    runEnded 5 s = false) := by decide

/-- R134: after a reset has dropped a transfer, the run ends with the response of the next and last command. -/
theorem test_run_ends_after_a_reset :
    let s : State := { held [] with
      inputs := [{ after := 0, action := .command 0x0000A003#32 [] }, { after := 1, action := .reset },
        { after := 0, action := .command 0x00000002#32 [] }] }
    runEnded 4 s = true := by decide

/-! ### Witnesses: what the hypotheses of the obligations ask for, met together, clause by clause -/

/-- The environment's next action is what `coming` puts there, for every statement about it. -/
theorem witness_coming (s : State) (n : Nat) (a : Action) (h : s.uport = []) :
    (coming s n a).uport = [] ∧ (coming s n a).inputs = { after := n, action := a } :: [] := ⟨h, rfl⟩

theorem witness_DecodeOfEncode :
    (Instr.transferWrite 0x7F#7 65535#16 (List.replicate 65535 0xFF#8)).WellFormed ∧ (Instr.probe 0#7).WellFormed ∧
    (Instr.busInit 4095#12 0#12).WellFormed := by
  refine ⟨?_, by decide, by decide⟩
  rw [Instr.WellFormed, Instr.payloadMatches, List.length_replicate]
  decide

theorem witness_EncodeOfDecode :
    decode (.host 0x00027803#32 [0x00#8, 0xAE#8]) = .instr (.transferWrite 0x3C#7 2#16 [0x00#8, 0xAE#8]) ∧
    decode (.micro 0x91#8) = .instr (.sendBit true) := by decide

theorem witness_IllegalExactlyOutsidePatterns :
    (∀ r ∈ hostPatterns, r.fits 0x00027903#32 = false) ∧ ∃ r ∈ hostPatterns, r.fits 0x00027803#32 = true := by decide

theorem witness_OpcodePatternsDisjoint :
    (⟨0x000001FF#32, 0x00000003#32⟩ : Pattern 32).fits 0xFFFFFE03#32 = true ∧
    (⟨0xFE#8, 0x30#8⟩ : Pattern 8).fits 0x31#8 = true := by decide

theorem witness_MicroWordsExactlyPatterns :
    decodeMicro 0xF0#8 = .reject .noMicroOperation ∧ ((fresh [] []).withPort [0xF0#8]).uport = [0xF0#8] := by decide

/-- A reset now during a transfer, and a reset that no sequencer step defers. -/
theorem witness_ResetActionRestoresRegisters :
    resetIsNext (coming (inside .start 0#3 0#4 0#8) 0 .reset) ∧ resetIsNext (coming (held []) 3 .reset) :=
  ⟨⟨rfl, 0, [], rfl, .inl rfl⟩, ⟨rfl, 3, [], rfl, .inr (by decide)⟩⟩

theorem witness_StepRunsMicroWord :
    ((held []).withPort [0x10#8]).uport = 0x10#8 :: [] ∧ decode (.micro 0x10#8) = .instr .acquire := by decide

theorem witness_StepRunsAcceptedCommand :
    (coming (held []) 0 (.command 0x00000002#32 [])).uport = [] ∧
    (coming (held []) 0 (.command 0x00000002#32 [])).busy = false ∧
    (coming (held []) 0 (.command 0x00000002#32 [])).inputs = { after := 0, action := .command 0x00000002#32 [] } :: [] ∧
    decode (.host 0x00000002#32 []) = .instr .busDeinit := by decide

theorem witness_IllegalCommandAnswered :
    (coming (held []) 0 (.command 0x00000012#32 [])).uport = [] ∧
    (coming (held []) 0 (.command 0x00000012#32 [])).busy = false ∧
    ∀ r ∈ hostPatterns, r.fits 0x00000012#32 = false := by decide

theorem witness_MismatchedPayloadRefused :
    ([] : List Byte).length ≠ (1#16).toNat ∧ hostOp 0x00017803#32 = 0x3#4 ∧ hostZero 0x00017803#32 = 0#4 ∧
    hostDir 0x00017803#32 = false ∧ ([] : List Byte).length ≠ (hostLen 0x00017803#32).toNat ∧
    (coming (held []) 0 (.command 0x00017803#32 [])).busy = false := by decide

theorem witness_CommandHeldWhileBusy :
    (coming (inside .start 0#3 0#4 0#8) 0 (.command 0x00000002#32 [])).sequencerEnabled = true ∧
    (coming (inside .start 0#3 0#4 0#8) 0 (.command 0x00000002#32 [])).uport = [] ∧
    (inside .start 0#3 0#4 0#8).busy = true ∧ ([] : List Byte).length = (0#16).toNat := by decide

theorem witness_StepIsSequencerStep :
    (inside .stop 5#3 0#4 0#8).uport = [] ∧ (inside .stop 5#3 0#4 0#8).inputs = [] ∧
    (inside .stop 5#3 0#4 0#8).sequencerEnabled = true ∧ (held []).uport = [] ∧ (held []).inputs = [] ∧
    (held []).sequencerEnabled = false := by decide

theorem witness_AbandonmentFreezesBlock :
    (coming (inside .start 0#3 0#4 0#8) 0 .abandon).uport = [] ∧
    (coming (inside .start 0#3 0#4 0#8) 0 .abandon).inputs = { after := 0, action := .abandon } :: [] ∧
    (coming (inside .start 0#3 0#4 0#8) 0 .abandon).busy = true ∧
    (coming (inside .start 0#3 0#4 0#8) 0 .abandon).fsm ≠ .idle ∧ (coming (held []) 0 .abandon).busy = false ∧
    ({ held [] with faultFlag := true } : State).busy = false := by decide

theorem witness_FetchWordRunsTableWord :
    decodeTableWord 32 0x00010003 = some (.transferWrite 0#7 1#16 [0#8]) ∧ (fresh [] []).busy = false ∧
    decodeTableWord 8 0xB0 = some .sendByte := by decide

theorem witness_RefusedOutsideBoundPrecondition : (fresh [] []).bound = false ∧ (held []).bound = true := by decide

theorem witness_RefusedOutsideLinePrecondition :
    (held []).bound = true ∧ (held []).sclLine = true ∧ (low []).sclLine = false ∧
    ({ held [] with sdaO := false } : State).mSda = false ∧ ({ held [] with sdaO := false } : State).sclLine = true := by decide

/-- The three results, each way into `PIN_BUSY` apart. -/
theorem witness_AcquireClaimsPairOrNothing :
    (fresh [] []).bound = false ∧ 99#12 ∉ (fresh [] []).usable ∧ 4#12 ∈ (fresh [4#12] []).usable ∧
    17#12 ∈ (fresh [4#12] []).usable ∧ 4#12 ∈ (fresh [4#12] []).reserved ∧ 17#12 ∉ (fresh [4#12] []).reserved ∧
    4#12 ∉ (fresh [] []).reserved ∧ 17#12 ∉ (fresh [] []).reserved ∧ (4#12 : PinId) ≠ 17#12 := by decide

theorem witness_ReleaseReturnsBothPins :
    (fresh [] []).bound = false ∧ (held []).bound = true ∧ PinSet.wf (held []).reserved := by decide

/-- The drives, READ_CLOCK, SETTLE, START, SEND_ADDRESS, SAMPLE_ACK and STOP. -/
theorem witness_bound_operations :
    (held []).bound = true ∧ (low []).bound = true ∧ (low []).sclLine = false ∧ (held []).sclLine = true ∧
    (held []).mSda = true := by decide

/-- READ_DATA: both kinds of ACK slot, and a phase that is none. -/
theorem witness_ReadDataSamplesEnvironment :
    (inside .addressAck 4#3 0#4 0#8).bound = true ∧ (inside .addressAck 4#3 0#4 0#8).fsm = .addressAck ∧
    (inside .dataAck 4#3 0#4 0#8).fsm = .dataAck ∧ (held []).bound = true ∧ (held []).fsm ≠ .addressAck ∧
    (held []).fsm ≠ .dataAck := by decide

/-- Inside a unit at both ends of `BIT_CNT`, outside one by its phase, outside one by its count. -/
theorem witness_SendBitClocksOneBit :
    (inside .addressBits 0#3 7#4 0#8).sclLine = false ∧ (inside .addressBits 0#3 7#4 0#8).bound = true ∧
    ((inside .dataByteBits 0#3 1#4 0#8).fsm ∈ [Fsm.addressBits, .directionBit, .dataByteBits] ∧
      (inside .dataByteBits 0#3 1#4 0#8).bitCnt ≠ 0#4) ∧
    (inside .stop 0#3 1#4 0#8).fsm ∉ [Fsm.addressBits, .directionBit, .dataByteBits] ∧
    (inside .dataByteBits 0#3 0#4 0#8).bitCnt = 0#4 := by decide

/-- The last byte there is, and the first there is not. -/
theorem witness_SendByteSendsPayloadByte :
    let s : State := { inside .dataByteBits 0#3 8#4 0#8 with byteIdx := 1#16 }
    s.bound = true ∧ s.sclLine = false ∧ s.byteIdx.toNat < s.reqLen.toNat ∧ s.payload[s.byteIdx.toNat]? = some 0xAE#8 ∧
    ¬({ s with byteIdx := 2#16 } : State).byteIdx.toNat < s.reqLen.toNat := by decide

theorem witness_BusInitOutcomes :
    (fresh [] []).busy = false ∧ (fresh [] []).faultFlag = false ∧ (fresh [] []).bound = false ∧
    ({ fresh [] [] with faultFlag := true } : State).faultFlag = true ∧ (held []).bound = true ∧
    99#12 ∉ (fresh [] []).usable ∧ 4#12 ∈ (fresh [] []).usable ∧ 17#12 ∈ (fresh [] []).usable ∧
    17#12 ∈ (fresh [17#12] []).reserved ∧ 4#12 ∉ (fresh [] []).reserved ∧ 17#12 ∉ (fresh [] []).reserved := by decide

theorem witness_BusDeinitReleasesAndSucceeds :
    (fresh [] []).busy = false ∧ (fresh [] []).bound = false ∧ (held []).busy = false ∧ (held []).bound = true := by decide

theorem witness_TransferWriteAccepted :
    (held []).busy = false ∧ ([] : List Byte).length = (0#16).toNat ∧ (held []).faultFlag = false ∧
    (held []).bound = true ∧ (fresh [] []).bound = false ∧ ({ held [] with faultFlag := true } : State).faultFlag = true := by
  decide

/-- The last position of a list, `IDLE`, and the first position past a list. -/
theorem witness_SequencerStepIsMicroOperation :
    (inside .dataAck 6#3 0#4 0#8).bound = true ∧ (inside .dataAck 6#3 0#4 0#8).fsm ≠ .idle ∧
    (inside .dataAck 6#3 0#4 0#8).sub.toNat ≤ (inside .dataAck 6#3 0#4 0#8).fsm.last ∧
    (inside .idle 0#3 0#4 0#8).fsm = .idle ∧ (inside .start 4#3 0#4 0#8).fsm.last < (inside .start 4#3 0#4 0#8).sub.toNat := by
  decide

theorem witness_PositionMovesInsideList :
    (inside .stop 4#3 0#4 0#8).sub.toNat < (inside .stop 4#3 0#4 0#8).fsm.last := by decide

/-- The clauses at the ends of the bit counts and of the payload. -/
theorem witness_SequencerTransitions :
    (inside .start 3#3 0#4 0#8).sub.toNat = (inside .start 3#3 0#4 0#8).fsm.last ∧
    (inside .addressBits 5#3 2#4 0#8).sub.toNat = (inside .addressBits 5#3 2#4 0#8).fsm.last ∧
    1 < (inside .addressBits 5#3 2#4 0#8).bitCnt.toNat ∧ (inside .addressBits 5#3 1#4 0#8).bitCnt.toNat = 1 ∧
    (inside .directionBit 5#3 1#4 0#8).sub.toNat = (inside .directionBit 5#3 1#4 0#8).fsm.last ∧
    (inside .addressAck 6#3 0#4 0#8).sub.toNat = (inside .addressAck 6#3 0#4 0#8).fsm.last ∧
    (inside .addressAck 6#3 0#4 0#8).ackBit = true ∧
    ({ inside .addressAck 6#3 0#4 0#8 with ackBit := false, reqLen := 0#16 } : State).reqLen = 0#16 ∧
    0 < (inside .addressAck 6#3 0#4 0#8).reqLen.toNat ∧ (inside .addressAck 6#3 0#4 0#8).payload[0]? = some 0x00#8 ∧
    (inside .dataByteBits 5#3 8#4 0#8).sub.toNat = (inside .dataByteBits 5#3 8#4 0#8).fsm.last ∧
    (inside .stop 5#3 0#4 0#8).sub.toNat = (inside .stop 5#3 0#4 0#8).fsm.last := by decide

/-- The DATA_ACK clauses: not the last byte, the last byte. -/
theorem witness_SequencerTransitions_dataAck :
    let s : State := { inside .dataAck 6#3 0#4 0#8 with ackBit := false }
    s.sub.toNat = s.fsm.last ∧ s.byteIdx.toNat + 1 < s.reqLen.toNat ∧ s.payload[s.byteIdx.toNat + 1]? = some 0xAE#8 ∧
    ({ s with byteIdx := 1#16 } : State).byteIdx.toNat + 1 = s.reqLen.toNat ∧ (inside .dataAck 6#3 0#4 0#8).ackBit = true := by
  decide

theorem witness_PrimitiveIsItsSteps :
    (∃ u, sequencerAlone { inside .start 0#3 0#4 0#8 with sclO := true, sdaO := true } ∧
      exec .start { inside .start 0#3 0#4 0#8 with sclO := true, sdaO := true } = .next u) ∧
    (∃ u, sequencerAlone (inside .addressAck 0#3 0#4 0#8) ∧ exec .sampleAck (inside .addressAck 0#3 0#4 0#8) = .next u) ∧
    (∃ u, sequencerAlone (inside .dataAck 0#3 0#4 0#8) ∧ exec .sampleAck (inside .dataAck 0#3 0#4 0#8) = .next u) ∧
    ∃ u, sequencerAlone (inside .stop 0#3 0#4 0#8) ∧ exec .stop (inside .stop 0#3 0#4 0#8) = .next u :=
  ⟨⟨_, ⟨rfl, rfl, rfl⟩, rfl⟩, ⟨_, ⟨rfl, rfl, rfl⟩, rfl⟩, ⟨_, ⟨rfl, rfl, rfl⟩, rfl⟩,
    ⟨_, ⟨rfl, rfl, rfl⟩, rfl⟩⟩

theorem witness_UnitIsItsSteps :
    ((inside .addressBits 0#3 7#4 0x78#8).shift = 0x3C#7 ++ BitVec.ofBool false ∧
      ∃ u, sequencerAlone (inside .addressBits 0#3 7#4 0x78#8) ∧
        exec .sendAddress (inside .addressBits 0#3 7#4 0x78#8) = .next u) ∧
    ((inside .dataByteBits 0#3 8#4 0#8).payload[0]? = some 0x00#8 ∧
      ∃ u, sequencerAlone (inside .dataByteBits 0#3 8#4 0#8) ∧ exec .sendByte (inside .dataByteBits 0#3 8#4 0#8) = .next u) :=
  ⟨⟨by decide, _, ⟨rfl, rfl, rfl⟩, rfl⟩, ⟨by decide, _, ⟨rfl, rfl, rfl⟩, rfl⟩⟩

theorem ready_held (v : List Level) : readyAlone (held v) := ⟨rfl, rfl, rfl, rfl, rfl⟩

/-- TransferRunsAsTraceOf and TransfersAreStateless: an accepted probe and an accepted transfer of two bytes, and two ready states
with the same samples to come. -/
theorem witness_TransferRunsAsTraceOf :
    readyAlone (held [false]) ∧ (∃ t, exec (.transferWrite 0x50#7 0#16 []) (held [false]) = .next t) ∧
    (∃ t, exec (.transferWrite 0x3C#7 2#16 [0x00#8, 0xAE#8]) (held [false]) = .next t) ∧
    readyAlone { held [false] with byteIdx := 7#16, resp := 0x1#32 } ∧
    ∀ k, ({ held [false] with byteIdx := 7#16, resp := 0x1#32 } : State).slaveAt k = (held [false]).slaveAt k :=
  ⟨ready_held _, ⟨_, rfl⟩, ⟨_, rfl⟩, ⟨rfl, rfl, rfl, rfl, rfl⟩, fun _ => rfl⟩

theorem witness_TransferEventCounts :
    (List.replicate 65535 (0#8 : Byte)).length ≤ 65535 ∧ ([] : List Byte).length ≤ 65535 :=
  ⟨by rw [List.length_replicate], by decide⟩

/-- Each outcome: NACK of the address, of the last byte, and none. -/
theorem witness_FirstNackDecidesOutcome :
    (fun k => decide (k = 0)) 0 = true ∧
    ((∀ j, j ≤ 1 → (fun k => decide (k = 2)) j = false) ∧ (fun k => decide (k = 2)) (1 + 1) = true) ∧
    ∀ j, j ≤ [0x11#8, 0x22#8].length → (fun _ : Nat => false) j = false := by decide

/-- A NACK of byte 0 with different bytes after it, and of the address. -/
theorem witness_BytesAfterNackUnread :
    ([0x11#8, 0x22#8] : List Byte).take 1 = ([0x11#8, 0x33#8] : List Byte).take 1 ∧
    (∃ j, j ≤ 1 ∧ (fun k => decide (k = 1)) j = true) ∧ ([] : List Byte).take 0 = ([0x33#8] : List Byte).take 0 :=
  ⟨rfl, ⟨1, le_refl 1, rfl⟩, rfl⟩

/-- The invariant inside a transfer, at the start of the address unit of P1. -/
theorem witness_Inv_inside : Inv (inside .addressBits 0#3 7#4 0x78#8) where
  noInjectedWord := rfl
  usableWf := by decide
  reservedWf := by decide
  pairHeld := by decide
  unboundUndriven := by decide
  busyInTransfer := by decide
  freeIsIdle := by decide
  positionLegal := by decide
  linesPlaced := by decide
  payloadAttached := by decide
  writesOnly := rfl

/-- StepKeepsInvariant, NoFaultUnderInvariant and EveryTransferAnswers: a state of P1 and a step from it. -/
theorem witness_StepKeepsInvariant :
    Inv (inside .addressBits 0#3 7#4 0x78#8) ∧ sequencerAlone (inside .addressBits 0#3 7#4 0x78#8) ∧
    ∃ t, step (inside .addressBits 0#3 7#4 0x78#8) = .next t :=
  ⟨witness_Inv_inside, ⟨rfl, rfl, rfl⟩, _, rfl⟩

/-- IdleBusReleased and HeldPairStaysReserved: one step from a launch accepts `bus_init 4, 17`. -/
theorem witness_IdleBusReleased :
    ∃ t, runSteps 1 (coming (fresh [] []) 0 (.command 0x01100401#32 [])) = .next t ∧ t.fsm = .idle ∧ t.bound = true ∧
      t.faultFlag = false :=
  ⟨_, rfl, rfl, rfl, rfl⟩

theorem witness_OnlyResetClearsFault :
    ∃ t, step (coming { held [] with faultFlag := true } 0 .reset) = .next t ∧ t.faultFlag = false := ⟨_, rfl, rfl⟩

theorem witness_TraceOnlyGrows :
    (∃ t, step (inside .start 0#3 0#4 0#8) = .next t) ∧ ∃ t, (inside .start 3#3 0#4 0#8).sequencerStep = .next t :=
  ⟨⟨_, rfl⟩, ⟨_, rfl⟩⟩

theorem witness_AckBitWrittenOnlyInAckSlot :
    ∃ t, step { inside .dataAck 4#3 0#4 0#8 with sclO := true } = .next t ∧
      t.ackBit ≠ (inside .dataAck 4#3 0#4 0#8).ackBit :=
  ⟨_, rfl, by decide⟩

theorem witness_BoundChangesByCommandOnly :
    (∃ t, step (coming (fresh [] []) 0 (.command 0x01100401#32 [])) = .next t ∧ t.bound ≠ (fresh [] []).bound) ∧
    ∃ t, step (coming (held []) 0 (.command 0x00000002#32 [])) = .next t ∧ t.bound ≠ (held []).bound :=
  ⟨⟨_, rfl, by decide⟩, ⟨_, rfl, by decide⟩⟩

theorem witness_SettleDurationCaptured :
    (coming (inside .start 0#3 0#4 0#8) 0 (.setSettle 7)).uport = [] ∧ (coming (held []) 5 (.setSettle 7)).sequencerEnabled = false ∧
    ∃ t, (inside .start 0#3 0#4 0#8).sequencerStep = .next t :=
  ⟨rfl, by decide, _, rfl⟩

theorem witness_OtherUsersWaitWhileBusy :
    (coming (inside .start 0#3 0#4 0#8) 0 (.reserve 5#12)).sequencerEnabled = true ∧
    (coming (held []) 0 (.reserve 5#12)).busy = false ∧
    ¬((coming (held []) 0 (.unreserve 5#12)).bound = true ∧ ((5#12 : PinId) = 4#12 ∨ (5#12 : PinId) = 17#12)) ∧
    (coming (held []) 0 (.unreserve 17#12)).bound = true ∧ (coming (held []) 0 (.unreserve 17#12)).datPin = 17#12 := by decide

end Sys2Proof.Tests
end

section
/-! SUPPORT. What acceptance of a command and the actions of other platform users can do, said once; later proofs take a step apart by
these and by `step_cases`. -/

namespace Sys2Proof.Machine

open Sys2Proof.Claims

variable {s t : State}

/-! ### RELEASE, in either state of `BOUND` -/

@[simp] theorem State.release_busy (s : State) : s.release.busy = s.busy := by
  unfold State.release; split <;> rfl
@[simp] theorem State.release_ackBit (s : State) : s.release.ackBit = s.ackBit := by
  unfold State.release; split <;> rfl

/-! ### The host commands on a free block -/

/-- A format H word spells a host command, never a micro-operation (R60). -/
theorem decodeHost_instr {w : Word} {payload : List Byte} {i : Instr} (h : decodeHost w payload = .instr i) :
    (∃ c d, i = .busInit c d) ∨ i = .busDeinit ∨ ∃ a n p, i = .transferWrite a n p := by
  have check : ∀ {ok : Bool} {j : Instr}, withPayloadCheck ok j = .instr i → i = j := by
    intro ok j hj
    cases ok
    · cases hj
    · exact (Decoded.instr.inj hj).symm
  simp only [decodeHost] at h
  split at h
  · cases h
  split at h
  · exact .inl ⟨_, _, check h⟩
  split at h
  · split at h
    · exact .inr (.inl (check h))
    · cases h
  split at h
  · split at h
    · cases h
    · exact .inr (.inr ⟨_, _, _, check h⟩)
  · cases h

/-- Acceptance answers an illegal word, or performs one of the three host commands (R93, R61). -/
theorem State.acceptCommand_cases {w : Word} {payload : List Byte} (h : s.acceptCommand w payload = .next t) :
    t = s.accept.reject .illegalCommand ∨
    (∃ c d, decodeHost w payload = .instr (.busInit c d) ∧ execBusInit c d s = .next t) ∨
    (decodeHost w payload = .instr .busDeinit ∧ execBusDeinit s = .next t) ∨
    ∃ a n p, decodeHost w payload = .instr (.transferWrite a n p) ∧ execTransferWrite a n p s = .next t := by
  simp only [State.acceptCommand] at h
  split at h
  next i hd =>
    rcases decodeHost_instr hd with ⟨c, d, rfl⟩ | rfl | ⟨a, n, p, rfl⟩
    · exact .inr (.inl ⟨c, d, hd, h⟩)
    · exact .inr (.inr (.inl ⟨hd, h⟩))
    · exact .inr (.inr (.inr ⟨a, n, p, hd, h⟩))
  next => exact .inl (Host.Outcome.next.inj h).symm
  next => cases h
  next => cases h

/-- BUS_INIT on a free block: a response only, ACQUIRE's error as the response, or the pair taken over (R94). -/
theorem execBusInit_cases {c d : PinId} (hb : s.busy = false) (h : execBusInit c d s = .next t) :
    (∃ r, t = s.complete r) ∨ (∃ r, t = (s.latchOperands c d).complete r) ∨
    (s.bound = false ∧ s.faultFlag = false ∧ (c ∈ s.usable ∧ d ∈ s.usable) ∧ c ≠ d ∧
      ∃ r, t = ((s.latchOperands c d).acquired c d).complete r) := by
  simp only [execBusInit, s.whenFree_of_free _ hb, Host.Outcome.next.injEq] at h
  subst h
  split
  next => exact .inl ⟨_, rfl⟩
  next hfb =>
    obtain ⟨hf, hbd⟩ : s.faultFlag = false ∧ s.bound = false := by simpa using hfb
    rcases (s.accept.latchOperands c d).acquire_cases c d with ⟨-, ha⟩ | ⟨-, -, ha⟩ | ⟨hu, -, -, hne, ha⟩
    · exact .inr (.inl ⟨_, by rw [ha]; rfl⟩)
    · exact .inr (.inl ⟨_, by rw [ha]; rfl⟩)
    · exact .inr (.inr ⟨hbd, hf, hu, hne, _, by rw [ha]; rfl⟩)

/-- BUS_DEINIT on a free block: RELEASE and a response (R95). -/
theorem execBusDeinit_of_free (hb : s.busy = false) :
    execBusDeinit s = .next (s.release.complete (codeWord .success)) := by
  simp only [execBusDeinit, s.whenFree_of_free _ hb]
  cases hbd : s.bound with
  | false => rw [s.release_unbound hbd, s.accept.release_unbound hbd]; rfl
  | true => rw [s.release_bound hbd, s.accept.release_bound hbd]; rfl

/-- TRANSFER_WRITE on a free block: a response only, or the transfer begun (R96). -/
theorem execTransferWrite_cases {a : Addr} {n : Len} {p : List Byte} (hb : s.busy = false)
    (h : execTransferWrite a n p s = .next t) :
    (∃ r, t = s.complete r) ∨
    (s.bound = true ∧ s.faultFlag = false ∧ p.length = n.toNat ∧ t = s.accept.beginTransfer a n p) := by
  simp only [execTransferWrite] at h
  split at h
  next hl =>
    simp only [s.whenFree_of_free _ hb, Host.Outcome.next.injEq] at h
    subst h
    split
    next => exact .inl ⟨_, rfl⟩
    next hfb =>
      obtain ⟨hf, hbd⟩ : s.faultFlag = false ∧ s.bound = true := by simpa using hfb
      exact .inr ⟨hbd, hf, hl, rfl⟩
  next => cases h

theorem State.acceptCommand_ackBit {w : Word} {p : List Byte} (hb : s.busy = false) (h : s.acceptCommand w p = .next t) :
    t.ackBit = s.ackBit := by
  rcases State.acceptCommand_cases h with rfl | ⟨c, d, -, hi⟩ | ⟨-, hi⟩ | ⟨a, n, q, -, hi⟩
  · rfl
  · rcases execBusInit_cases hb hi with ⟨r, rfl⟩ | ⟨r, rfl⟩ | ⟨-, -, -, -, r, rfl⟩ <;> rfl
  · cases (execBusDeinit_of_free hb).symm.trans hi
    exact s.release_ackBit
  · rcases execTransferWrite_cases hb hi with ⟨r, rfl⟩ | ⟨-, -, -, rfl⟩ <;> rfl

/-- The two commands that write `BOUND`, each from one state of it (R94, R95). -/
theorem State.acceptCommand_bound {w : Word} {p : List Byte} (hb : s.busy = false) (h : s.acceptCommand w p = .next t)
    (hne : t.bound ≠ s.bound) :
    (s.bound = false ∧ ∃ c d, decodeHost w p = .instr (.busInit c d)) ∨
    (s.bound = true ∧ decodeHost w p = .instr .busDeinit) := by
  rcases State.acceptCommand_cases h with rfl | ⟨c, d, hd, hi⟩ | ⟨hd, hi⟩ | ⟨a, n, q, -, hi⟩
  · exact absurd rfl hne
  · rcases execBusInit_cases hb hi with ⟨r, rfl⟩ | ⟨r, rfl⟩ | ⟨hbd, -⟩
    · exact absurd rfl hne
    · exact absurd rfl hne
    · exact .inl ⟨hbd, c, d, hd⟩
  · cases (execBusDeinit_of_free hb).symm.trans hi
    cases hbd : s.bound with
    | false =>
      rw [s.release_unbound hbd] at hne
      exact absurd rfl hne
    | true => exact .inr ⟨rfl, hd⟩
  · rcases execTransferWrite_cases hb hi with ⟨r, rfl⟩ | ⟨-, -, -, rfl⟩ <;> exact absurd rfl hne

/-! ### Other platform users (R33) -/

/-- A reservation changes `RESERVED` only, and adds exactly its pin. -/
theorem State.platformReserve_eq (s : State) (p : PinId) :
    ∃ r, s.platformReserve p = { s with reserved := r } ∧ (PinSet.wf s.reserved → PinSet.wf r) ∧
      ∀ q, q ∈ r ↔ q ∈ s.reserved ∨ q = p := by
  by_cases hp : p ∈ s.reserved
  · refine ⟨s.reserved, by simp [State.platformReserve, State.gpioReserve, hp], id, fun q => ⟨.inl, ?_⟩⟩
    rintro (h | rfl)
    exacts [h, hp]
  · exact ⟨PinSet.insert p s.reserved, by simp [State.platformReserve, State.gpioReserve, hp], PinSet.wf_insert p _,
      fun q => PinSet.mem_insert p q _⟩

theorem State.blockStep_of_enabled (h : s.sequencerEnabled = true) : s.blockStep = s.sequencerStep := if_pos h

theorem step_reserve {p : PinId} {rest : List Pending} (hu : s.uport = [])
    (hi : s.inputs = { after := 0, action := .reserve p } :: rest) :
    step s = if s.busy then s.blockStep else .next ((s.withInputs rest).platformReserve p) :=
  s.agentStep_eq_act 0 _ rest hu hi (.inl rfl)

theorem step_unreserve {p : PinId} {rest : List Pending} (hu : s.uport = [])
    (hi : s.inputs = { after := 0, action := .unreserve p } :: rest) :
    step s = if s.busy then s.blockStep else (s.withInputs rest).platformUnreserve p :=
  s.agentStep_eq_act 0 _ rest hu hi (.inl rfl)

/-! ### The steps that can write `ACK_BIT` or `BOUND` -/

/-- Apart from the sequencer, an accepted command and a reset, no step writes `ACK_BIT` or `BOUND`. -/
theorem step_writes (hu : s.uport = []) (h : step s = .next t) :
    (s.sequencerEnabled = true ∧ ∃ xs, (s.withInputs xs).sequencerStep = .next t) ∨
    (∃ n w p rest, s.inputs = { after := n, action := .command w p } :: rest ∧ s.busy = false ∧
      (s.withInputs rest).acceptCommand w p = .next t) ∨
    resetIsNext s ∨ (t.ackBit = s.ackBit ∧ t.bound = s.bound) := by
  rcases step_cases s t hu h with
    hq | ⟨xs, rfl⟩ | hc | ⟨n, rest, -, -, rfl⟩ | ⟨n, rest, hi, hn, -⟩ | ⟨rest, d, rfl⟩ | ⟨rest, p, -, rfl⟩ |
    ⟨rest, p, -, -, rfl⟩
  · exact .inl hq
  · exact .inr (.inr (.inr ⟨rfl, rfl⟩))
  · exact .inr (.inl hc)
  · exact .inr (.inr (.inr ⟨rfl, rfl⟩))
  · exact .inr (.inr (.inl ⟨hu, n, rest, hi, hn⟩))
  · exact .inr (.inr (.inr ⟨rfl, rfl⟩))
  · obtain ⟨r, hr, -⟩ := (s.withInputs rest).platformReserve_eq p
    rw [hr]
    exact .inr (.inr (.inr ⟨rfl, rfl⟩))
  · exact .inr (.inr (.inr ⟨rfl, rfl⟩))

end Sys2Proof.Machine
end

section
/-! SUPPORT. The sequencer's positions: the event at each position and the lines there, the moves inside a list and the transitions
between lists, and what all of them keep (`spec/41_protocol_engine.md` R80 to R83, `spec/42_host_commands.md` R97). -/

namespace Sys2Proof.Machine

/-- What the invariant says of the sequencer of a block without a fault: its position, its counters and its lines. -/
structure State.Placed (s : State) : Prop where
  busyInside : s.busy = true ↔ s.fsm ≠ .idle
  subLegal : s.subLegal = true
  bitCntLegal : s.bitCntLegal = true
  lines : s.linesAtPosition = true
  index : s.indexLegal = true

/-- `SUB` one further, inside a list (R97). -/
def State.moved (s : State) : State := { s with sub := s.sub + 1#3 }

/-- How the lines that the sequencer's position names change from this position to the next, for the pin event between the two. -/
def State.scheduled (s : State) : PinOp → Prop
  | .driveClock l => clockAt s.fsm s.moved.sub.toNat = l ∧ s.moved.dataAt = s.dataAt
  | .driveData l => clockAt s.fsm s.moved.sub.toNat = clockAt s.fsm s.sub.toNat ∧ s.moved.dataAt = some (.output, l)
  | .readData =>
    clockAt s.fsm s.moved.sub.toNat = clockAt s.fsm s.sub.toNat ∧ s.dataAt = some (.output, true) ∧
      s.moved.dataAt = some (.input, true)
  | .readClock => False
  | .settle => clockAt s.fsm s.moved.sub.toNat = clockAt s.fsm s.sub.toNat ∧ s.moved.dataAt = s.dataAt

/-- Between two lists of a transfer, STOP's end left out: position 0 with SCL low. -/
structure State.BetweenLists (s : State) : Prop where
  busy : s.busy = true
  sub : s.sub = 0#3
  clockLow : s.sclDir = .output ∧ s.sclO = false

variable {s t : State} {op : PinOp}

/-! ### One pin event, one position further -/

section Fields
variable (s)

@[simp] theorem State.moved_fsm : s.moved.fsm = s.fsm := rfl
@[simp] theorem State.moved_sub : s.moved.sub = s.sub + 1#3 := rfl
@[simp] theorem State.moved_busy : s.moved.busy = s.busy := rfl
@[simp] theorem State.moved_bitCnt : s.moved.bitCnt = s.bitCnt := rfl
@[simp] theorem State.moved_shift : s.moved.shift = s.shift := rfl
@[simp] theorem State.moved_byteIdx : s.moved.byteIdx = s.byteIdx := rfl
@[simp] theorem State.moved_reqLen : s.moved.reqLen = s.reqLen := rfl
@[simp] theorem State.moved_pend : s.moved.pend = s.pend := rfl
@[simp] theorem State.moved_ackBit : s.moved.ackBit = s.ackBit := rfl

variable (op)

@[simp] theorem State.performEvent_fsm : (s.performEvent op).fsm = s.fsm := by cases op <;> rfl
@[simp] theorem State.performEvent_sub : (s.performEvent op).sub = s.sub := by cases op <;> rfl
@[simp] theorem State.performEvent_busy : (s.performEvent op).busy = s.busy := by cases op <;> rfl
@[simp] theorem State.performEvent_bitCnt : (s.performEvent op).bitCnt = s.bitCnt := by cases op <;> rfl
@[simp] theorem State.performEvent_shift : (s.performEvent op).shift = s.shift := by cases op <;> rfl
@[simp] theorem State.performEvent_byteIdx : (s.performEvent op).byteIdx = s.byteIdx := by cases op <;> rfl
@[simp] theorem State.performEvent_reqLen : (s.performEvent op).reqLen = s.reqLen := by cases op <;> rfl
@[simp] theorem State.performEvent_pend : (s.performEvent op).pend = s.pend := by cases op <;> rfl

end Fields

/-- Of the engine's pin events only SAMPLE_ACK's writes `ACK_BIT` (R91). -/
theorem State.performEvent_ackBit (h : op ≠ .readData) : (s.performEvent op).ackBit = s.ackBit := by
  cases op
  case readData => exact absurd rfl h
  all_goals rfl

theorem State.advance_inside (hlt : s.sub.toNat < s.fsm.last) : s.advance = .next s.moved := if_pos hlt

theorem State.advance_atEnd (hlt : ¬ s.sub.toNat < s.fsm.last) : s.advance = s.restart.transition := if_neg hlt

/-! ### The event lists, position by position -/

theorem bitVec3_cases (n : BitVec 3) :
    n = 0#3 ∨ n = 1#3 ∨ n = 2#3 ∨ n = 3#3 ∨ n = 4#3 ∨ n = 5#3 ∨ n = 6#3 ∨ n = 7#3 := by
  revert n; decide

theorem Fsm.last_le (f : Fsm) : f.last ≤ 6 := by cases f <;> decide

/-- The event lists agree with the table of lines: checked at each position of each list (R87, R88, R91, R92). -/
theorem State.scheduled_of_currentEvent (he : s.currentEvent = some op) (hlt : s.sub.toNat < s.fsm.last) : s.scheduled op := by
  simp only [State.currentEvent, State.eventList] at he
  cases hf : s.fsm
  all_goals
    simp only [hf, Fsm.last] at he hlt
    rcases bitVec3_cases s.sub with hs | hs | hs | hs | hs | hs | hs | hs
  all_goals
    simp [hs, startList, bitList, ackList, stopList] at he hlt
  all_goals
    subst he
    simp [State.scheduled, State.dataAt, State.nextBit, clockAt, hf, hs]

/-- The only event that samples SDA is position 4 of an ACK slot (R91). -/
theorem State.ackSlot_of_readData (he : s.currentEvent = some .readData) :
    (s.fsm = .addressAck ∨ s.fsm = .dataAck) ∧ s.sub = 4#3 := by
  simp only [State.currentEvent, State.eventList] at he
  cases hf : s.fsm
  all_goals
    simp only [hf] at he
    rcases bitVec3_cases s.sub with hs | hs | hs | hs | hs | hs | hs | hs
  all_goals
    simp [hs, startList, bitList, ackList, stopList] at he
  all_goals
    simp [hs]

/-- The last event of every list is a settle (R82). -/
theorem State.currentEvent_last (hi : s.fsm ≠ .idle) (hs : s.sub.toNat = s.fsm.last) : s.currentEvent = some .settle := by
  simp only [State.currentEvent, State.eventList, hs]
  cases hf : s.fsm
  case idle => exact absurd hf hi
  all_goals rfl

/-! ### The lines and counters inside a list -/

theorem State.linesAtPosition_iff :
    s.linesAtPosition = true ↔
      s.sclDir = .output ∧ s.sclO = clockAt s.fsm s.sub.toNat ∧
        ∀ d l, s.dataAt = some (d, l) → s.sdaDir = d ∧ s.sdaO = l := by
  rcases h : s.dataAt with _ | ⟨d, l⟩
  · simp [State.linesAtPosition, h]
  · have hall : (∀ d' l', (d, l) = (d', l') → s.sdaDir = d' ∧ s.sdaO = l') ↔ s.sdaDir = d ∧ s.sdaO = l :=
      ⟨fun H => H d l rfl, fun H d' l' e => by cases e; exact H⟩
    simp only [State.linesAtPosition, h, Bool.and_eq_true, beq_iff_eq, and_assoc, Option.some.injEq, hall]

theorem State.dataAt_congr (hf : t.fsm = s.fsm) (hs : t.sub = s.sub) (hu : t.shift = s.shift) : t.dataAt = s.dataAt := by
  simp only [State.dataAt, State.nextBit, hf, hs, hu]

/-- A pin event inside a list leaves the lines as the next position says. -/
theorem State.linesAtPosition_moved (hl : s.linesAtPosition = true) (he : s.currentEvent = some op)
    (hlt : s.sub.toNat < s.fsm.last) : (s.performEvent op).moved.linesAtPosition = true := by
  obtain ⟨hdir, hclk, hdat⟩ := State.linesAtPosition_iff.1 hl
  have hsch := State.scheduled_of_currentEvent he hlt
  have hd : (s.performEvent op).moved.dataAt = s.moved.dataAt := State.dataAt_congr (by simp) (by simp) (by simp)
  have hc : clockAt (s.performEvent op).moved.fsm (s.performEvent op).moved.sub.toNat = clockAt s.fsm s.moved.sub.toNat := by
    simp
  rw [State.linesAtPosition_iff, hc, hd]
  cases op with
  | driveClock l =>
    obtain ⟨hnext, hsame⟩ := hsch
    exact ⟨rfl, hnext.symm, hsame ▸ hdat⟩
  | driveData l =>
    obtain ⟨hsame, hnext⟩ := hsch
    refine ⟨hdir, hclk.trans hsame.symm, fun d l h => ?_⟩
    cases hnext.symm.trans h
    exact ⟨rfl, rfl⟩
  | readData =>
    obtain ⟨hsame, hnow, hnext⟩ := hsch
    refine ⟨hdir, hclk.trans hsame.symm, fun d l h => ?_⟩
    cases hnext.symm.trans h
    exact ⟨rfl, (hdat _ _ hnow).2⟩
  | readClock => exact hsch.elim
  | settle =>
    obtain ⟨hclkSame, hdatSame⟩ := hsch
    exact ⟨hdir, hclk.trans hclkSame.symm, hdatSame ▸ hdat⟩

/-- `ACK_BIT` is written in an ACK slot only, where `BYTE_IDX` and `PEND` do not depend on it. -/
theorem State.indexLegal_moved (hi : s.indexLegal = true) (he : s.currentEvent = some op) :
    (s.performEvent op).moved.indexLegal = true := by
  by_cases ho : op = .readData
  · subst ho
    obtain ⟨hf | hf, -⟩ := State.ackSlot_of_readData he <;> simpa [State.indexLegal, hf] using hi
  · simpa [State.indexLegal, State.outcomeRecorded, State.performEvent_ackBit ho] using hi

/-- Inside a list: the event, then the position one further (R97). -/
theorem State.Placed.moved (h : s.Placed) (he : s.currentEvent = some op) (hlt : s.sub.toNat < s.fsm.last) :
    (s.performEvent op).moved.Placed where
  busyInside := by simpa using h.busyInside
  subLegal := by
    have h6 := s.fsm.last_le
    have hsub : (s.sub + 1#3).toNat = s.sub.toNat + 1 := by bv_omega
    simpa [State.subLegal, hsub] using hlt
  bitCntLegal := by simpa [State.bitCntLegal] using h.bitCntLegal
  lines := State.linesAtPosition_moved h.lines he hlt
  index := State.indexLegal_moved h.index he

/-! ### The transitions between lists -/

/-- After START the lines at position 0 need nothing but SCL low. -/
theorem State.BetweenLists.placed (h : s.BetweenLists) (hf : s.fsm ≠ .idle ∧ s.fsm ≠ .start) (hn : s.bitCntLegal = true)
    (hx : s.indexLegal = true) : s.Placed := by
  have hlines : clockAt s.fsm s.sub.toNat = false ∧ s.dataAt = none := by
    simp only [State.dataAt, h.sub]
    cases hp : s.fsm
    case idle => exact absurd hp hf.1
    case start => exact absurd hp hf.2
    all_goals exact ⟨rfl, rfl⟩
  refine ⟨⟨fun _ => hf.1, fun _ => h.busy⟩, by simp [State.subLegal, h.sub], hn, ?_, hx⟩
  exact State.linesAtPosition_iff.2 ⟨h.clockLow.1, h.clockLow.2.trans hlines.1.symm, by simp [hlines.2]⟩

/-- The entry to the bits of a payload byte (R80, R97). -/
theorem State.BetweenLists.loadByte {i : Len} (h : s.BetweenLists) (hx : s.byteIdx.toNat < s.reqLen.toNat)
    (ht : s.loadByte i = .next t) : t.Placed := by
  simp only [State.loadByte] at ht
  split at ht <;> cases ht
  exact State.BetweenLists.placed ⟨h.busy, h.sub, h.clockLow⟩ ⟨nofun, nofun⟩ rfl (decide_eq_true hx)

/-- The entry to STOP with the outcome recorded (R80, R111). -/
theorem State.BetweenLists.enterStop {w : Word} (h : s.BetweenLists) (hn : s.bitCnt = 0#4)
    (hx : s.byteIdx.toNat ≤ s.reqLen.toNat) (ho : (s.enterStop w).outcomeRecorded = true) : (s.enterStop w).Placed :=
  State.BetweenLists.placed ⟨h.busy, h.sub, h.clockLow⟩ ⟨nofun, nofun⟩ (beq_iff_eq.2 hn)
    (Bool.and_eq_true_iff.2 ⟨decide_eq_true hx, ho⟩)

/-- Inside a unit with bits left, `BIT_CNT` keeps its range (R23). -/
theorem State.bitCntLegal_shiftOut (hn : s.bitCntLegal = true) (hf : s.fsm = .addressBits ∨ s.fsm = .dataByteBits)
    (hz : s.shiftOut.bitCnt ≠ 0#4) : s.shiftOut.bitCntLegal = true := by
  have hleft : ¬ s.bitCnt - 1#4 = 0#4 := hz
  rcases hf with hf | hf
  all_goals
    simp [State.bitCntLegal, hf] at hn ⊢
    bv_omega

theorem State.BetweenLists.transition_addressBits (h : s.BetweenLists) (hf : s.fsm = .addressBits) (hn : s.bitCntLegal = true)
    (hx : s.indexLegal = true) (ht : s.transition = .next t) : t.Placed := by
  simp only [State.transition, hf] at ht
  split at ht <;> cases ht
  split
  next =>
    have hx0 : s.byteIdx = 0#16 := by simpa [State.indexLegal, hf] using hx
    exact State.BetweenLists.placed ⟨h.busy, h.sub, h.clockLow⟩ ⟨nofun, nofun⟩ rfl (beq_iff_eq.2 hx0)
  next hz =>
    exact State.BetweenLists.placed ⟨h.busy, h.sub, h.clockLow⟩ (by simp [hf])
      (State.bitCntLegal_shiftOut hn (.inl hf) hz) hx

theorem State.BetweenLists.transition_dataByteBits (h : s.BetweenLists) (hf : s.fsm = .dataByteBits)
    (hn : s.bitCntLegal = true) (hx : s.indexLegal = true) (ht : s.transition = .next t) : t.Placed := by
  simp only [State.transition, hf] at ht
  split at ht <;> cases ht
  split
  next hz =>
    have hlt : s.byteIdx.toNat < s.reqLen.toNat := by simpa [State.indexLegal, hf] using hx
    exact State.BetweenLists.placed ⟨h.busy, h.sub, h.clockLow⟩ ⟨nofun, nofun⟩ (beq_iff_eq.2 hz) (decide_eq_true hlt)
  next hz =>
    exact State.BetweenLists.placed ⟨h.busy, h.sub, h.clockLow⟩ (by simp [hf])
      (State.bitCntLegal_shiftOut hn (.inr hf) hz) hx

theorem State.BetweenLists.transition_addressAck (h : s.BetweenLists) (hf : s.fsm = .addressAck) (hn : s.bitCntLegal = true)
    (hx : s.indexLegal = true) (ht : s.transition = .next t) : t.Placed := by
  have hn0 : s.bitCnt = 0#4 := by simpa [State.bitCntLegal, hf] using hn
  have hx0 : s.byteIdx = 0#16 := by simpa [State.indexLegal, hf] using hx
  simp only [State.transition, hf] at ht
  split at ht
  next hnack =>
    cases ht
    exact h.enterStop hn0 (by simp [hx0]) (by simp [State.outcomeRecorded, hnack, hx0])
  next hack =>
    split at ht
    next hlen =>
      cases ht
      exact h.enterStop hn0 (by simp [hx0]) (by simp [State.outcomeRecorded, hack, hx0, hlen])
    next hlen => exact h.loadByte (by bv_omega) ht

theorem State.BetweenLists.transition_dataAck (h : s.BetweenLists) (hf : s.fsm = .dataAck) (hn : s.bitCntLegal = true)
    (hx : s.indexLegal = true) (ht : s.transition = .next t) : t.Placed := by
  have hn0 : s.bitCnt = 0#4 := by simpa [State.bitCntLegal, hf] using hn
  have hlt : s.byteIdx.toNat < s.reqLen.toNat := by simpa [State.indexLegal, hf] using hx
  have hnext : s.nextByte.BetweenLists := ⟨h.busy, h.sub, h.clockLow⟩
  simp only [State.transition, hf] at ht
  split at ht
  next hnack =>
    cases ht
    exact h.enterStop hn0 hlt.le (by simp [State.outcomeRecorded, hnack, hlt])
  next hack =>
    split at ht
    · cases ht
    split at ht
    next hmore => exact hnext.loadByte hmore ht
    next hdone =>
      cases ht
      simp only [State.nextByte_byteIdx, State.nextByte_reqLen] at hdone
      have heq : s.byteIdx + 1#16 = s.reqLen := by bv_omega
      exact hnext.enterStop hn0 (by simp [heq]) (by simp [State.outcomeRecorded, hack, heq])

/-- The transitions that take no decision: after START and after the direction bit. -/
theorem State.BetweenLists.transition_addressUnit (h : s.BetweenLists) (hf : s.fsm = .start ∨ s.fsm = .directionBit)
    (hx : s.indexLegal = true) (ht : s.transition = .next t) : t.Placed := by
  rcases hf with hf | hf
  all_goals
    have hx0 : s.byteIdx = 0#16 := by simpa [State.indexLegal, hf] using hx
    simp only [State.transition, hf] at ht
    cases ht
    exact State.BetweenLists.placed ⟨h.busy, h.sub, h.clockLow⟩ ⟨nofun, nofun⟩ rfl (beq_iff_eq.2 hx0)

/-- Every list but STOP's ends with SCL low, after its last settle. -/
theorem State.Placed.betweenLists (h : s.Placed) (hs : s.sub.toNat = s.fsm.last) (hf : s.fsm ≠ .idle ∧ s.fsm ≠ .stop) :
    s.settle.restart.BetweenLists := by
  obtain ⟨hdir, hclk, -⟩ := State.linesAtPosition_iff.1 h.lines
  have hlow : clockAt s.fsm s.fsm.last = false := by
    cases hp : s.fsm
    case idle => exact absurd hp hf.1
    case stop => exact absurd hp hf.2
    all_goals rfl
  exact ⟨h.busyInside.2 hf.1, rfl, hdir, by rw [← hlow, ← hs]; exact hclk⟩

/-- The end of STOP: the idle bus (R81, R92). -/
theorem State.Placed.transition_stop (h : s.Placed) (hf : s.fsm = .stop) (hs : s.sub.toNat = s.fsm.last)
    (ht : s.settle.restart.transition = .next t) : t.Placed := by
  have hn0 : s.bitCnt = 0#4 := by simpa [State.bitCntLegal, hf] using h.bitCntLegal
  have hl := h.lines
  simp only [State.transition, State.restart_fsm, State.settle_fsm, hf] at ht
  cases ht
  refine ⟨⟨nofun, fun hi => absurd rfl hi⟩, rfl, beq_iff_eq.2 hn0, ?_, rfl⟩
  simpa [State.linesAtPosition, State.dataAt, clockAt, State.finishStop, hf, hs, Fsm.last] using hl

/-- The transition at the end of a list (R80, R97). -/
theorem State.Placed.transition (h : s.Placed) (hi : s.fsm ≠ .idle) (hs : s.sub.toNat = s.fsm.last)
    (ht : s.settle.restart.transition = .next t) : t.Placed := by
  by_cases hstop : s.fsm = .stop
  · exact h.transition_stop hstop hs ht
  have hb := h.betweenLists hs ⟨hi, hstop⟩
  cases hf : s.fsm
  case idle => exact absurd hf hi
  case stop => exact absurd hf hstop
  case start => exact hb.transition_addressUnit (.inl hf) h.index ht
  case directionBit => exact hb.transition_addressUnit (.inr hf) h.index ht
  case addressBits => exact hb.transition_addressBits hf h.bitCntLegal h.index ht
  case dataByteBits => exact hb.transition_dataByteBits hf h.bitCntLegal h.index ht
  case addressAck => exact hb.transition_addressAck hf h.bitCntLegal h.index ht
  case dataAck => exact hb.transition_dataAck hf h.bitCntLegal h.index ht

/-- A sequencer step: inside a list the position moves, at its end the transition is made. -/
theorem State.Placed.sequencerStep (h : s.Placed) (hi : s.fsm ≠ .idle) (hb : s.bound = true)
    (ht : s.sequencerStep = .next t) : t.Placed := by
  simp only [State.sequencerStep, s.whenBound_of_bound _ hb] at ht
  split at ht
  next => cases ht
  next op he =>
    by_cases hlt : s.sub.toNat < s.fsm.last
    · rw [State.advance_inside (by simpa using hlt)] at ht
      cases ht
      exact h.moved he hlt
    · have hlast : s.sub.toNat = s.fsm.last := le_antisymm (of_decide_eq_true h.subLegal) (not_lt.1 hlt)
      cases he.symm.trans (State.currentEvent_last hi hlast)
      rw [State.advance_atEnd (by simpa using hlt)] at ht
      exact h.transition hi hlast ht

end Sys2Proof.Machine
end

section
/-! SUPPORT. The invariant `Inv`: it holds at every launch, each action keeps it, and so every step and every run does. -/

namespace Sys2Proof.Machine

variable {s t : State}

theorem inv_launch (p : Launch) : Inv (State.launch p) where
  noInjectedWord := rfl
  usableWf := PinSet.wf_ofList _
  reservedWf := PinSet.wf_ofList _
  pairHeld := nofun
  unboundUndriven _ := rfl
  busyInTransfer := nofun
  freeIsIdle _ _ := rfl
  positionLegal _ := ⟨rfl, rfl⟩
  linesPlaced _ := nofun
  payloadAttached := nofun
  writesOnly := rfl

theorem Inv.withInputs (h : Inv s) (xs : List Pending) : Inv (s.withInputs xs) := { h with }

theorem Inv.withSettle (h : Inv s) (d : Nat) : Inv { s with tSettle := d } := { h with }

/-! ### The host commands -/

/-- In `IDLE` the position asks for the idle bus (R81). -/
theorem State.linesAtPosition_idle (hf : s.fsm = .idle) : s.linesAtPosition = s.linesIdle := by
  simp [State.linesAtPosition, State.linesIdle, State.dataAt, clockAt, hf, Bool.and_comm, Bool.and_left_comm]

theorem Inv.complete (h : Inv s) (hb : s.busy = false) (w : Word) : Inv (s.complete w) :=
  { h with
    busyInTransfer := nofun
    freeIsIdle := fun _ => h.freeIsIdle hb
    payloadAttached := nofun }

theorem Inv.latchOperands (h : Inv s) (c d : PinId) : Inv (s.latchOperands c d) := { h with }

theorem Inv.acquired (h : Inv s) (hb : s.busy = false) (hf : s.faultFlag = false) {c d : PinId}
    (hu : c ∈ s.usable ∧ d ∈ s.usable) (hne : c ≠ d) : Inv (s.acquired c d) :=
  { h with
    reservedWf := PinSet.wf_insert d _ (PinSet.wf_insert c _ h.reservedWf)
    pairHeld := fun _ =>
      ⟨(s.mem_acquired_reserved c d c).2 (.inr (.inl rfl)), (s.mem_acquired_reserved c d d).2 (.inr (.inr rfl)), hu.1, hu.2, hne⟩
    unboundUndriven := nofun
    busyInTransfer := fun hb' => absurd hb' (Bool.eq_false_iff.1 hb)
    linesPlaced := fun _ _ => State.linesAtPosition_idle (h.freeIsIdle hb hf) }

theorem Inv.released (h : Inv s) (hb : s.busy = false) : Inv s.released :=
  { h with
    reservedWf := PinSet.wf_erase _ _ (PinSet.wf_erase _ _ h.reservedWf)
    pairHeld := nofun
    unboundUndriven := fun _ => rfl
    busyInTransfer := fun hb' => absurd hb' (Bool.eq_false_iff.1 hb)
    linesPlaced := fun _ => nofun }

theorem Inv.release (h : Inv s) (hb : s.busy = false) : Inv s.release := by
  cases hbd : s.bound with
  | false => rwa [s.release_unbound hbd]
  | true => rw [s.release_bound hbd]; exact h.released hb

/-- START relies on the idle bus (R87). -/
theorem State.linesAtPosition_beginTransfer {a : Addr} {n : Len} {p : List Byte} (h : s.linesIdle = true) :
    (s.beginTransfer a n p).linesAtPosition = true := by
  simp only [State.linesIdle, Bool.and_eq_true, beq_iff_eq] at h
  obtain ⟨⟨⟨hso, hsd⟩, hdo⟩, hdd⟩ := h
  simp [State.linesAtPosition, State.beginTransfer, clockAt, State.dataAt, hso, hsd, hdo, hdd]

theorem Inv.beginTransfer (h : Inv s) (hb : s.busy = false) (hbd : s.bound = true) (hf : s.faultFlag = false) {a : Addr}
    {n : Len} {p : List Byte} (hp : p.length = n.toNat) : Inv (s.accept.beginTransfer a n p) :=
  { h with
    busyInTransfer := fun _ => ⟨hbd, hf, nofun⟩
    freeIsIdle := nofun
    positionLegal := fun _ => ⟨rfl, rfl⟩
    linesPlaced := fun _ _ => by
      have hidle : s.linesIdle = true := (State.linesAtPosition_idle (h.freeIsIdle hb hf)).symm.trans (h.linesPlaced hf hbd)
      exact State.linesAtPosition_beginTransfer (s := s.accept) hidle
    payloadAttached := fun _ => ⟨hp, rfl⟩
    writesOnly := rfl }

theorem Inv.acceptCommand (h : Inv s) (hb : s.busy = false) {w : Word} {payload : List Byte}
    (ht : s.acceptCommand w payload = .next t) : Inv t := by
  rcases State.acceptCommand_cases ht with rfl | ⟨c, d, -, hi⟩ | ⟨-, hi⟩ | ⟨a, n, p, -, hi⟩
  · exact h.complete hb _
  · rcases execBusInit_cases hb hi with ⟨r, rfl⟩ | ⟨r, rfl⟩ | ⟨-, hf, hu, hne, r, rfl⟩
    · exact h.complete hb r
    · exact (h.latchOperands c d).complete hb r
    · exact ((h.latchOperands c d).acquired hb hf hu hne).complete hb r
  · cases (execBusDeinit_of_free hb).symm.trans hi
    exact (h.release hb).complete (s.release_busy.trans hb) _
  · rcases execTransferWrite_cases hb hi with ⟨r, rfl⟩ | ⟨hbd, hf, hp, rfl⟩
    · exact h.complete hb r
    · exact h.beginTransfer hb hbd hf hp

/-! ### Abandonment, reset, other platform users -/

theorem Inv.abandon (h : Inv s) : Inv s.abandon :=
  { h with
    busyInTransfer := nofun
    freeIsIdle := fun _ => nofun
    positionLegal := nofun
    linesPlaced := nofun
    payloadAttached := nofun }

theorem Inv.resetBlock (h : Inv s) : Inv s.resetBlock where
  noInjectedWord := h.noInjectedWord
  usableWf := h.usableWf
  reservedWf := h.reservedWf
  pairHeld := nofun
  unboundUndriven _ := rfl
  busyInTransfer := nofun
  freeIsIdle _ _ := rfl
  positionLegal _ := ⟨rfl, rfl⟩
  linesPlaced _ := nofun
  payloadAttached := nofun
  writesOnly := rfl

/-- `RESERVED` may change as long as a held pair stays in it. -/
theorem Inv.withReserved (h : Inv s) {reserved : List PinId} (hwf : PinSet.wf reserved)
    (hp : s.bound = true → s.clkPin ∈ reserved ∧ s.datPin ∈ reserved) : Inv { s with reserved := reserved } :=
  { h with
    reservedWf := hwf
    pairHeld := fun hb => ⟨(hp hb).1, (hp hb).2, (h.pairHeld hb).2.2⟩ }

theorem Inv.platformReserve (h : Inv s) (p : PinId) : Inv (s.platformReserve p) := by
  obtain ⟨r, hr, hwf, hm⟩ := s.platformReserve_eq p
  rw [hr]
  refine h.withReserved (hwf h.reservedWf) fun hb => ?_
  obtain ⟨hc, hd, -⟩ := h.pairHeld hb
  exact ⟨(hm _).2 (.inl hc), (hm _).2 (.inl hd)⟩

theorem Inv.gpioUnreserve (h : Inv s) {p : PinId} (hp : s.bound = true → p ≠ s.clkPin ∧ p ≠ s.datPin) :
    Inv (s.gpioUnreserve p) := by
  refine h.withReserved (PinSet.wf_erase p _ h.reservedWf) fun hb => ?_
  obtain ⟨hc, hd, -⟩ := h.pairHeld hb
  obtain ⟨hpc, hpd⟩ := hp hb
  exact ⟨(PinSet.mem_erase _ _ _).2 ⟨hc, hpc.symm⟩, (PinSet.mem_erase _ _ _).2 ⟨hd, hpd.symm⟩⟩

/-! ### The sequencer, the step, the run -/

theorem Inv.placed (h : Inv s) (he : s.sequencerEnabled = true) : s.Placed := by
  obtain ⟨hb, hf, hi⟩ := s.sequencerEnabled_iff.1 he
  obtain ⟨hs, hc⟩ := h.positionLegal hf
  exact ⟨⟨fun _ => hi, fun _ => hb⟩, hs, hc, h.linesPlaced hf (h.busyInTransfer hb).1, (h.payloadAttached hb).2⟩

theorem Inv.sequencerStep (h : Inv s) (he : s.sequencerEnabled = true) (ht : s.sequencerStep = .next t) : Inv t := by
  obtain ⟨hb, hf, hi⟩ := s.sequencerEnabled_iff.1 he
  have hbd : s.bound = true := (h.busyInTransfer hb).1
  have hp := (h.placed he).sequencerStep hi hbd ht
  obtain ⟨⟨ebd, ec, ed, -, edir, elen, -, ef, epl, eus, eres, -, -, eup, -, -⟩, -, -⟩ := s.sequencerStep_keeps t ht
  have htb : t.bound = true := ebd.trans hbd
  exact {
    noInjectedWord := eup.trans h.noInjectedWord
    usableWf := eus ▸ h.usableWf
    reservedWf := eres ▸ h.reservedWf
    pairHeld := fun _ => by rw [ec, ed, eus, eres]; exact h.pairHeld hbd
    unboundUndriven := fun hu => absurd htb (Bool.eq_false_iff.1 hu)
    busyInTransfer := fun hb' => ⟨htb, ef.trans hf, hp.busyInside.1 hb'⟩
    freeIsIdle := fun hb' _ => not_not.1 fun hi' => Bool.eq_false_iff.1 hb' (hp.busyInside.2 hi')
    positionLegal := fun _ => ⟨hp.subLegal, hp.bitCntLegal⟩
    linesPlaced := fun _ _ => hp.lines
    payloadAttached := fun _ => ⟨by rw [epl, elen]; exact (h.payloadAttached hb).1, hp.index⟩
    writesOnly := edir.trans h.writesOnly }

theorem step_keeps_inv (h : Inv s) (ht : step s = .next t) : Inv t := by
  rcases step_cases s t h.noInjectedWord ht with
    ⟨he, xs, hq⟩ | ⟨xs, rfl⟩ | ⟨n, w, p, rest, -, hb, hc⟩ | ⟨n, rest, -, -, rfl⟩ | ⟨n, rest, -, -, rfl⟩ | ⟨rest, d, rfl⟩ |
    ⟨rest, p, -, rfl⟩ | ⟨rest, p, -, hp, rfl⟩
  · exact (h.withInputs xs).sequencerStep he hq
  · exact h.withInputs xs
  · exact (h.withInputs rest).acceptCommand hb hc
  · exact (h.withInputs rest).abandon
  · exact (h.withInputs rest).resetBlock
  · exact (h.withInputs rest).withSettle d
  · exact (h.withInputs rest).platformReserve p
  · exact (h.withInputs rest).gpioUnreserve hp

/-- The invariant at the end of every run of every launch. -/
theorem runSteps_inv {p : Launch} {inputs : List Pending} {n : Nat}
    (h : runSteps n { State.launch p with inputs := inputs } = .next t) : Inv t :=
  runSteps_induction _ t Inv (fun _ _ => step_keeps_inv) n ((inv_launch p).withInputs inputs) h

end Sys2Proof.Machine
end

section
/-! SUPPORT. No instruction and no step but a reset clears `FAULT` or takes an event of `TRACE` back (`spec/10_state.md` R28, R32),
words on the internal port included. -/

namespace Sys2Proof.Machine

open Sys2Proof.Claims

/-- `FAULT` is not cleared and `TRACE` is kept, events added after it only. -/
structure State.Prolonged (s t : State) : Prop where
  fault : s.faultFlag = true → t.faultFlag = true
  trace : s.trace <+: t.trace

variable {s t u : State}

theorem State.Prolonged.refl (s : State) : s.Prolonged s := ⟨id, List.prefix_refl _⟩

theorem State.Prolonged.trans (h : s.Prolonged t) (h' : t.Prolonged u) : s.Prolonged u :=
  ⟨h'.fault ∘ h.fault, h.trace.trans h'.trace⟩

theorem State.Prolonged.ofEq (hf : t.faultFlag = s.faultFlag) (ht : t.trace = s.trace) : s.Prolonged t :=
  ⟨hf.trans, ht ▸ List.prefix_refl _⟩

theorem State.Prolonged.ofAppend {es : List PinEvent} (hf : t.faultFlag = s.faultFlag) (ht : t.trace = s.trace ++ es) :
    s.Prolonged t :=
  ⟨hf.trans, ht ▸ List.prefix_append _ _⟩

/-! ### The shared operations -/

section Operations
variable (s)

theorem State.prolonged_performEvent (op : PinOp) : s.Prolonged (s.performEvent op) := by
  cases op <;> exact .ofAppend rfl rfl

theorem State.prolonged_performList (ops : List PinOp) : s.Prolonged (s.performList ops) := by
  suffices h : s.Prolonged (ops.foldl State.performEvent s) from h.trans (.ofEq rfl rfl)
  induction ops generalizing s with
  | nil => exact .refl s
  | cons op ops ih => exact (s.prolonged_performEvent op).trans (ih _)

theorem State.prolonged_shiftOut : s.Prolonged s.shiftOut := .ofEq rfl rfl

theorem State.prolonged_sendUnitBits (n : Nat) : s.Prolonged (s.sendUnitBits n) := by
  induction n with
  | zero => exact .refl s
  | succ n ih => exact (ih.trans (State.prolonged_performList _ _)).trans (State.prolonged_shiftOut _)

theorem State.prolonged_beginAddress : s.Prolonged s.beginAddress := .ofEq rfl rfl

theorem State.prolonged_beginDirection : s.Prolonged s.beginDirection := .ofEq rfl rfl

theorem State.prolonged_beginByte (b : Byte) : s.Prolonged (s.beginByte b) := .ofEq rfl rfl

theorem State.prolonged_readData : s.Prolonged s.readData := by
  cases h : s.inAckSlot with
  | false => rw [s.readData_outside h]; exact .ofAppend rfl rfl
  | true => rw [s.readData_inside h]; exact .ofAppend rfl rfl

theorem State.prolonged_acquire (c d : PinId) : s.Prolonged (s.acquire c d).1 := by
  rcases s.acquire_cases c d with ⟨-, h⟩ | ⟨-, -, h⟩ | ⟨-, -, -, -, h⟩ <;> rw [h]
  · exact .refl s
  · exact .refl s
  · exact .ofAppend rfl rfl

theorem State.prolonged_release : s.Prolonged s.release := by
  cases h : s.bound with
  | false => rw [s.release_unbound h]; exact .refl s
  | true => rw [s.release_bound h]; exact .ofAppend rfl rfl

end Operations

/-! ### A micro-operation that answers a next state had its precondition -/

section Preconditions
variable {f : State → Result}

theorem State.whenBound_eq_next (h : s.whenBound f = .next t) : f s = .next t := by
  simp only [State.whenBound] at h
  split at h
  · exact h
  · cases h

theorem State.whenUnbound_eq_next (h : s.whenUnbound f = .next t) : f s = .next t := by
  simp only [State.whenUnbound] at h
  split at h
  · cases h
  · exact h

theorem State.whenIdleLines_eq_next (h : s.whenIdleLines f = .next t) : f s = .next t := by
  replace h := State.whenBound_eq_next h
  split at h
  · exact h
  · cases h

theorem State.whenClockLow_eq_next (h : s.whenClockLow f = .next t) : f s = .next t := by
  replace h := State.whenBound_eq_next h
  split at h
  · cases h
  · exact h

end Preconditions

/-! ### The instructions -/

theorem execBusInit_prolonged {c d : PinId} (h : execBusInit c d s = .next t) : s.Prolonged t := by
  cases hb : s.busy with
  | true =>
    rw [execBusInit, s.whenFree_of_busy _ hb] at h
    cases h
    exact .refl s
  | false =>
    rcases execBusInit_cases hb h with ⟨r, rfl⟩ | ⟨r, rfl⟩ | ⟨-, -, -, -, r, rfl⟩
    · exact .ofEq rfl rfl
    · exact .ofEq rfl rfl
    · exact .ofAppend rfl rfl

theorem execBusDeinit_prolonged (h : execBusDeinit s = .next t) : s.Prolonged t := by
  cases hb : s.busy with
  | true =>
    rw [execBusDeinit, s.whenFree_of_busy _ hb] at h
    cases h
    exact .refl s
  | false =>
    cases (execBusDeinit_of_free hb).symm.trans h
    exact s.prolonged_release.trans (.ofEq rfl rfl)

theorem execTransferWrite_prolonged {a : Addr} {n : Len} {p : List Byte} (h : execTransferWrite a n p s = .next t) :
    s.Prolonged t := by
  cases hb : s.busy with
  | true =>
    simp only [execTransferWrite, s.whenFree_of_busy _ hb] at h
    split at h <;> cases h
    exact .refl s
  | false => rcases execTransferWrite_cases hb h with ⟨r, rfl⟩ | ⟨-, -, -, rfl⟩ <;> exact .ofEq rfl rfl

theorem exec_prolonged {i : Instr} (h : exec i s = .next t) : s.Prolonged t := by
  cases i with
  | busInit c d => exact execBusInit_prolonged h
  | busDeinit => exact execBusDeinit_prolonged h
  | transferWrite a n p => exact execTransferWrite_prolonged h
  | acquire =>
    simp only [exec, execAcquire] at h
    cases State.whenUnbound_eq_next h
    exact (s.prolonged_acquire _ _).trans (.ofEq rfl rfl)
  | release =>
    cases h
    exact s.prolonged_release
  | driveClock l =>
    simp only [exec, execDriveClock] at h
    cases State.whenBound_eq_next h
    exact .ofAppend rfl rfl
  | driveData l =>
    simp only [exec, execDriveData] at h
    cases State.whenBound_eq_next h
    exact .ofAppend rfl rfl
  | readData =>
    simp only [exec, execReadData] at h
    cases State.whenBound_eq_next h
    exact s.prolonged_readData
  | readClock =>
    simp only [exec, execReadClock] at h
    cases State.whenBound_eq_next h
    exact .ofAppend rfl rfl
  | settle =>
    simp only [exec, execSettle] at h
    cases State.whenBound_eq_next h
    exact .ofAppend rfl rfl
  | start =>
    simp only [exec, execStart] at h
    cases State.whenIdleLines_eq_next h
    exact s.prolonged_performList _
  | sendBit b =>
    simp only [exec, execSendBit] at h
    cases State.whenClockLow_eq_next h
    refine (s.prolonged_performList (bitList b)).trans ?_
    split
    · exact State.prolonged_shiftOut _
    · exact .refl _
  | sendAddress =>
    simp only [exec, execSendAddress] at h
    cases State.whenClockLow_eq_next h
    exact ((s.prolonged_beginAddress.trans (State.prolonged_sendUnitBits _ 7)).trans
      (State.prolonged_beginDirection _)).trans (State.prolonged_sendUnitBits _ 1)
  | sendByte =>
    simp only [exec, execSendByte] at h
    replace h := State.whenClockLow_eq_next h
    cases hm : s.memRead s.byteIdx with
    | none => simp only [hm, reduceCtorEq] at h
    | some b =>
      simp only [hm, Host.Outcome.next.injEq] at h
      exact h ▸ (s.prolonged_beginByte b).trans (State.prolonged_sendUnitBits _ 8)
  | sampleAck =>
    simp only [exec, execSampleAck] at h
    cases State.whenClockLow_eq_next h
    exact s.prolonged_performList _
  | stop =>
    simp only [exec, execStop] at h
    cases State.whenClockLow_eq_next h
    exact s.prolonged_performList _

/-! ### The step -/

theorem State.acceptCommand_prolonged {w : Word} {p : List Byte} (h : s.acceptCommand w p = .next t) : s.Prolonged t := by
  rcases State.acceptCommand_cases h with rfl | ⟨c, d, -, hi⟩ | ⟨-, hi⟩ | ⟨a, n, q, -, hi⟩
  · exact .ofEq rfl rfl
  · exact execBusInit_prolonged hi
  · exact execBusDeinit_prolonged hi
  · exact execTransferWrite_prolonged hi

theorem State.sequencerStep_prolonged (h : s.sequencerStep = .next t) : s.Prolonged t := by
  obtain ⟨⟨-, -, -, -, -, -, -, hf, -⟩, ⟨e, he⟩, -⟩ := s.sequencerStep_keeps t h
  exact .ofAppend hf he

theorem step_prolonged (h : step s = .next t) : s.Prolonged t ∨ resetIsNext s := by
  cases hu : s.uport with
  | cons w rest =>
    simp only [step, State.agentStep, hu, State.runMicroWord] at h
    split at h
    · obtain ⟨hf, ht⟩ := exec_prolonged h
      exact .inl ⟨hf, ht⟩
    · cases h
  | nil =>
    rcases step_cases s t hu h with
      ⟨-, xs, hq⟩ | ⟨xs, rfl⟩ | ⟨n, w, p, rest, -, -, hc⟩ | ⟨n, rest, -, -, rfl⟩ | ⟨n, rest, hi, hn, -⟩ | ⟨rest, d, rfl⟩ |
      ⟨rest, p, -, rfl⟩ | ⟨rest, p, -, -, rfl⟩
    · obtain ⟨hf, ht⟩ := State.sequencerStep_prolonged hq
      exact .inl ⟨hf, ht⟩
    · exact .inl (.ofEq rfl rfl)
    · obtain ⟨hf, ht⟩ := State.acceptCommand_prolonged hc
      exact .inl ⟨hf, ht⟩
    · exact .inl ⟨fun _ => rfl, List.prefix_refl _⟩
    · exact .inr ⟨hu, n, rest, hi, hn⟩
    · exact .inl (.ofEq rfl rfl)
    · obtain ⟨r, hr, -⟩ := (s.withInputs rest).platformReserve_eq p
      exact .inl (hr ▸ .ofEq rfl rfl)
    · exact .inl (.ofEq rfl rfl)

end Sys2Proof.Machine
end

section
/-! SUPPORT. The STATUS word bit by bit (`spec/10_state.md` R31) and the contributions to the lines (R18). -/

namespace Sys2Proof.Machine

/-- The bits of the STATUS word from bit 0 up to bit 10 (R31). -/
def State.statusBits (s : State) : List Bool :=
  [s.bound, s.busy, s.fsm.value.getLsbD 0, s.fsm.value.getLsbD 1, s.fsm.value.getLsbD 2, s.faultFlag, s.sclO, s.sdaO,
    s.sdaDir == .input, s.sclDir == .input, s.ackBit]

theorem Dir.getLsbD_bit (d : Dir) : d.bit.getLsbD 0 = (d == .input) := by cases d <;> rfl

/-- Above its last bit a field is 0. -/
theorem getLsbD_fieldAt_of_ge (n lo i : Nat) {w : Nat} (v : BitVec w) (h : lo + w ≤ i) : (fieldAt n lo v).getLsbD i = false := by
  rw [getLsbD_fieldAt, BitVec.getLsbD_of_ge v (i - lo) (by omega), Bool.and_false]

theorem State.getLsbD_status (s : State) (i : Nat) : s.status.getLsbD i = s.statusBits.getD i false := by
  by_cases hi : i < 11
  · simp only [State.status, BitVec.getLsbD_or, getLsbD_fieldAt, levelBit, State.statusBits]
    interval_cases i <;> simp [← Dir.getLsbD_bit]
  · rw [List.getD_eq_default _ _ (not_lt.1 hi)]
    simp (disch := omega) only [State.status, BitVec.getLsbD_or, getLsbD_fieldAt_of_ge, Bool.or_self]

theorem contribution_eq_false {d : Dir} {o : Level} : contribution d o = false ↔ d = .output ∧ o = false := by
  cases d <;> simp [contribution]

end Sys2Proof.Machine
end

section
/-! The statements of `spec/10_state.md`. -/

namespace Sys2Proof.Certificates

open Sys2Proof.Machine Sys2Proof.Claims

/-- Settles O7: each register is a field of the launch state; the STATUS word is computed from the fields alone. -/
theorem resetRegisterValues : Obligations.ResetRegisterValues := by
  intro p
  refine ⟨rfl, rfl, rfl, rfl, rfl, rfl, rfl, rfl, rfl, rfl, rfl, rfl, rfl, rfl, rfl, rfl, rfl, rfl, rfl, rfl, rfl, ?_⟩
  simp only [State.status, State.launch]
  decide

/-- Settles O8, bit by bit from the list of the STATUS word's bits. -/
theorem statusPortLayout : Obligations.StatusPortLayout := by
  intro s
  have bit := s.getLsbD_status
  refine ⟨bit 0, bit 1, ?_, bit 5, bit 6, bit 7, bit 8, bit 9, bit 10, ?_⟩
  · refine BitVec.eq_of_getLsbD_eq fun i hi => ?_
    rw [BitVec.getLsbD_extractLsb', bit]
    interval_cases i <;> rfl
  · refine BitVec.eq_of_getLsbD_eq fun i hi => ?_
    rw [BitVec.getLsbD_extractLsb', bit]
    interval_cases i <;> rfl

/-- Settles O9. -/
theorem lineLevelsOpenDrain : Obligations.LineLevelsOpenDrain := fun _ _ =>
  ⟨contribution_eq_false, contribution_eq_false, Bool.and_eq_false_iff⟩

/-- Settles O50. -/
theorem invariantAtReset : Obligations.InvariantAtReset := ⟨inv_launch, inv_launch _⟩

/-- Settles O51, by the cases of a step; the sequencer's by its position in the event lists. -/
theorem stepKeepsInvariant : Obligations.StepKeepsInvariant := fun _ _ => step_keeps_inv

/-- Settles O54, from the invariant at the end of every run. -/
theorem heldPairStaysReserved : Obligations.HeldPairStaysReserved := by
  intro p inputs n t h hb
  obtain ⟨hc, hd, -, -, hne⟩ := (runSteps_inv h).pairHeld hb
  exact ⟨hc, hd, hne⟩

/-- Settles O55. -/
theorem onlyResetClearsFault : Obligations.OnlyResetClearsFault := by
  intro s t h hs ht
  refine (step_prolonged h).resolve_left fun hp => ?_
  exact Bool.eq_false_iff.1 ht (hp.fault hs)

/-- Settles O56. -/
theorem traceOnlyGrows : Obligations.TraceOnlyGrows := by
  constructor
  · intro s t h
    refine (step_prolonged h).imp_left fun hp => ?_
    obtain ⟨es, hes⟩ := hp.trace
    exact ⟨es, hes.symm⟩
  · intro s t h
    obtain ⟨-, hone, -⟩ := s.sequencerStep_keeps t h
    exact hone

/-- Settles O57: the sequencer writes `ACK_BIT` at a READ_DATA only, which stands at position 4 of the ACK slot's list. -/
theorem ackBitWrittenOnlyInAckSlot : Obligations.AckBitWrittenOnlyInAckSlot := by
  intro s t hu h hne
  rcases step_writes hu h with ⟨he, xs, hq⟩ | ⟨n, w, p, rest, -, hb, hc⟩ | hr | ⟨hsame, -⟩
  · obtain ⟨-, -, hk | hk⟩ := State.sequencerStep_keeps _ _ hq
    · exact absurd hk hne
    · obtain ⟨hf, hs⟩ := State.ackSlot_of_readData hk
      exact .inl ⟨hf, hs, he⟩
  · exact absurd (State.acceptCommand_ackBit (s := s.withInputs rest) hb hc) hne
  · exact .inr hr
  · exact absurd hsame hne

/-- Settles O58. -/
theorem boundChangesByCommandOnly : Obligations.BoundChangesByCommandOnly := by
  intro s t hu h hne
  rcases step_writes hu h with ⟨-, xs, hq⟩ | ⟨n, w, p, rest, hi, hb, hc⟩ | hr | ⟨-, hsame⟩
  · obtain ⟨⟨hsame, -⟩, -⟩ := State.sequencerStep_keeps _ _ hq
    exact absurd hsame hne
  · rcases State.acceptCommand_bound (s := s.withInputs rest) hb hc hne with ⟨hbd, c, d, hd⟩ | ⟨hbd, hd⟩
    · exact .inl ⟨n, w, p, rest, _, hi, hd, hb, .inl ⟨hbd, c, d, rfl⟩⟩
    · exact .inl ⟨n, w, p, rest, _, hi, hd, hb, .inr ⟨hbd, rfl⟩⟩
  · exact .inr hr
  · exact absurd hsame hne

/-- Settles O60: each clause evaluates the step on its side of `BUSY`. -/
theorem otherUsersWaitWhileBusy : Obligations.OtherUsersWaitWhileBusy := by
  intro s p rest hu
  have busy_of_enabled : s.sequencerEnabled = true → s.busy = true := fun he => (s.sequencerEnabled_iff.1 he).1
  refine ⟨fun hi => ⟨fun he => ?_, fun hb => ?_⟩, fun hi => ⟨fun he => ?_, fun hb hp => ?_, fun hb hbd hp => ?_⟩⟩
  · rw [step_reserve hu hi, if_pos (busy_of_enabled he), State.blockStep_of_enabled he]
  · obtain ⟨r, hr, -, hm⟩ := (s.withInputs rest).platformReserve_eq p
    refine ⟨r, hm, ?_⟩
    rw [step_reserve hu hi, if_neg (Bool.eq_false_iff.1 hb), hr]
    rfl
  · rw [step_unreserve hu hi, if_pos (busy_of_enabled he), State.blockStep_of_enabled he]
  · refine ⟨PinSet.erase p s.reserved, fun q => PinSet.mem_erase p q _, ?_⟩
    rw [step_unreserve hu hi, if_neg (Bool.eq_false_iff.1 hb)]
    exact if_neg (by simpa [State.withInputs] using hp)
  · rw [step_unreserve hu hi, if_neg (Bool.eq_false_iff.1 hb)]
    exact if_pos (by simpa [State.withInputs, hbd] using hp)

end Sys2Proof.Certificates
end

section
/-! SUPPORT. `TraceOf` by the level of its first sample, and the prefix of the payload that it reads (`spec/42_host_commands.md` R98,
`spec/60_exceptions.md` R106). -/

namespace Sys2Proof.Machine

variable {v : Nat → Level}

theorem dataRun_of_nack {k : Nat} (h : v (k + 1) = true) (b : Byte) (bs : List Byte) :
    dataRun v k (b :: bs) =
      { events := unitEvents b ++ ackEvents true ++ stopEvents
        response := respWord .dataNacked (BitVec.ofNat 16 k)
        units := 1 } := by
  rw [dataRun, if_pos h, h]

theorem dataRun_of_ack {k : Nat} (h : v (k + 1) = false) (b : Byte) (bs : List Byte) :
    dataRun v k (b :: bs) =
      { events := unitEvents b ++ ackEvents false ++ (dataRun v (k + 1) bs).events
        response := (dataRun v (k + 1) bs).response
        units := (dataRun v (k + 1) bs).units + 1 } := by
  rw [dataRun, if_neg (Bool.eq_false_iff.1 h), h]

theorem traceOf_of_nack (h : v 0 = true) (a : Addr) (p : List Byte) :
    traceOf a p v =
      { events := startEvents ++ unitEvents (addressUnit a false) ++ ackEvents true ++ stopEvents
        response := codeWord .addressNacked
        units := 1 } := by
  rw [traceOf, if_pos h, h]

theorem traceOf_of_ack (h : v 0 = false) (a : Addr) (p : List Byte) :
    traceOf a p v =
      { events := startEvents ++ unitEvents (addressUnit a false) ++ ackEvents false ++ (dataRun v 0 p).events
        response := (dataRun v 0 p).response
        units := (dataRun v 0 p).units + 1 } := by
  rw [traceOf, if_neg (Bool.eq_false_iff.1 h), h]

/-- A loop that meets a NACK within `n` samples reads at most `n` bytes. -/
theorem dataRun_take {k n : Nat} (p : List Byte) (h : ∃ j, k < j ∧ j ≤ k + n ∧ v j = true) :
    dataRun v k (p.take n) = dataRun v k p := by
  obtain ⟨j, hlo, hhi, hj⟩ := h
  induction p generalizing k n with
  | nil => rw [List.take_nil]
  | cons b bs ih =>
    obtain ⟨n, rfl⟩ : ∃ m, n = m + 1 := ⟨n - 1, by omega⟩
    rw [List.take_succ_cons]
    cases hk : v (k + 1) with
    | true => rw [dataRun_of_nack hk, dataRun_of_nack hk]
    | false =>
      have hne : j ≠ k + 1 := fun e => Bool.false_ne_true (hk.symm.trans (e ▸ hj))
      rw [dataRun_of_ack hk, dataRun_of_ack hk, ih (by omega) (by omega)]

/-- A transfer that meets a NACK in one of the samples 0 to `n` reads at most `n` bytes of its payload. -/
theorem traceOf_take {n : Nat} (a : Addr) (p : List Byte) (h : ∃ j, j ≤ n ∧ v j = true) :
    traceOf a (p.take n) v = traceOf a p v := by
  obtain ⟨j, hle, hj⟩ := h
  cases h0 : v 0 with
  | true => rw [traceOf_of_nack h0, traceOf_of_nack h0]
  | false =>
    have hne : j ≠ 0 := fun e => Bool.false_ne_true (h0.symm.trans (e ▸ hj))
    rw [traceOf_of_ack h0, traceOf_of_ack h0, dataRun_take p ⟨j, by omega, by omega, hj⟩]

end Sys2Proof.Machine
end

section
/-! The statements of `spec/20_memory.md`. -/

namespace Sys2Proof.Certificates

open Sys2Proof.Machine Sys2Proof.Claims

/-- Settles O44: both transfers are the transfer of the common prefix. -/
theorem bytesAfterNackUnread : Obligations.BytesAfterNackUnread := by
  intro a p q v k _ _ hpq hn
  calc traceOf a p v = traceOf a (p.take k) v := (traceOf_take a p hn).symm
    _ = traceOf a (q.take k) v := by rw [hpq]
    _ = traceOf a q v := traceOf_take a q hn

end Sys2Proof.Certificates
end

section
/-! SUPPORT. The host decoder by the three patterns of R60, the format U words by their fields (R64), and the step that takes a word
off its port (`spec/30_encoding.md`). -/

namespace Sys2Proof

/-! ### Patterns and fields -/

/-- Two patterns that ask for different bits where both masks are set have no word in common. -/
theorem Pattern.fits_eq_false_of_conflict {n : Nat} {r q : Pattern n} (hne : r.pattern &&& q.mask ≠ q.pattern &&& r.mask)
    {w : BitVec n} (hr : r.fits w = true) : q.fits w = false := by
  refine Bool.eq_false_iff.2 fun hq => hne ?_
  rw [← beq_iff_eq.1 hr, ← beq_iff_eq.1 hq, BitVec.and_assoc, BitVec.and_assoc, BitVec.and_comm r.mask]

/-- A field taken from a word and put back holds the word's own bits there, and 0 elsewhere. -/
theorem getLsbD_fieldAt_extractLsb' {n : Nat} (w : BitVec n) (lo k i : Nat) :
    (fieldAt n lo (w.extractLsb' lo k)).getLsbD i = (decide (lo ≤ i ∧ i < lo + k) && w.getLsbD i) := by
  rw [getLsbD_fieldAt, BitVec.getLsbD_extractLsb']
  by_cases hlo : lo ≤ i
  · have hlt : i - lo < k ↔ i < lo + k := by omega
    have hn : n ≤ i → w.getLsbD i = false := w.getLsbD_of_ge i
    by_cases hi : i < n
    · simp [hlo, hi, hlt]
    · simp [hi, hn (not_lt.1 hi)]
  · simp [hlo, not_le.1 hlo]

theorem fieldAt_zero (n lo k : Nat) : fieldAt n lo 0#k = 0#n := by
  simp [fieldAt]

/-- Two adjacent fields of a word make one field of it. -/
theorem fieldAt_extractLsb'_or {n : Nat} (w : BitVec n) (lo k : Nat) {j : Nat} :
    fieldAt n (lo + k) (w.extractLsb' (lo + k) j) ||| fieldAt n lo (w.extractLsb' lo k) =
      fieldAt n lo (w.extractLsb' lo (k + j)) := by
  refine BitVec.eq_of_getLsbD_eq fun i _ => ?_
  rw [BitVec.getLsbD_or]
  simp only [getLsbD_fieldAt_extractLsb', ← Bool.and_or_distrib_right, ← Bool.decide_or]
  congr 2
  apply propext
  omega

theorem fieldAt_extractLsb'_full {n : Nat} (w : BitVec n) : fieldAt n 0 (w.extractLsb' 0 n) = w := by
  refine BitVec.eq_of_getLsbD_eq fun i hi => ?_
  rw [getLsbD_fieldAt_extractLsb']
  simp [hi]

/-! ### The host decoder by its patterns (R60, R61) -/

section Host

variable {w : Word} {payload : List Byte} {i : Instr}

theorem withPayloadCheck_eq_instr {ok : Bool} {j : Instr} (h : withPayloadCheck ok j = .instr i) : ok = true ∧ i = j := by
  cases ok
  · cases h
  · exact ⟨rfl, (Decoded.instr.inj h).symm⟩

theorem withPayloadCheck_ne_illegal (ok : Bool) (j : Instr) : withPayloadCheck ok j ≠ .reject .illegalCommand := by
  intro h
  cases ok <;> cases h

theorem decodeHost_busInit (hz : hostZero w = 0#4) (ho : hostOp w = 0x1#4) :
    decodeHost w payload = withPayloadCheck payload.isEmpty (.busInit (hostClk w) (hostDat w)) := by
  rw [decodeHost, if_neg (not_not.2 hz), if_pos ho]

theorem decodeHost_busDeinit (payload : List Byte) :
    decodeHost 0x00000002#32 payload = withPayloadCheck payload.isEmpty .busDeinit := rfl

theorem decodeHost_transferWrite (hz : hostZero w = 0#4) (ho : hostOp w = 0x3#4) (hd : hostDir w = false) :
    decodeHost w payload =
      withPayloadCheck (payload.length == (hostLen w).toNat) (.transferWrite (hostAddr w) (hostLen w) payload) := by
  rw [decodeHost, if_neg (not_not.2 hz), ho, if_neg (by decide), if_neg (by decide), if_pos rfl, hd]
  rfl

/-- Outside the three patterns, by the fields the decoder reads. -/
theorem fitsNoHostPattern_iff :
    (∀ r ∈ hostPatterns, r.fits w = false) ↔
      ¬(hostZero w = 0#4 ∧ hostOp w = 0x1#4) ∧ ¬w = 0x00000002#32 ∧
      ¬(hostZero w = 0#4 ∧ hostOp w = 0x3#4 ∧ hostDir w = false) := by
  simp only [hostPatterns, List.forall_mem_cons, ← Bool.not_eq_true, fits_busInitPattern, fits_busDeinitPattern,
    fits_transferWritePattern, List.not_mem_nil, false_implies, implies_true, and_true]

theorem decodeHost_of_fitsNoPattern (h : ∀ r ∈ hostPatterns, r.fits w = false) :
    decodeHost w payload = .reject .illegalCommand := by
  obtain ⟨hinit, hdeinit, htransfer⟩ := fitsNoHostPattern_iff.1 h
  rw [busDeinitWord_iff] at hdeinit
  rw [decodeHost]
  split
  · rfl
  next hnz =>
    have hz : hostZero w = 0#4 := not_not.1 hnz
    rw [if_neg fun ho => hinit ⟨hz, ho⟩]
    split
    next ho => exact if_neg fun hh => hdeinit ⟨hz, ho, hh⟩
    split
    next ho =>
      refine if_pos ?_
      simpa using fun hd => htransfer ⟨hz, ho, hd⟩
    · rfl

/-- Every word is a BUS_INIT word, the BUS_DEINIT word, a TRANSFER_WRITE word, or outside the patterns. -/
theorem hostWord_cases (w : Word) :
    (hostZero w = 0#4 ∧ hostOp w = 0x1#4) ∨ w = 0x00000002#32 ∨
    (hostZero w = 0#4 ∧ hostOp w = 0x3#4 ∧ hostDir w = false) ∨ ∀ r ∈ hostPatterns, r.fits w = false := by
  rw [fitsNoHostPattern_iff]
  tauto

/-! ### Encoding a host word (R57) -/

/-- A BUS_INIT word is put together again from its fields. -/
theorem busInitWord_fields (hz : hostZero w = 0#4) (ho : hostOp w = 0x1#4) : busInitWord (hostClk w) (hostDat w) = w := by
  calc busInitWord (hostClk w) (hostDat w)
      = fieldAt 32 20 (hostDat w) |||
          (fieldAt 32 8 (hostClk w) ||| (fieldAt 32 4 (hostZero w) ||| fieldAt 32 0 (hostOp w))) := by
        rw [hz, ho, fieldAt_zero, BitVec.zero_or, busInitWord, BitVec.or_assoc]
    _ = fieldAt 32 0 (w.extractLsb' 0 32) := by
        rw [hostDat, hostClk, hostZero, hostOp, fieldAt_extractLsb'_or w 0 4, fieldAt_extractLsb'_or w 0 8,
          fieldAt_extractLsb'_or w 0 20]
    _ = w := fieldAt_extractLsb'_full w

/-- A TRANSFER_WRITE word is put together again from its fields. -/
theorem transferWriteWord_fields (hz : hostZero w = 0#4) (ho : hostOp w = 0x3#4) (hd : hostDir w = false) :
    transferWriteWord (hostAddr w) (hostLen w) = w := by
  have hbit : w.extractLsb' 8 1 = 0#1 := (extractLsb'_eq_iff w 8 1 _).2 fun j hj => by
    obtain rfl : j = 0 := by omega
    exact hd
  calc transferWriteWord (hostAddr w) (hostLen w)
      = fieldAt 32 16 (hostLen w) ||| (fieldAt 32 9 (hostAddr w) |||
          (fieldAt 32 8 (w.extractLsb' 8 1) ||| (fieldAt 32 4 (hostZero w) ||| fieldAt 32 0 (hostOp w)))) := by
        rw [hz, ho, hbit, fieldAt_zero, fieldAt_zero, BitVec.zero_or, BitVec.zero_or, transferWriteWord, BitVec.or_assoc]
    _ = fieldAt 32 0 (w.extractLsb' 0 32) := by
        rw [hostLen, hostAddr, hostZero, hostOp, fieldAt_extractLsb'_or w 0 4, fieldAt_extractLsb'_or w 0 8,
          fieldAt_extractLsb'_or w 0 9, fieldAt_extractLsb'_or w 0 16]
    _ = w := fieldAt_extractLsb'_full w

/-- A format H word that decodes is the encoding of a well-formed command (R57, R59). -/
theorem encode_of_decodeHost (h : decodeHost w payload = .instr i) : i.WellFormed ∧ encode i = .host w payload := by
  rcases hostWord_cases w with ⟨hz, ho⟩ | rfl | ⟨hz, ho, hd⟩ | hnone
  · rw [decodeHost_busInit hz ho] at h
    obtain ⟨hp, rfl⟩ := withPayloadCheck_eq_instr h
    exact ⟨rfl, congrArg₂ PortWord.host (busInitWord_fields hz ho) (List.isEmpty_iff.1 hp).symm⟩
  · obtain ⟨hp, rfl⟩ := withPayloadCheck_eq_instr h
    exact ⟨rfl, congrArg₂ PortWord.host rfl (List.isEmpty_iff.1 hp).symm⟩
  · rw [decodeHost_transferWrite hz ho hd] at h
    obtain ⟨hp, rfl⟩ := withPayloadCheck_eq_instr h
    exact ⟨hp, congrArg₂ PortWord.host (transferWriteWord_fields hz ho hd) rfl⟩
  · rw [decodeHost_of_fitsNoPattern hnone] at h
    cases h

theorem decodeHost_busInitWord (clk dat : PinId) : decodeHost (busInitWord clk dat) [] = .instr (.busInit clk dat) := by
  rw [decodeHost_busInit (hostZero_busInitWord clk dat) (hostOp_busInitWord clk dat), hostClk_busInitWord, hostDat_busInitWord]
  rfl

theorem decodeHost_transferWriteWord {addr : Addr} {len : Len} (h : payload.length = len.toNat) :
    decodeHost (transferWriteWord addr len) payload = .instr (.transferWrite addr len payload) := by
  rw [decodeHost_transferWrite (hostZero_transferWriteWord addr len) (hostOp_transferWriteWord addr len)
    (hostDir_transferWriteWord addr len), hostAddr_transferWriteWord, hostLen_transferWriteWord, h]
  exact if_pos (beq_self_eq_true _)

end Host

/-! ### The format U words (R64, R65) -/

section Micro

variable {w : Byte} {i : Instr}

/-- A byte with `ARG[3:1] = 0` is the word of its `UOP` and its `ARG[0]`. -/
theorem microWord_fields (ha : microArgHigh w = 0#3) : microWord (microOp w) (microLevel w) = w := by
  have hbit : w.extractLsb' 0 1 = BitVec.ofBool (microLevel w) := BitVec.eq_of_getLsbD_eq fun j hj => by
    obtain rfl : j = 0 := by omega
    simp [microLevel]
  calc microWord (microOp w) (microLevel w)
      = fieldAt 8 4 (microOp w) ||| (fieldAt 8 1 (microArgHigh w) ||| fieldAt 8 0 (w.extractLsb' 0 1)) := by
        rw [ha, hbit, fieldAt_zero, BitVec.zero_or, microWord]
    _ = fieldAt 8 0 (w.extractLsb' 0 8) := by
        rw [microOp, microArgHigh, fieldAt_extractLsb'_or w 0 1, fieldAt_extractLsb'_or w 0 4]
    _ = w := fieldAt_extractLsb'_full w

theorem decodeMicro_of_argHigh (ha : microArgHigh w ≠ 0#3) : decodeMicro w = .reject .noMicroOperation := if_pos ha

/-- Every pattern of R65 asks for `ARG[3:1] = 0`. -/
theorem fits_eq_false_of_argHigh (ha : microArgHigh w ≠ 0#3) : ∀ r ∈ microPatterns, r.fits w = false := by
  have hzero : ∀ r ∈ microPatterns, r.mask &&& 0x0E#8 = 0x0E#8 ∧ r.pattern &&& 0x0E#8 = 0#8 := by decide
  intro r hr
  obtain ⟨hm, hp⟩ := hzero r hr
  refine Bool.eq_false_iff.2 fun hfit => ha ?_
  have hw : w &&& 0x0E#8 = 0#8 := by
    rw [← hm, ← BitVec.and_assoc, beq_iff_eq.1 hfit, hp]
  refine BitVec.eq_of_getLsbD_eq fun j hj => ?_
  have hbit := congrArg (·.getLsbD (1 + j)) hw
  rw [microArgHigh, BitVec.getLsbD_extractLsb']
  interval_cases j <;> simpa using hbit

/-- The 32 words with `ARG[3:1] = 0`: refused exactly outside the patterns (R65, R66). -/
theorem decodeMicro_microWord_eq_reject_iff : ∀ (uop : BitVec 4) (l : Level),
    decodeMicro (microWord uop l) = .reject .noMicroOperation ↔ ∀ r ∈ microPatterns, r.fits (microWord uop l) = false := by
  decide

theorem decodeMicro_eq_reject_iff : decodeMicro w = .reject .noMicroOperation ↔ ∀ r ∈ microPatterns, r.fits w = false := by
  by_cases ha : microArgHigh w = 0#3
  · rw [← microWord_fields ha]
    exact decodeMicro_microWord_eq_reject_iff _ _
  · exact iff_of_true (decodeMicro_of_argHigh ha) (fits_eq_false_of_argHigh ha)

/-- The micro-operations, each with every level it takes, in the order of R65. -/
def microInstrs : List Instr :=
  [.acquire, .release, .driveClock false, .driveClock true, .driveData false, .driveData true, .readData, .readClock, .settle,
    .start, .sendBit false, .sendBit true, .sendAddress, .sendByte, .sampleAck, .stop]

/-- Each of the 32 words with `ARG[3:1] = 0` is refused, or decodes to the micro-operation whose encoding it is. -/
theorem decodeMicro_microWord : ∀ (uop : BitVec 4) (l : Level),
    decodeMicro (microWord uop l) = .reject .noMicroOperation ∨
    ∃ j ∈ microInstrs, decodeMicro (microWord uop l) = .instr j ∧ encode j = .micro (microWord uop l) := by
  decide

/-- A format U word that decodes is the encoding of a micro-operation (R65). -/
theorem encode_of_decodeMicro (h : decodeMicro w = .instr i) : encode i = .micro w := by
  have ha : microArgHigh w = 0#3 := by
    by_contra ha
    rw [decodeMicro_of_argHigh ha] at h
    cases h
  rw [← microWord_fields ha] at h ⊢
  rcases decodeMicro_microWord (microOp w) (microLevel w) with hr | ⟨j, -, hj, hw⟩
  · cases hr.symm.trans h
  · cases hj.symm.trans h
    exact hw

/-- Only a host command carries a payload to check (R59). -/
theorem wellFormed_of_encode_micro (h : encode i = .micro w) : i.WellFormed := by
  cases i with
  | transferWrite => cases h
  | _ => rfl

end Micro

end Sys2Proof

namespace Sys2Proof.Machine

variable {s : State}

/-! ### The step that takes a word off its port (R64, R93) -/

theorem step_of_uport {w : Byte} {rest : List Byte} (hu : s.uport = w :: rest) : step s = (s.withPort rest).runMicroWord w := by
  rw [step, State.agentStep, hu]

theorem State.runMicroWord_of_instr {w : Byte} {i : Instr} (h : decodeMicro w = .instr i) : s.runMicroWord w = exec i s := by
  rw [State.runMicroWord, h]

theorem State.runMicroWord_of_reject {w : Byte} {r : DecodeReject} (h : decodeMicro w = .reject r) :
    s.runMicroWord w = .refused .noMicroOperation := by
  rw [State.runMicroWord, h]

theorem step_command {n : Nat} {w : Word} {payload : List Byte} {rest : List Pending} (hu : s.uport = []) (hb : s.busy = false)
    (hi : s.inputs = { after := n, action := .command w payload } :: rest) :
    step s = (s.withInputs rest).acceptCommand w payload := by
  rw [s.agentStep_eq_act n _ rest hu hi (.inr (s.not_sequencerEnabled_of_free hb))]
  exact if_neg (Bool.eq_false_iff.1 hb)

theorem State.acceptCommand_of_mismatch {w : Word} {payload : List Byte}
    (h : decodeHost w payload = .reject .payloadLengthMismatch) :
    s.acceptCommand w payload = .refused .payloadLengthMismatch := by
  rw [State.acceptCommand, h]

theorem execTransferWrite_of_mismatch {addr : Addr} {len : Len} {payload : List Byte} (h : payload.length ≠ len.toNat) :
    exec (.transferWrite addr len payload) s = .refused .payloadLengthMismatch := if_neg h

end Sys2Proof.Machine
end

section
/-! The statements of `spec/30_encoding.md`. -/

namespace Sys2Proof.Certificates

open Sys2Proof.Machine Sys2Proof.Claims

/-- Settles O2: a host word by its fields, each micro-operation's word by evaluation. -/
theorem decodeOfEncode : Obligations.DecodeOfEncode := by
  intro i hwf
  cases i with
  | busInit clk dat => exact decodeHost_busInitWord clk dat
  | transferWrite addr len payload => exact decodeHost_transferWriteWord (beq_iff_eq.1 hwf)
  | driveClock l | driveData l | sendBit l => cases l <;> rfl
  | busDeinit | acquire | release | readData | readClock | settle | start | sendAddress | sendByte | sampleAck | stop => rfl

/-- Settles O3, port by port. -/
theorem encodeOfDecode : Obligations.EncodeOfDecode := by
  intro p i h
  cases p with
  | host w payload => exact encode_of_decodeHost h
  | micro w =>
    have he := encode_of_decodeMicro h
    exact ⟨wellFormed_of_encode_micro he, he⟩

/-- Settles O4: a word of a pattern passes or fails the payload check only. -/
theorem illegalExactlyOutsidePatterns : Obligations.IllegalExactlyOutsidePatterns := by
  refine fun w payload => ⟨fun h => ?_, decodeHost_of_fitsNoPattern⟩
  rcases hostWord_cases w with ⟨hz, ho⟩ | rfl | ⟨hz, ho, hd⟩ | hnone
  · exact absurd ((decodeHost_busInit hz ho).symm.trans h) (withPayloadCheck_ne_illegal _ _)
  · exact absurd ((decodeHost_busDeinit payload).symm.trans h) (withPayloadCheck_ne_illegal _ _)
  · exact absurd ((decodeHost_transferWrite hz ho hd).symm.trans h) (withPayloadCheck_ne_illegal _ _)
  · exact hnone

/-- Settles O1, by evaluation of the decoder on the ten words. -/
theorem specWordsDecode : Obligations.SpecWordsDecode := by
  unfold Obligations.SpecWordsDecode
  decide

/-- Settles O5: any two patterns ask for different bits under both masks. -/
theorem opcodePatternsDisjoint : Obligations.OpcodePatternsDisjoint := by
  have host : hostPatterns.Pairwise fun r q => r.pattern &&& q.mask ≠ q.pattern &&& r.mask := by decide
  have micro : microPatterns.Pairwise fun r q => r.pattern &&& q.mask ≠ q.pattern &&& r.mask := by decide
  exact ⟨host.imp fun hne _ => Pattern.fits_eq_false_of_conflict hne,
    micro.imp fun hne _ => Pattern.fits_eq_false_of_conflict hne⟩

/-- Settles O6: a byte with `ARG[3:1] = 0` is one of 32 words; any other is refused and fits no pattern. -/
theorem microWordsExactlyPatterns : Obligations.MicroWordsExactlyPatterns := by
  refine fun w => ⟨decodeMicro_eq_reject_iff, fun s hu hd => ?_⟩
  rw [step_of_uport hu, State.runMicroWord_of_reject hd]

/-- Settles O11: the port's first word is taken off, then decoded. -/
theorem stepRunsMicroWord : Obligations.StepRunsMicroWord := by
  intro s w rest i hu hd
  rw [step_of_uport hu, State.runMicroWord_of_instr hd, State.withPort]

/-- Settles O14: the meaning and the decoder compare the same two lengths. -/
theorem mismatchedPayloadRefused : Obligations.MismatchedPayloadRefused := by
  refine ⟨fun s addr len payload => execTransferWrite_of_mismatch, fun s n w payload rest hu hb hi ho hz hd hlen => ?_⟩
  have hdecode : decodeHost w payload = .reject .payloadLengthMismatch := by
    rw [decodeHost_transferWrite hz ho hd]
    exact if_neg (mt beq_iff_eq.1 hlen)
  rw [step_command hu hb hi, State.acceptCommand_of_mismatch hdecode]

end Sys2Proof.Certificates
end

section
/-! SUPPORT. The Pin Control Layer's micro-operations with their precondition and without it (`spec/40_pin_control.md` R72 to
R79). -/

namespace Sys2Proof.Machine

variable {s : State}

/-! ### The refusals of R72 -/

theorem State.whenUnbound_of_bound (f : State → Result) (h : s.bound = true) : s.whenUnbound f = .refused .boundPrecondition :=
  if_pos h

theorem State.whenIdleLines_of_unbound (f : State → Result) (h : s.bound = false) :
    s.whenIdleLines f = .refused .boundPrecondition :=
  s.whenBound_of_unbound _ h

theorem State.whenClockLow_of_unbound (f : State → Result) (h : s.bound = false) :
    s.whenClockLow f = .refused .boundPrecondition :=
  s.whenBound_of_unbound _ h

/-- The instructions that need a held pair: the five line primitives and the engine's primitives (R72, log 6). -/
def needsPair : Instr → Bool
  | .driveClock _ | .driveData _ | .readData | .readClock | .settle => true
  | .start | .sendBit _ | .sendAddress | .sendByte | .sampleAck | .stop => true
  | .busInit _ _ | .busDeinit | .transferWrite _ _ _ | .acquire | .release => false

theorem exec_of_needsPair_unbound {i : Instr} (hi : needsPair i = true) (h : s.bound = false) :
    exec i s = .refused .boundPrecondition := by
  cases i with
  | driveClock l | driveData l | readData | readClock | settle => rw [exec]; exact s.whenBound_of_unbound _ h
  | start => rw [exec]; exact State.whenIdleLines_of_unbound _ h
  | sendBit b | sendAddress | sendByte | sampleAck | stop => rw [exec]; exact State.whenClockLow_of_unbound _ h
  | busInit | busDeinit | transferWrite | acquire | release => cases hi

theorem exec_acquire_of_bound (h : s.bound = true) : exec .acquire s = .refused .boundPrecondition := by
  rw [exec, execAcquire, State.whenUnbound_of_bound _ h]

/-! ### The effects -/

theorem exec_acquire_of_unbound (h : s.bound = false) : exec .acquire s = .next (returnCode (s.acquire s.opClk s.opDat)) := by
  rw [exec, execAcquire, s.whenUnbound_of_unbound _ h]

theorem exec_driveClock_of_bound (l : Level) (h : s.bound = true) : exec (.driveClock l) s = .next (s.driveClock l) := by
  rw [exec, execDriveClock, s.whenBound_of_bound _ h]

theorem exec_driveData_of_bound (l : Level) (h : s.bound = true) : exec (.driveData l) s = .next (s.driveData l) := by
  rw [exec, execDriveData, s.whenBound_of_bound _ h]

theorem exec_readData_of_bound (h : s.bound = true) : exec .readData s = .next s.readData := by
  rw [exec, execReadData, s.whenBound_of_bound _ h]

theorem exec_readClock_of_bound (h : s.bound = true) : exec .readClock s = .next s.readClock := by
  rw [exec, execReadClock, s.whenBound_of_bound _ h]

theorem exec_settle_of_bound (h : s.bound = true) : exec .settle s = .next s.settle := by
  rw [exec, execSettle, s.whenBound_of_bound _ h]

/-- An ACK slot is one of the two ACK phases (log 20). -/
theorem State.inAckSlot_iff : s.inAckSlot = true ↔ s.fsm = .addressAck ∨ s.fsm = .dataAck := by
  rw [State.inAckSlot, Bool.or_eq_true, beq_iff_eq, beq_iff_eq]

theorem State.inAckSlot_eq_false_iff : s.inAckSlot = false ↔ s.fsm ≠ .addressAck ∧ s.fsm ≠ .dataAck := by
  rw [← Bool.not_eq_true, State.inAckSlot_iff, not_or]

end Sys2Proof.Machine
end

section
/-! The statements of `spec/40_pin_control.md`. -/

namespace Sys2Proof.Certificates

open Sys2Proof.Machine Sys2Proof.Claims

/-- Settles O21: the three clauses are the three ways ACQUIRE ends. -/
theorem acquireClaimsPairOrNothing : Obligations.AcquireClaimsPairOrNothing := by
  refine ⟨rfl, fun s hb => ⟨fun hu => ?_, fun hc hd hr => ?_, fun hc hd hcr hdr hne => ?_⟩⟩
  · rw [exec_acquire_of_unbound hb, s.acquire_invalidPin _ _ hu, returnCode]
  · rw [exec_acquire_of_unbound hb, s.acquire_pinBusy _ _ hc hd hr, returnCode]
  · refine ⟨(s.acquired s.opClk s.opDat).reserved, s.mem_acquired_reserved _ _,
      fun hwf => PinSet.wf_insert _ _ (PinSet.wf_insert _ _ hwf), ?_⟩
    rw [exec_acquire_of_unbound hb, s.acquire_success _ _ hc hd hcr hdr hne, returnCode, withEvents]

/-- Settles O19. -/
theorem refusedOutsideBoundPrecondition : Obligations.RefusedOutsideBoundPrecondition := by
  refine fun s => ⟨fun hb i hi => exec_of_needsPair_unbound ?_ hb, exec_acquire_of_bound⟩
  revert i
  decide

/-- Settles O22. -/
theorem releaseReturnsBothPins : Obligations.ReleaseReturnsBothPins := by
  refine ⟨rfl, fun s => ⟨fun hb => congrArg _ (s.release_unbound hb), fun hb => ?_⟩⟩
  exact ⟨s.released.reserved, s.mem_released_reserved, fun hwf => PinSet.wf_erase _ _ (PinSet.wf_erase _ _ hwf),
    congrArg _ (s.release_bound hb)⟩

/-- Settles O23. -/
theorem drivesSetOneLine : Obligations.DrivesSetOneLine := by
  refine fun l => ⟨by cases l <;> rfl, by cases l <;> rfl, fun s hb => ⟨?_, ?_⟩⟩
  · rw [exec_driveClock_of_bound l hb, State.driveClock, State.emit, withEvents]
  · rw [exec_driveData_of_bound l hb, State.driveData, State.emit, withEvents]

/-- Settles O24: READ_DATA on each side of the ACK slot, and the levels left after a draw. -/
theorem readDataSamplesEnvironment : Obligations.ReadDataSamplesEnvironment := by
  refine ⟨rfl, fun s hb => ⟨fun hack => ?_, fun ha hd => ?_, s.slaveAt_afterDraw⟩⟩
  · rw [exec_readData_of_bound hb, s.readData_inside (State.inAckSlot_iff.2 hack), State.slaveNow, withEvents]
  · rw [exec_readData_of_bound hb, s.readData_outside (State.inAckSlot_eq_false_iff.2 ⟨ha, hd⟩), withEvents]

/-- Settles O25: SCL as an input is released, so it is high and reads 1. -/
theorem readClockReleasesClock : Obligations.ReadClockReleasesClock := by
  refine ⟨rfl, fun s hb => ⟨?_, rfl⟩⟩
  rw [exec_readClock_of_bound hb]
  rfl

/-- Settles O26. -/
theorem settleOnlyEmits : Obligations.SettleOnlyEmits := by
  refine ⟨rfl, fun s hb => ?_⟩
  rw [exec_settle_of_bound hb, State.settle, State.emit, withEvents]

end Sys2Proof.Certificates
end

section
/-! SUPPORT. The engine's micro-operations inside and outside their line-level preconditions, and the bits of a unit in closed
form (`spec/41_protocol_engine.md` R87 to R92). -/

namespace Sys2Proof.Machine

variable {s t : State}

/-! ### The line-level preconditions (R72, log 6) -/

theorem State.whenIdleLines_of_low (f : State → Result) (h : s.bound = true) (hl : s.sclLine = false ∨ s.mSda = false) :
    s.whenIdleLines f = .refused .linePrecondition := by
  rw [State.whenIdleLines, s.whenBound_of_bound _ h]
  refine if_neg fun hboth => ?_
  obtain ⟨hc, hd⟩ : s.sclLine = true ∧ s.mSda = true := by simpa [State.sdaLine] using hboth
  rcases hl with hl | hl
  · exact absurd hc (Bool.eq_false_iff.1 hl)
  · exact absurd hd (Bool.eq_false_iff.1 hl)

theorem State.whenClockLow_of_high (f : State → Result) (h : s.bound = true) (hc : s.sclLine = true) :
    s.whenClockLow f = .refused .linePrecondition := by
  rw [State.whenClockLow, s.whenBound_of_bound _ h]
  exact if_pos hc

/-- The engine's primitives that need SCL low (R88 to R92). -/
def needsClockLow : Instr → Bool
  | .sendBit _ | .sendAddress | .sendByte | .sampleAck | .stop => true
  | .driveClock _ | .driveData _ | .readData | .readClock | .settle | .start => false
  | .busInit _ _ | .busDeinit | .transferWrite _ _ _ | .acquire | .release => false

theorem exec_of_needsClockLow_high {i : Instr} (hi : needsClockLow i = true) (h : s.bound = true) (hc : s.sclLine = true) :
    exec i s = .refused .linePrecondition := by
  cases i with
  | sendBit b | sendAddress | sendByte | sampleAck | stop => rw [exec]; exact State.whenClockLow_of_high _ h hc
  | driveClock | driveData | readData | readClock | settle | start => cases hi
  | busInit | busDeinit | transferWrite | acquire | release => cases hi

theorem exec_start_of_low (h : s.bound = true) (hl : s.sclLine = false ∨ s.mSda = false) :
    exec .start s = .refused .linePrecondition := by
  rw [exec, execStart, State.whenIdleLines_of_low _ h hl]

/-! ### The effects -/

theorem exec_start_of_high (h : s.bound = true) (hc : s.sclLine = true) (hd : s.mSda = true) :
    exec .start s = .next (s.performList startList) := by
  rw [exec, execStart, s.whenIdleLines_of_high _ h hc hd]

section ClockLow
variable (h : s.bound = true) (hc : s.sclLine = false)
include h hc

theorem exec_sendBit_of_low (b : Level) :
    exec (.sendBit b) s =
      .next (if s.inUnit then (s.performList (bitList b)).shiftOut else s.performList (bitList b)) := by
  rw [exec, execSendBit, s.whenClockLow_of_low _ h hc]

theorem exec_sendAddress_of_low :
    exec .sendAddress s = .next ((s.beginAddress.sendUnitBits 7).beginDirection.sendUnitBits 1) := by
  rw [exec, execSendAddress, s.whenClockLow_of_low _ h hc]

theorem exec_sendByte_of_memRead {b : Byte} (hm : s.memRead s.byteIdx = some b) :
    exec .sendByte s = .next ((s.beginByte b).sendUnitBits 8) := by
  rw [exec, execSendByte, s.whenClockLow_of_low _ h hc, hm]

theorem exec_sendByte_of_noByte (hm : s.memRead s.byteIdx = none) : exec .sendByte s = .fault .payloadIndexOutOfRange := by
  rw [exec, execSendByte, s.whenClockLow_of_low _ h hc, hm]

theorem exec_sampleAck_of_low : exec .sampleAck s = .next (s.performList ackList) := by
  rw [exec, execSampleAck, s.whenClockLow_of_low _ h hc]

theorem exec_stop_of_low : exec .stop s = .next (s.performList stopList) := by
  rw [exec, execStop, s.whenClockLow_of_low _ h hc]

end ClockLow

/-! ### Payload reads (R40) -/

theorem State.memRead_eq_some {i : Len} {b : Byte} (hi : i.toNat < s.reqLen.toNat) (hb : s.payload[i.toNat]? = some b) :
    s.memRead i = some b :=
  (if_pos hi).trans hb

theorem State.memRead_eq_none {i : Len} (h : ¬(i.toNat < s.reqLen.toNat ∧ i.toNat < s.payload.length)) :
    s.memRead i = none := by
  rw [State.memRead]
  split
  next hi => exact List.getElem?_eq_none (not_lt.1 fun hp => h ⟨hi, hp⟩)
  next => rfl

theorem State.getElem?_of_memRead {i : Len} {b : Byte} (h : s.memRead i = some b) : s.payload[i.toNat]? = some b := by
  rw [State.memRead] at h
  split at h
  · exact h
  · cases h

/-! ### The bits of a unit -/

theorem State.inUnit_iff : s.inUnit = true ↔ s.fsm ∈ [Fsm.addressBits, .directionBit, .dataByteBits] ∧ s.bitCnt ≠ 0#4 := by
  simp [State.inUnit, or_assoc]

/-- `BIT_CNT - 1` as the statements write it. -/
theorem bitCnt_pred {n : BitVec 4} (h : n ≠ 0#4) : n - 1#4 = BitVec.ofNat 4 (n.toNat - 1) := by
  bv_omega

theorem shiftLeft_eq (u : Byte) : shiftLeft u = u <<< 1 := by
  revert u; decide

/-- After `n` shifts of a unit its bit `7 - n` is the next on the wire (R22). -/
theorem getLsbD_shifted {n : Nat} (u : Byte) (hn : n ≤ 7) : (u <<< n).getLsbD 7 = u.getLsbD (7 - n) := by
  rw [BitVec.getLsbD_shiftLeft, decide_eq_false (Nat.not_lt.2 hn)]
  rfl

/-- The bit slots of the first `n` bits of a unit, bit 7 first (R42). -/
def bitSlots (u : Byte) (n : Nat) : List PinEvent := (List.range n).flatMap fun i => bitEvents (u.getLsbD (7 - i))

theorem bitSlots_succ (u : Byte) (n : Nat) : bitSlots u (n + 1) = bitSlots u n ++ bitEvents (u.getLsbD (7 - n)) := by
  simp [bitSlots, List.range_succ]

/-- The first `n` bits of a unit: their slots, and `SHIFT` and `BIT_CNT` moved by as many (R88). -/
theorem State.sendUnitBits_eq (s : State) {n : Nat} (hpos : 1 ≤ n) (hn : n ≤ 8) :
    s.sendUnitBits n =
      { s with
        sdaDir := .output, sdaO := s.shift.getLsbD (8 - n), sclDir := .output, sclO := false, sub := 0#3
        trace := s.trace ++ bitSlots s.shift n, shift := s.shift <<< n, bitCnt := s.bitCnt - BitVec.ofNat 4 n } := by
  induction n, hpos using Nat.le_induction with
  | base => rw [State.sendUnitBits, State.sendUnitBits, State.sendUnitBit_eq, shiftLeft_eq, bitSlots_succ]; rfl
  | succ n _ ih =>
    have hcnt : s.bitCnt - BitVec.ofNat 4 n - 1#4 = s.bitCnt - BitVec.ofNat 4 (n + 1) := by
      rw [BitVec.ofNat_add n 1, BitVec.sub_sub]
    have hbit : s.shift.getLsbD (7 - n) = s.shift.getLsbD (8 - (n + 1)) := by rw [Nat.add_comm n 1, ← Nat.sub_sub]
    rw [State.sendUnitBits, ih (by omega), State.sendUnitBit_eq, shiftLeft_eq, bitSlots_succ, ← hbit]
    simp only [State.nextBit, getLsbD_shifted _ (Nat.le_of_succ_le_succ hn), ← BitVec.shiftLeft_add, List.append_assoc, hcnt]

theorem bitSlots_eight (u : Byte) : bitSlots u 8 = unitEvents u := rfl

/-- The address unit is the address above the direction (R43). -/
theorem getLsbD_addressUnit_succ (a : Addr) (dir : Bool) (i : Nat) : (addressUnit a dir).getLsbD (i + 1) = a.getLsbD i := by
  rw [addressUnit, BitVec.getLsbD_append, if_neg (by omega), Nat.add_sub_cancel]

theorem getLsbD_addressUnit_zero (a : Addr) (dir : Bool) : (addressUnit a dir).getLsbD 0 = dir := by
  rw [addressUnit, BitVec.getLsbD_append, if_pos Nat.one_pos]
  cases dir <;> rfl

theorem bitSlots_addressUnit (a : Addr) (dir : Bool) :
    bitSlots (addressUnit a dir) 7 = [6, 5, 4, 3, 2, 1, 0].flatMap fun i => bitEvents (a.getLsbD i) := by
  have hbits : bitSlots (addressUnit a dir) 7 =
      [6, 5, 4, 3, 2, 1, 0].flatMap fun i => bitEvents ((addressUnit a dir).getLsbD (i + 1)) := rfl
  simp only [hbits, getLsbD_addressUnit_succ]

end Sys2Proof.Machine
end

section
/-! SUPPORT. The transition at the end of each list, one equation per row of the table of R80, and the steps that cannot fail
(`spec/41_protocol_engine.md` R80, R86; `spec/42_host_commands.md` R97). -/

namespace Sys2Proof.Machine

variable {s t : State}

/-! ### The transitions, row by row -/

theorem State.loadByte_eq {i : Len} {b : Byte} (h : s.memRead i = some b) :
    s.loadByte i = .next ((s.beginByte b).goto .dataByteBits) := by
  rw [State.loadByte, h]

theorem State.transition_start (hf : s.fsm = .start) : s.transition = .next s.beginAddress := by
  rw [State.transition, hf]

theorem State.transition_addressBits (hf : s.fsm = .addressBits) (hn : s.bitCnt ≠ 0#4) :
    s.transition = .next (if s.shiftOut.bitCnt = 0#4 then s.shiftOut.beginDirection else s.shiftOut) := by
  simp only [State.transition, hf, if_neg hn]

theorem State.transition_directionBit (hf : s.fsm = .directionBit) :
    s.transition = .next { s with shift := shiftLeft s.shift, bitCnt := 0#4, fsm := .addressAck } := by
  rw [State.transition, hf]

theorem State.transition_addressAck_nack (hf : s.fsm = .addressAck) (ha : s.ackBit = true) :
    s.transition = .next (s.enterStop (codeWord .addressNacked)) := by
  simp only [State.transition, hf, if_pos ha]

theorem State.transition_addressAck_empty (hf : s.fsm = .addressAck) (ha : s.ackBit = false) (hn : s.reqLen = 0#16) :
    s.transition = .next (s.enterStop (codeWord .success)) := by
  simp only [State.transition, hf, if_neg (Bool.eq_false_iff.1 ha), if_pos hn]

theorem State.transition_addressAck_load (hf : s.fsm = .addressAck) (ha : s.ackBit = false) (hn : 0 < s.reqLen.toNat) :
    s.transition = s.loadByte 0#16 := by
  have hne : s.reqLen ≠ 0#16 := by bv_omega
  simp only [State.transition, hf, if_neg (Bool.eq_false_iff.1 ha), if_neg hne]

theorem State.transition_dataByteBits (hf : s.fsm = .dataByteBits) (hn : s.bitCnt ≠ 0#4) :
    s.transition = .next (if s.shiftOut.bitCnt = 0#4 then s.shiftOut.goto .dataAck else s.shiftOut) := by
  simp only [State.transition, hf, if_neg hn]

theorem State.transition_dataAck_nack (hf : s.fsm = .dataAck) (ha : s.ackBit = true) :
    s.transition = .next (s.enterStop (respWord .dataNacked s.byteIdx)) := by
  simp only [State.transition, hf, if_pos ha]

theorem State.transition_dataAck_load (hf : s.fsm = .dataAck) (ha : s.ackBit = false)
    (hi : s.byteIdx.toNat + 1 < s.reqLen.toNat) : s.transition = s.nextByte.loadByte (s.byteIdx + 1#16) := by
  have hlast : s.byteIdx ≠ 65535#16 := by bv_omega
  have hmore : (s.byteIdx + 1#16).toNat < s.reqLen.toNat := by bv_omega
  simp only [State.transition, hf, if_neg (Bool.eq_false_iff.1 ha), if_neg hlast, State.nextByte_byteIdx, State.nextByte_reqLen]
  exact if_pos hmore

theorem State.transition_dataAck_done (hf : s.fsm = .dataAck) (ha : s.ackBit = false)
    (hi : s.byteIdx.toNat + 1 = s.reqLen.toNat) : s.transition = .next (s.nextByte.enterStop (codeWord .success)) := by
  have hlast : s.byteIdx ≠ 65535#16 := by bv_omega
  have hdone : ¬(s.byteIdx + 1#16).toNat < s.reqLen.toNat := by bv_omega
  simp only [State.transition, hf, if_neg (Bool.eq_false_iff.1 ha), if_neg hlast, State.nextByte_byteIdx, State.nextByte_reqLen]
  exact if_neg hdone

theorem State.transition_stop (hf : s.fsm = .stop) : s.transition = .next s.finishStop := by
  rw [State.transition, hf]

/-! ### A bit of a unit, with and without a bit to follow -/

theorem State.shiftOut_of_more (hn : 1 < s.bitCnt.toNat) :
    s.bitCnt ≠ 0#4 ∧ s.shiftOut.bitCnt ≠ 0#4 := by
  rw [State.shiftOut_bitCnt]
  constructor <;> bv_omega

theorem State.shiftOut_of_last (hn : s.bitCnt.toNat = 1) : s.bitCnt ≠ 0#4 ∧ s.shiftOut.bitCnt = 0#4 := by
  rw [State.shiftOut_bitCnt]
  constructor <;> bv_omega

theorem State.transition_addressBits_more (hf : s.fsm = .addressBits) (hn : 1 < s.bitCnt.toNat) :
    s.transition = .next s.shiftOut := by
  obtain ⟨hpos, hleft⟩ := State.shiftOut_of_more hn
  rw [State.transition_addressBits hf hpos, if_neg hleft]

theorem State.transition_addressBits_last (hf : s.fsm = .addressBits) (hn : s.bitCnt.toNat = 1) :
    s.transition = .next s.shiftOut.beginDirection := by
  obtain ⟨hpos, hleft⟩ := State.shiftOut_of_last hn
  rw [State.transition_addressBits hf hpos, if_pos hleft]

theorem State.transition_dataByteBits_more (hf : s.fsm = .dataByteBits) (hn : 1 < s.bitCnt.toNat) :
    s.transition = .next s.shiftOut := by
  obtain ⟨hpos, hleft⟩ := State.shiftOut_of_more hn
  rw [State.transition_dataByteBits hf hpos, if_neg hleft]

theorem State.transition_dataByteBits_last (hf : s.fsm = .dataByteBits) (hn : s.bitCnt.toNat = 1) :
    s.transition = .next (s.shiftOut.goto .dataAck) := by
  obtain ⟨hpos, hleft⟩ := State.shiftOut_of_last hn
  rw [State.transition_dataByteBits hf hpos, if_pos hleft]

/-! ### The counters as the statements write them -/

theorem byteIdx_succ (i : Len) : i + 1#16 = BitVec.ofNat 16 (i.toNat + 1) := by
  rw [BitVec.ofNat_add, BitVec.ofNat_toNat, BitVec.setWidth_eq]

theorem State.shiftOut_more_eq (hn : 1 < s.bitCnt.toNat) :
    s.shiftOut = { s with shift := shiftLeft s.shift, bitCnt := BitVec.ofNat 4 (s.bitCnt.toNat - 1) } := by
  rw [State.shiftOut, bitCnt_pred (State.shiftOut_of_more hn).1]

theorem State.shiftOut_last_eq (hn : s.bitCnt.toNat = 1) :
    s.shiftOut = { s with shift := shiftLeft s.shift, bitCnt := 0#4 } := by
  rw [← (State.shiftOut_of_last hn).2]
  rfl

end Sys2Proof.Machine
end

section
/-! SUPPORT. A list performed one event per step is the list performed whole, then its transition; a unit is its bits, each such a
list (`spec/42_host_commands.md` R97, `spec/41_protocol_engine.md` R87 to R92). -/

namespace Sys2Proof.Machine

open Sys2Proof.Claims

variable {s t : State} {op : PinOp}

/-! ### One step with nothing coming in -/

theorem step_alone (h : sequencerAlone s) : step s = s.sequencerStep := by
  obtain ⟨he, hi, hu⟩ := h
  rw [step, State.agentStep, hu, State.environmentStep, hi]
  exact State.blockStep_of_enabled he

theorem runSteps_one (s : State) : runSteps 1 s = step s := by
  cases h : step s with
  | next u => rw [runSteps_succ s u 0 h, runSteps_zero]
  | fault e => simp only [runSteps, Host.Core.run, core, h]
  | refused e => simp only [runSteps, Host.Core.run, core, h]

theorem State.sequencerStep_of_currentEvent (hb : s.bound = true) (he : s.currentEvent = some op) :
    s.sequencerStep = (s.performEvent op).advance := by
  simp only [State.sequencerStep, s.whenBound_of_bound _ hb, he]

theorem State.fsm_ne_idle (h : sequencerAlone s) : s.fsm ≠ .idle := (s.sequencerEnabled_iff.1 h.1).2.2

/-! ### A list, one event per step -/

theorem State.length_eventList (hi : s.fsm ≠ .idle) : s.eventList.length = s.fsm.last + 1 := by
  rw [State.eventList]
  cases hf : s.fsm
  case idle => exact absurd hf hi
  all_goals rfl

theorem State.eventList_moved : (s.performEvent op).moved.eventList = s.eventList := by
  simp only [State.eventList, State.nextBit, State.moved_fsm, State.moved_shift, State.performEvent_fsm, State.performEvent_shift]

theorem sequencerAlone_moved (h : sequencerAlone s) : sequencerAlone (s.performEvent op).moved := by
  cases op <;> exact h

theorem State.bound_moved (h : s.bound = true) : (s.performEvent op).moved.bound = true := by
  cases op <;> exact h

/-- No pin event reads `SUB`. -/
theorem State.restart_foldl_moved (s : State) (ops : List PinOp) :
    (ops.foldl State.performEvent s.moved).restart = (ops.foldl State.performEvent s).restart := by
  induction ops generalizing s with
  | nil => rfl
  | cons op ops ih =>
    have hcomm : s.moved.performEvent op = (s.performEvent op).moved := by cases op <;> rfl
    rw [List.foldl_cons, List.foldl_cons, hcomm, ih]

/-- What is left of a list begins with the event at the position, and ends with the list. -/
theorem State.position_of_rest {ops : List PinOp} (hi : s.fsm ≠ .idle) (hrest : s.eventList.drop s.sub.toNat = op :: ops) :
    s.currentEvent = some op ∧ s.fsm.last = s.sub.toNat + ops.length := by
  constructor
  · rw [State.currentEvent, ← List.head?_drop, hrest, List.head?_cons]
  · have hlen := congrArg List.length hrest
    rw [List.length_drop, State.length_eventList hi, List.length_cons] at hlen
    omega

/-- The steps through what is left of a list from the position on. -/
theorem runSteps_rest {ops : List PinOp} (h : sequencerAlone s) (hb : s.bound = true)
    (hrest : s.eventList.drop s.sub.toNat = op :: ops) :
    runSteps (ops.length + 1) s = ((op :: ops).foldl State.performEvent s).restart.transition := by
  induction ops generalizing s op with
  | nil =>
    obtain ⟨hev, hlast⟩ := State.position_of_rest (State.fsm_ne_idle h) hrest
    have hend : ¬ (s.performEvent op).sub.toNat < (s.performEvent op).fsm.last := by simp [hlast]
    rw [List.length_nil, runSteps_one, step_alone h, State.sequencerStep_of_currentEvent hb hev, State.advance_atEnd hend]
    rfl
  | cons op' ops ih =>
    obtain ⟨hev, hlast⟩ := State.position_of_rest (State.fsm_ne_idle h) hrest
    have hinside : (s.performEvent op).sub.toNat < (s.performEvent op).fsm.last := by simp [hlast]
    have hstep : step s = .next (s.performEvent op).moved := by
      rw [step_alone h, State.sequencerStep_of_currentEvent hb hev, State.advance_inside hinside]
    have hsub : (s.performEvent op).moved.sub.toNat = s.sub.toNat + 1 := by
      have hle := s.fsm.last_le
      rw [State.moved_sub, State.performEvent_sub]
      rw [List.length_cons] at hlast
      bv_omega
    have hrest' : (s.performEvent op).moved.eventList.drop (s.performEvent op).moved.sub.toNat = op' :: ops := by
      rw [State.eventList_moved, hsub, ← List.tail_drop, hrest, List.tail_cons]
    rw [List.length_cons, runSteps_succ _ _ _ hstep, ih (sequencerAlone_moved h) (State.bound_moved hb) hrest',
      State.restart_foldl_moved, ← List.foldl_cons]

/-- The steps through a whole list: the list performed whole, then its transition (R97). -/
theorem runSteps_eventList (h : sequencerAlone s) (hb : s.bound = true) (hs : s.sub = 0#3) :
    runSteps s.eventList.length s = (s.performList s.eventList).transition := by
  have hlen := State.length_eventList (State.fsm_ne_idle h)
  obtain ⟨op, ops, hops⟩ := List.exists_cons_of_length_eq_add_one hlen
  rw [hops]
  exact runSteps_rest h hb (by rw [hs]; exact hops)

/-! ### The bits of a unit, six steps each -/

/-- At the first position of a bit in a phase of a unit, with nothing coming in. -/
structure State.AtBit (s : State) : Prop where
  alone : sequencerAlone s
  bound : s.bound = true
  sub : s.sub = 0#3
  phase : s.fsm ∈ [Fsm.addressBits, .directionBit, .dataByteBits]

theorem State.AtBit.eventList (h : s.AtBit) : s.eventList = bitList s.nextBit := by
  have hf := h.phase
  simp only [List.mem_cons, List.not_mem_nil, or_false] at hf
  rcases hf with hf | hf | hf <;> rw [State.eventList, hf]

theorem State.AtBit.runSteps_bit (h : s.AtBit) : runSteps 6 s = (s.performList (bitList s.nextBit)).transition := by
  have hrun := runSteps_eventList h.alone h.bound h.sub
  rw [h.eventList] at hrun
  exact hrun

theorem State.AtBit.sendUnitBits (h : s.AtBit) (n : Nat) : (s.sendUnitBits n).AtBit := by
  induction n with
  | zero => exact h
  | succ n ih =>
    rw [State.sendUnitBits, State.sendUnitBit_eq]
    exact ⟨ih.alone, ih.bound, rfl, ih.phase⟩

theorem State.AtBit.beginDirection (h : s.AtBit) : s.beginDirection.AtBit := by
  obtain ⟨he, hi, hu⟩ := h.alone
  obtain ⟨hb, hf, -⟩ := s.sequencerEnabled_iff.1 he
  exact ⟨⟨(State.sequencerEnabled_iff _).2 ⟨hb, hf, nofun⟩, hi, hu⟩, h.bound, h.sub, .tail _ (.head _)⟩

theorem State.sendUnitBits_fsm (s : State) (n : Nat) : (s.sendUnitBits n).fsm = s.fsm := by
  induction n with
  | zero => rfl
  | succ n ih => rw [State.sendUnitBits, State.sendUnitBit_eq, ih]

theorem State.sendUnitBits_bitCnt (s : State) {n : Nat} (hn : n ≤ s.bitCnt.toNat) :
    (s.sendUnitBits n).bitCnt.toNat = s.bitCnt.toNat - n := by
  induction n with
  | zero => rfl
  | succ n ih =>
    rw [State.sendUnitBits, State.sendUnitBit_eq]
    have hleft := ih (by omega)
    bv_omega

theorem State.performList_bit_fsm (s : State) (b : Level) : (s.performList (bitList b)).fsm = s.fsm := by
  rw [State.performList_bit]

theorem State.performList_bit_bitCnt (s : State) (b : Level) : (s.performList (bitList b)).bitCnt = s.bitCnt := by
  rw [State.performList_bit]

/-- A bit with another of its unit to follow. -/
theorem State.AtBit.runSteps_more (h : s.AtBit) (hf : s.fsm = .addressBits ∨ s.fsm = .dataByteBits) (hn : 1 < s.bitCnt.toNat) :
    runSteps 6 s = .next s.sendUnitBit := by
  rw [h.runSteps_bit, State.sendUnitBit]
  rcases hf with hf | hf
  · exact State.transition_addressBits_more ((s.performList_bit_fsm _).trans hf) (by rwa [State.performList_bit_bitCnt])
  · exact State.transition_dataByteBits_more ((s.performList_bit_fsm _).trans hf) (by rwa [State.performList_bit_bitCnt])

/-- The bits of a unit but its last. -/
theorem State.AtBit.runSteps_bits (h : s.AtBit) (hf : s.fsm = .addressBits ∨ s.fsm = .dataByteBits) {n : Nat}
    (hn : n < s.bitCnt.toNat) : runSteps (6 * n) s = .next (s.sendUnitBits n) := by
  induction n with
  | zero => rfl
  | succ n ih =>
    have hleft : 1 < (s.sendUnitBits n).bitCnt.toNat := by rw [s.sendUnitBits_bitCnt (by omega)]; omega
    rw [Nat.mul_succ, runSteps_add _ _ _ _ (ih (by omega))]
    exact (h.sendUnitBits n).runSteps_more (by rwa [s.sendUnitBits_fsm]) hleft

theorem State.AtBit.runSteps_addressBits_last (h : s.AtBit) (hf : s.fsm = .addressBits) (hn : s.bitCnt.toNat = 1) :
    runSteps 6 s = .next s.sendUnitBit.beginDirection := by
  rw [h.runSteps_bit]
  exact State.transition_addressBits_last ((s.performList_bit_fsm _).trans hf) (by rwa [State.performList_bit_bitCnt])

theorem State.AtBit.runSteps_dataByteBits_last (h : s.AtBit) (hf : s.fsm = .dataByteBits) (hn : s.bitCnt.toNat = 1) :
    runSteps 6 s = .next (s.sendUnitBit.goto .dataAck) := by
  rw [h.runSteps_bit]
  exact State.transition_dataByteBits_last ((s.performList_bit_fsm _).trans hf) (by rwa [State.performList_bit_bitCnt])

theorem State.AtBit.runSteps_directionBit (h : s.AtBit) (hf : s.fsm = .directionBit) (hn : s.bitCnt = 1#4) :
    runSteps 6 s = .next (s.sendUnitBit.goto .addressAck) := by
  rw [h.runSteps_bit, State.transition_directionBit ((s.performList_bit_fsm _).trans hf), State.sendUnitBit_eq, hn,
    State.performList_bit]
  rfl

/-- The 42 steps of the address bits and the 6 of the direction bit (R89, R97). -/
theorem State.AtBit.runSteps_addressUnit (h : s.AtBit) (hf : s.fsm = .addressBits) (hn : s.bitCnt = 7#4) :
    runSteps 48 s = .next (((s.sendUnitBits 7).beginDirection.sendUnitBits 1).goto .addressAck) := by
  have hcnt : s.bitCnt.toNat = 7 := congrArg BitVec.toNat hn
  have hsix : runSteps 36 s = .next (s.sendUnitBits 6) := h.runSteps_bits (n := 6) (.inl hf) (by omega)
  have hlast : runSteps 6 (s.sendUnitBits 6) = .next (s.sendUnitBits 7).beginDirection :=
    (h.sendUnitBits 6).runSteps_addressBits_last ((s.sendUnitBits_fsm 6).trans hf)
      (by rw [s.sendUnitBits_bitCnt (by omega), hcnt])
  rw [show 48 = 36 + (6 + 6) from rfl, runSteps_add _ _ _ _ hsix, runSteps_add _ _ _ _ hlast]
  exact (h.sendUnitBits 7).beginDirection.runSteps_directionBit rfl rfl

/-- The 48 steps of a payload byte (R90, R97). -/
theorem State.AtBit.runSteps_byteUnit (h : s.AtBit) (hf : s.fsm = .dataByteBits) (hn : s.bitCnt = 8#4) :
    runSteps 48 s = .next ((s.sendUnitBits 8).goto .dataAck) := by
  have hcnt : s.bitCnt.toNat = 8 := congrArg BitVec.toNat hn
  have hseven : runSteps 42 s = .next (s.sendUnitBits 7) := h.runSteps_bits (n := 7) (.inr hf) (by omega)
  rw [show 48 = 42 + 6 from rfl, runSteps_add _ _ _ _ hseven]
  exact (h.sendUnitBits 7).runSteps_dataByteBits_last ((s.sendUnitBits_fsm 7).trans hf)
    (by rw [s.sendUnitBits_bitCnt (by omega), hcnt])

/-! ### What a micro-operation that answers says of the state before it -/

theorem State.bound_of_exec_next {i : Instr} (hi : needsPair i = true) (h : exec i s = .next t) : s.bound = true := by
  refine Bool.eq_true_of_not_eq_false fun hb => ?_
  rw [exec_of_needsPair_unbound hi hb] at h
  cases h

theorem exec_start_eq_next (h : exec .start s = .next t) : t = s.performList startList := by
  rw [exec, execStart] at h
  cases State.whenIdleLines_eq_next h
  rfl

theorem exec_sampleAck_eq_next (h : exec .sampleAck s = .next t) : t = s.performList ackList := by
  rw [exec, execSampleAck] at h
  cases State.whenClockLow_eq_next h
  rfl

theorem exec_stop_eq_next (h : exec .stop s = .next t) : t = s.performList stopList := by
  rw [exec, execStop] at h
  cases State.whenClockLow_eq_next h
  rfl

theorem exec_sendAddress_eq_next (h : exec .sendAddress s = .next t) :
    t = (s.beginAddress.sendUnitBits 7).beginDirection.sendUnitBits 1 := by
  rw [exec, execSendAddress] at h
  cases State.whenClockLow_eq_next h
  rfl

theorem exec_sendByte_eq_next (h : exec .sendByte s = .next t) :
    ∃ b, s.memRead s.byteIdx = some b ∧ t = (s.beginByte b).sendUnitBits 8 := by
  rw [exec, execSendByte] at h
  replace h := State.whenClockLow_eq_next h
  cases hm : s.memRead s.byteIdx with
  | none => rw [hm] at h; cases h
  | some b => rw [hm] at h; exact ⟨b, rfl, (Host.Outcome.next.inj h).symm⟩

/-- A list's steps are the micro-operation that performs it, then the transition. -/
theorem runSteps_primitive {i : Instr} {ops : List PinOp} (h : sequencerAlone s) (hs : s.sub = 0#3) (hi : needsPair i = true)
    (he : exec i s = .next t) (ht : t = s.performList ops) (hops : s.eventList = ops) :
    runSteps ops.length s = t.transition := by
  subst hops
  rw [ht]
  exact runSteps_eventList h (State.bound_of_exec_next hi he) hs

end Sys2Proof.Machine
end

section
/-! SUPPORT. The events of a transfer: START, ACK-closed units, STOP; their settles and their drives of SDA; and the
idle bus (`spec/41_protocol_engine.md` R81 to R83, `spec/42_host_commands.md` R98). -/

namespace Sys2Proof.Machine

variable {v : Nat → Level}

/-! ### The shape of a transfer's events -/

/-- A unit and the ACK slot that closes it (R98). -/
def unitSlot (x : Byte × Level) : List PinEvent := unitEvents x.1 ++ ackEvents x.2

theorem dataRun_events (v : Nat → Level) (k : Nat) (p : List Byte) :
    ∃ units : List (Byte × Level), (dataRun v k p).events = units.flatMap unitSlot ++ stopEvents := by
  induction p generalizing k with
  | nil => exact ⟨[], rfl⟩
  | cons b bs ih =>
    cases h : v (k + 1) with
    | true => exact ⟨[(b, true)], by rw [dataRun_of_nack h, List.flatMap_singleton, unitSlot]⟩
    | false =>
      obtain ⟨units, hu⟩ := ih (k + 1)
      exact ⟨(b, false) :: units, by rw [dataRun_of_ack h, hu, List.flatMap_cons, unitSlot, List.append_assoc _ _ stopEvents]⟩

/-- A transfer is START, units each with its ACK slot, and STOP (R98). -/
theorem traceOf_events (a : Addr) (p : List Byte) (v : Nat → Level) :
    ∃ units : List (Byte × Level), (traceOf a p v).events = startEvents ++ units.flatMap unitSlot ++ stopEvents := by
  cases h : v 0 with
  | true =>
    refine ⟨[(addressUnit a false, true)], ?_⟩
    rw [traceOf_of_nack h, List.flatMap_singleton, unitSlot, List.append_assoc startEvents]
  | false =>
    obtain ⟨units, hu⟩ := dataRun_events v 0 p
    refine ⟨(addressUnit a false, false) :: units, ?_⟩
    rw [traceOf_of_ack h, hu, List.flatMap_cons, unitSlot]
    simp only [List.append_assoc]

/-! ### Settles (R82) -/

theorem settledDrives_append {es fs : List PinEvent} (he : settledDrives es = true) (hf : settledDrives fs = true) :
    settledDrives (es ++ fs) = true := by
  fun_induction settledDrives es with
  | case1 => exact hf
  | case2 l es ih | case3 l es ih | case4 l es ih => exact ih he
  | case5 | case6 | case7 | case8 | case9 | case10 => cases he

theorem settledDrives_flatMap {α : Type} {f : α → List PinEvent} (xs : List α) (h : ∀ x, settledDrives (f x) = true) :
    settledDrives (xs.flatMap f) = true := by
  induction xs with
  | nil => rfl
  | cons x xs ih => exact settledDrives_append (h x) ih

theorem settledDrives_unitSlot (x : Byte × Level) : settledDrives (unitSlot x) = true :=
  settledDrives_append (settledDrives_flatMap _ fun _ => rfl) rfl

/-! ### Drives of SDA while SCL is high (R83) -/

theorem drivesWhileClockHigh_append (scl : Level) (es fs : List PinEvent) :
    drivesWhileClockHigh scl (es ++ fs) =
      drivesWhileClockHigh scl es ++ drivesWhileClockHigh (es.foldl clockAfter scl) fs := by
  induction es generalizing scl with
  | nil => rfl
  | cons e es ih =>
    simp only [List.cons_append, drivesWhileClockHigh, List.foldl_cons, ih]
    split <;> rfl

/-- From a low SCL to a low SCL, with no drive of SDA while SCL is high between. -/
structure QuietSlot (es : List PinEvent) : Prop where
  noDrive : drivesWhileClockHigh false es = []
  clockLow : es.foldl clockAfter false = false

theorem QuietSlot.append {es fs : List PinEvent} (he : QuietSlot es) (hf : QuietSlot fs) : QuietSlot (es ++ fs) where
  noDrive := by rw [drivesWhileClockHigh_append, he.noDrive, he.clockLow, hf.noDrive, List.append_nil]
  clockLow := by rw [List.foldl_append, he.clockLow, hf.clockLow]

theorem QuietSlot.flatMap {α : Type} {f : α → List PinEvent} (xs : List α) (h : ∀ x, QuietSlot (f x)) :
    QuietSlot (xs.flatMap f) := by
  induction xs with
  | nil => exact ⟨rfl, rfl⟩
  | cons x xs ih => exact (h x).append ih

theorem quietSlot_unitSlot (x : Byte × Level) : QuietSlot (unitSlot x) :=
  (QuietSlot.flatMap _ fun _ => ⟨rfl, rfl⟩).append ⟨rfl, rfl⟩

/-! ### The idle bus (R81) -/

theorem State.linesIdle_iff {s : State} :
    s.linesIdle = true ↔ s.sclO = true ∧ s.sclDir = .output ∧ s.sdaO = true ∧ s.sdaDir = .output := by
  simp only [State.linesIdle, Bool.and_eq_true, beq_iff_eq, and_assoc]

end Sys2Proof.Machine
end

section
/-! SUPPORT. Where a fault can come from, and that a legal position has none (`spec/20_memory.md` R40,
`spec/41_protocol_engine.md` R86). -/

namespace Sys2Proof.Machine

variable {s t : State} {f : Fault}

/-! ### Only the sequencer can fault -/

theorem State.acceptCommand_ne_fault {w : Word} {p : List Byte} : s.acceptCommand w p ≠ .fault f := by
  intro h
  simp only [State.acceptCommand] at h
  split at h
  next i hd =>
    rcases decodeHost_instr hd with ⟨c, d, rfl⟩ | rfl | ⟨a, n, q, rfl⟩
    · cases h
    · cases h
    · simp only [exec, execTransferWrite] at h
      split at h <;> cases h
  all_goals cases h

theorem State.blockStep_fault (h : s.blockStep = .fault f) : s.sequencerEnabled = true ∧ s.sequencerStep = .fault f := by
  rw [State.blockStep] at h
  split at h
  next he => exact ⟨he, h⟩
  next => cases h

theorem State.act_fault {a : Action} {rest : List Pending} (h : s.act a rest = .fault f) : s.blockStep = .fault f := by
  cases a <;> simp only [State.act] at h
  case command w p =>
    split at h
    · exact h
    · exact absurd h State.acceptCommand_ne_fault
  case reserve p =>
    split at h
    · exact h
    · cases h
  case unreserve p =>
    split at h
    · exact h
    · rw [State.platformUnreserve] at h
      split at h <;> cases h
  all_goals cases h

/-- With nothing on the internal port a fault is the sequencer's. -/
theorem step_fault (hu : s.uport = []) (h : step s = .fault f) :
    s.sequencerEnabled = true ∧ ∃ xs, (s.withInputs xs).sequencerStep = .fault f := by
  have block (hb : s.blockStep = .fault f) : s.sequencerEnabled = true ∧ ∃ xs, (s.withInputs xs).sequencerStep = .fault f := by
    obtain ⟨he, hq⟩ := State.blockStep_fault hb
    exact ⟨he, s.inputs, hq⟩
  simp only [step, State.agentStep, hu, State.environmentStep] at h
  split at h
  next => exact block h
  next p rest _ =>
    split at h
    next hd => exact ⟨(Bool.and_eq_true_iff.1 hd).1, _, h⟩
    next => exact block (State.act_fault h)

/-! ### A legal position has an event and a transition -/

theorem State.exists_currentEvent (hi : s.fsm ≠ .idle) (hs : s.subLegal = true) : ∃ op, s.currentEvent = some op := by
  have hlt : s.sub.toNat < s.eventList.length := by
    rw [State.length_eventList hi]
    exact Nat.lt_succ_of_le (of_decide_eq_true hs)
  exact ⟨_, List.getElem?_eq_getElem hlt⟩

/-- A payload index below `REQ_LEN` has its byte (R40). -/
theorem State.loadByte_ne_fault {i : Len} (hp : s.payload.length = s.reqLen.toNat) (hi : i.toNat < s.reqLen.toNat) :
    s.loadByte i ≠ .fault f := by
  have hb : s.payload[i.toNat]? = some s.payload[i.toNat] := List.getElem?_eq_getElem (hp ▸ hi)
  rw [State.loadByte_eq (State.memRead_eq_some hi hb)]
  exact nofun

/-- At every bit of a unit `BIT_CNT` counts that bit (R23). -/
theorem State.bitCnt_ne_zero (hn : s.bitCntLegal = true) (hf : s.fsm = .addressBits ∨ s.fsm = .dataByteBits) :
    s.bitCnt ≠ 0#4 := by
  rintro h0
  rcases hf with hf | hf <;> simp [State.bitCntLegal, hf, h0] at hn

/-- No row of the table of R80 is left out of a legal position. -/
theorem State.transition_ne_fault (hn : s.bitCntLegal = true) (hx : s.indexLegal = true)
    (hp : s.payload.length = s.reqLen.toNat) : s.transition ≠ .fault f := by
  cases hf : s.fsm with
  | idle => rw [State.transition, hf]; exact nofun
  | start => rw [State.transition_start hf]; exact nofun
  | addressBits =>
    rw [State.transition_addressBits hf (State.bitCnt_ne_zero hn (.inl hf))]
    exact nofun
  | directionBit => rw [State.transition_directionBit hf]; exact nofun
  | addressAck =>
    cases ha : s.ackBit with
    | true => rw [State.transition_addressAck_nack hf ha]; exact nofun
    | false =>
      rcases Nat.eq_zero_or_pos s.reqLen.toNat with h0 | hpos
      · rw [State.transition_addressAck_empty hf ha (BitVec.eq_of_toNat_eq h0)]
        exact nofun
      · rw [State.transition_addressAck_load hf ha hpos]
        exact State.loadByte_ne_fault hp hpos
  | dataByteBits =>
    rw [State.transition_dataByteBits hf (State.bitCnt_ne_zero hn (.inr hf))]
    exact nofun
  | dataAck =>
    have hlt : s.byteIdx.toNat < s.reqLen.toNat := by simpa [State.indexLegal, hf] using hx
    cases ha : s.ackBit with
    | true => rw [State.transition_dataAck_nack hf ha]; exact nofun
    | false =>
      rcases Nat.lt_or_eq_of_le (Nat.succ_le_of_lt hlt) with hmore | hdone
      · have hnext : (s.byteIdx + 1#16).toNat = s.byteIdx.toNat + 1 := by bv_omega
        rw [State.transition_dataAck_load hf ha hmore]
        exact State.loadByte_ne_fault (s := s.nextByte) hp (hnext ▸ hmore)
      · rw [State.transition_dataAck_done hf ha hdone]
        exact nofun
  | stop => rw [State.transition_stop hf]; exact nofun

/-- A sequencer step from a legal position is no fault: it performs an event, and at the last settle of a list the transition. -/
theorem State.Placed.sequencerStep_ne_fault (h : s.Placed) (hi : s.fsm ≠ .idle) (hb : s.bound = true)
    (hp : s.payload.length = s.reqLen.toNat) : s.sequencerStep ≠ .fault f := by
  obtain ⟨op, hev⟩ := State.exists_currentEvent hi h.subLegal
  rw [State.sequencerStep_of_currentEvent hb hev]
  by_cases hlt : s.sub.toNat < s.fsm.last
  · rw [State.advance_inside (by simpa using hlt)]
    exact nofun
  · have hlast : s.sub.toNat = s.fsm.last := le_antisymm (of_decide_eq_true h.subLegal) (not_lt.1 hlt)
    cases hev.symm.trans (State.currentEvent_last hi hlast)
    rw [State.advance_atEnd (by simpa using hlt)]
    exact State.transition_ne_fault (s := s.settle.restart) h.bitCntLegal h.index hp

theorem Inv.step_ne_fault (h : Inv s) : step s ≠ .fault f := by
  intro hfault
  obtain ⟨he, xs, hq⟩ := step_fault h.noInjectedWord hfault
  obtain ⟨hb, -, hi⟩ := s.sequencerEnabled_iff.1 he
  exact ((h.withInputs xs).placed he).sequencerStep_ne_fault hi (h.busyInTransfer hb).1 (h.payloadAttached hb).1 hq

end Sys2Proof.Machine
end

section
/-! The statements of `spec/41_protocol_engine.md`. -/

namespace Sys2Proof.Certificates

open Sys2Proof.Machine Sys2Proof.Claims

/-- Settles O20. -/
theorem refusedOutsideLinePrecondition : Obligations.RefusedOutsideLinePrecondition := by
  refine fun s hb => ⟨exec_start_of_low hb, fun hc i hi => exec_of_needsClockLow_high ?_ hb hc⟩
  revert i
  decide

/-- Settles O27. -/
theorem startDrivesDataThenClockLow : Obligations.StartDrivesDataThenClockLow := by
  refine ⟨rfl, fun s hb hc hd => ?_⟩
  rw [exec_start_of_high hb hc hd, s.performList_start, startEvents, withEvents]

/-- Settles O28: the bit slot, shifted out where a bit of a unit is left. -/
theorem sendBitClocksOneBit : Obligations.SendBitClocksOneBit := by
  refine fun b => ⟨by cases b <;> rfl, fun s hb hc => ⟨fun hu => ?_, fun hu => ?_⟩⟩
  · rw [exec_sendBit_of_low hb hc, if_pos (State.inUnit_iff.2 hu), s.performList_bit, State.shiftOut, bitCnt_pred hu.2]
    rfl
  · rw [exec_sendBit_of_low hb hc, if_neg (mt State.inUnit_iff.1 hu), s.performList_bit]
    rfl

/-- Settles O29: bits 7 to 1 of the address unit are the address, its bit 0 is the direction. -/
theorem sendAddressSendsAddressUnit : Obligations.SendAddressSendsAddressUnit := by
  refine ⟨rfl, fun s hb hc => ?_⟩
  have hlast : (addressUnit s.reqAddr s.reqDir <<< 7).getLsbD 7 = s.reqDir :=
    (getLsbD_shifted _ le_rfl).trans (getLsbD_addressUnit_zero _ _)
  have hslot : bitSlots (addressUnit s.reqAddr s.reqDir <<< 7) 1 = bitEvents s.reqDir := congrArg bitEvents hlast
  have hempty : addressUnit s.reqAddr s.reqDir <<< 7 <<< 1 = 0#8 := by
    rw [← BitVec.shiftLeft_add, BitVec.shiftLeft_eq_zero le_rfl]
  rw [exec_sendAddress_of_low hb hc, State.sendUnitBits_eq s.beginAddress (by omega) (by omega),
    State.sendUnitBits_eq _ le_rfl (by omega)]
  simp only [State.beginAddress, State.beginDirection, bitSlots_addressUnit, hlast, hslot, hempty, List.append_assoc]
  rfl

/-- Settles O30: the eight bits of the byte read, or the fault where there is none. -/
theorem sendByteSendsPayloadByte : Obligations.SendByteSendsPayloadByte := by
  refine ⟨rfl, fun s hb hc => ⟨fun b hi hp => ?_, fun hn => exec_sendByte_of_noByte hb hc (State.memRead_eq_none hn)⟩⟩
  rw [exec_sendByte_of_memRead hb hc (State.memRead_eq_some hi hp), State.sendUnitBits_eq _ (by omega) le_rfl]
  simp only [State.beginByte, bitSlots_eight, BitVec.shiftLeft_eq_zero (Nat.le_refl 8)]
  rfl

/-- Settles O31. -/
theorem sampleAckLatchesSample : Obligations.SampleAckLatchesSample := by
  refine ⟨rfl, fun s hb hc => ?_⟩
  rw [exec_sampleAck_of_low hb hc, s.performList_ack, State.slaveNow, ackEvents, withEvents]

/-- Settles O32. -/
theorem stopRaisesClockThenData : Obligations.StopRaisesClockThenData := by
  refine ⟨rfl, fun s hb hc => ?_⟩
  rw [exec_stop_of_low hb hc, s.performList_stop, stopEvents, withEvents]

/-- Settles O38: at the end of a list the advance is the transition, row by row. -/
theorem sequencerTransitions : Obligations.SequencerTransitions := by
  intro s hs t shifted
  have hend : s.advance = t.transition := State.advance_atEnd (not_lt.2 hs.ge)
  rw [hend]
  refine ⟨State.transition_start (s := t), fun hf hn => ?_, fun hf hn => ?_, fun hf => ?_,
    State.transition_addressAck_nack (s := t), State.transition_addressAck_empty (s := t), fun b hf ha hlen hb => ?_, fun hf hn => ?_, fun hf hn => ?_,
    State.transition_dataAck_nack (s := t), fun b hf ha hi hb => ?_, fun hf ha hi => ?_, State.transition_stop (s := t)⟩
  · rw [State.transition_addressBits_more (s := t) hf hn, State.shiftOut_more_eq (s := t) hn]
    rfl
  · exact State.transition_addressBits_last (s := t) hf hn
  · exact State.transition_directionBit (s := t) hf
  · rw [State.transition_addressAck_load (s := t) hf ha hlen]
    exact State.loadByte_eq (State.memRead_eq_some (s := t) hlen hb)
  · rw [State.transition_dataByteBits_more (s := t) hf hn, State.shiftOut_more_eq (s := t) hn]
    rfl
  · rw [State.transition_dataByteBits_last (s := t) hf hn, State.shiftOut_last_eq (s := t) hn]
    rfl
  · have hnext : (s.byteIdx + 1#16).toNat = s.byteIdx.toNat + 1 := by bv_omega
    rw [State.transition_dataAck_load (s := t) hf ha hi, ← byteIdx_succ]
    exact State.loadByte_eq (State.memRead_eq_some (s := t.nextByte) (hnext ▸ hi) (hnext ▸ hb))
  · rw [State.transition_dataAck_done (s := t) hf ha hi, ← byteIdx_succ]
    rfl

/-- Settles O39: the three primitives are one list each. -/
theorem primitiveIsItsSteps : Obligations.PrimitiveIsItsSteps := by
  refine fun s u h hs => ⟨fun hf he => ?_, fun hf he => ?_, fun hf he => ?_⟩
  · exact runSteps_primitive h hs rfl he (exec_start_eq_next he) (by rw [State.eventList, hf])
  · exact runSteps_primitive h hs rfl he (exec_sampleAck_eq_next he) (by rcases hf with hf | hf <;> rw [State.eventList, hf])
  · exact runSteps_primitive h hs rfl he (exec_stop_eq_next he) (by rw [State.eventList, hf])

/-- Settles O40: at its first position a unit stands as the micro-operation begins it. -/
theorem unitIsItsSteps : Obligations.UnitIsItsSteps := by
  refine fun s u h hs => ⟨fun hf hn hu he => ?_, fun hf hn hp he => ?_⟩
  · have hbit : s.AtBit := ⟨h, State.bound_of_exec_next rfl he, hs, by rw [hf]; decide⟩
    have hbegin : s.beginAddress = s := by
      rw [State.beginAddress, addressUnit, ← hu, ← hn, ← hf]
    rw [exec_sendAddress_eq_next he, hbegin]
    exact hbit.runSteps_addressUnit hf hn
  · have hbit : s.AtBit := ⟨h, State.bound_of_exec_next rfl he, hs, by rw [hf]; decide⟩
    obtain ⟨b, hm, hub⟩ := exec_sendByte_eq_next he
    have hb : b = s.shift := Option.some.inj ((State.getElem?_of_memRead hm).symm.trans hp)
    have hbegin : s.beginByte b = s := by
      rw [State.beginByte, hb, ← hn]
    rw [hub, hbegin]
    exact hbit.runSteps_byteUnit hf hn

/-- Settles O45: START, each unit with its ACK slot and STOP are settled, and so is their sequence. -/
theorem transferDrivesSettle : Obligations.TransferDrivesSettle := by
  intro a p v
  obtain ⟨units, he⟩ := traceOf_events a p v
  rw [he]
  exact settledDrives_append (settledDrives_append rfl (settledDrives_flatMap units settledDrives_unitSlot)) rfl

/-- Settles O46: between START and STOP there are quiet slots only. -/
theorem dataDrivenHighClockTwice : Obligations.DataDrivenHighClockTwice := by
  intro a p v
  obtain ⟨units, he⟩ := traceOf_events a p v
  obtain ⟨hnone, hlow⟩ := QuietSlot.flatMap units quietSlot_unitSlot
  have hstart : startEvents.foldl clockAfter true = false := rfl
  rw [he]
  refine ⟨?_, rfl, startEvents ++ units.flatMap unitSlot ++ [.dd false, .s], ?_⟩
  · rw [drivesWhileClockHigh_append, drivesWhileClockHigh_append, List.foldl_append, hstart, hnone, hlow]
    rfl
  · rw [List.append_assoc _ [_, _]]
    rfl

/-- Settles O52: only the sequencer can fault, and the invariant puts it at a legal position. -/
theorem noFaultUnderInvariant : Obligations.NoFaultUnderInvariant := fun _ _ h => h.step_ne_fault

/-- Settles O53: the invariant places the lines, and in `IDLE` the place is the idle bus. -/
theorem idleBusReleased : Obligations.IdleBusReleased := by
  intro p inputs n t h hf hb hflt
  have hidle : t.linesIdle = true := (State.linesAtPosition_idle hf).symm.trans ((runSteps_inv h).linesPlaced hflt hb)
  obtain ⟨hco, hcd, hdo, hdd⟩ := State.linesIdle_iff.1 hidle
  refine ⟨hco, hcd, hdo, hdd, ?_, ?_⟩
  · rw [State.sclLine, State.mScl, hcd, hco, contribution]
  · rw [State.sdaLine, State.mSda, hdd, hdo, contribution, Bool.and_self]

end Sys2Proof.Certificates
end

section
/-! SUPPORT. The host commands by their outcome (`spec/42_host_commands.md` R93 to R96), the words placed for the fetch, and the
sequencer's step as a micro-operation (R97). -/

namespace Sys2Proof.Machine

variable {s t : State}

/-! ### The command port (R93) -/

theorem State.acceptCommand_of_instr {w : Word} {payload : List Byte} {i : Instr} (h : decodeHost w payload = .instr i) :
    s.acceptCommand w payload = exec i s := by
  rw [State.acceptCommand, h]

theorem State.blockStep_of_disabled (h : s.sequencerEnabled = false) : s.blockStep = .next s :=
  if_neg (Bool.eq_false_iff.1 h)

theorem step_of_noInput (hu : s.uport = []) (hi : s.inputs = []) : step s = s.blockStep := by
  rw [step, State.agentStep, hu, State.environmentStep, hi]

/-- A command that has waited long enough is still held by a busy block: the step is the sequencer's, on the whole state. -/
theorem step_command_of_enabled {w : Word} {payload : List Byte} {rest : List Pending} (hu : s.uport = [])
    (he : s.sequencerEnabled = true) (hi : s.inputs = { after := 0, action := .command w payload } :: rest) :
    step s = s.sequencerStep := by
  have hb : s.busy = true := (s.sequencerEnabled_iff.1 he).1
  calc step s = s.act (.command w payload) rest := s.agentStep_eq_act 0 _ rest hu hi (.inl rfl)
    _ = s.blockStep := if_pos hb
    _ = s.sequencerStep := State.blockStep_of_enabled he

/-! ### BUS_INIT on a free block (R94) -/

theorem exec_busInit_of_illegalState {c d : PinId} (hb : s.busy = false) (h : s.faultFlag = true ∨ s.bound = true) :
    exec (.busInit c d) s = .next (s.complete (codeWord .illegalState)) := by
  have hguard : (s.faultFlag || s.bound) = true := Bool.or_eq_true_iff.2 h
  rw [exec, execBusInit, s.whenFree_of_free _ hb]
  exact congrArg _ (if_pos hguard)

/-- Past the check of the state the answer is ACQUIRE's code. -/
theorem exec_busInit_of_acquire {c d : PinId} (hb : s.busy = false) (hf : s.faultFlag = false) (hbd : s.bound = false)
    {r : ResultCode} (hr : (s.accept.latchOperands c d).acquire c d = (t, r)) :
    exec (.busInit c d) s = .next (t.complete (codeWord r)) := by
  have hguard : ¬(s.faultFlag || s.bound) = true := by simp [hf, hbd]
  rw [exec, execBusInit, s.whenFree_of_free _ hb]
  refine congrArg _ ((if_neg hguard).trans ?_)
  rw [hr, respondAcquire]

/-! ### TRANSFER_WRITE on a free block (R96, R108) -/

section TransferWrite
variable {a : Addr} {len : Len} {p : List Byte} (hp : p.length = len.toNat)
include hp

theorem exec_transferWrite_of_busy (hb : s.busy = true) : exec (.transferWrite a len p) s = .next s := by
  rw [exec, execTransferWrite, if_pos hp, s.whenFree_of_busy _ hb]

theorem exec_transferWrite_of_illegalState (hb : s.busy = false) (h : s.faultFlag = true ∨ s.bound = false) :
    exec (.transferWrite a len p) s = .next (s.complete (codeWord .illegalState)) := by
  have hguard : (s.faultFlag || !s.bound) = true := by simpa using h
  rw [exec, execTransferWrite, if_pos hp, s.whenFree_of_free _ hb]
  exact congrArg _ (if_pos hguard)

theorem exec_transferWrite_of_held (hb : s.busy = false) (hf : s.faultFlag = false) (hbd : s.bound = true) :
    exec (.transferWrite a len p) s = .next (s.accept.beginTransfer a len p) := by
  have hguard : ¬(s.faultFlag || !s.bound) = true := by simp [hf, hbd]
  rw [exec, execTransferWrite, if_pos hp, s.whenFree_of_free _ hb]
  exact congrArg _ (if_neg hguard)

end TransferWrite

/-! ### Words placed for the fetch (log 2) -/

/-- A well-formed host command always answers a next state. -/
theorem exec_host_next {w : Word} {payload : List Byte} {i : Instr} (h : decodeHost w payload = .instr i) (s : State) :
    ∃ t, exec i s = .next t := by
  obtain ⟨hwf, -⟩ := encode_of_decodeHost h
  rcases decodeHost_instr h with ⟨c, d, rfl⟩ | rfl | ⟨a, n, p, rfl⟩
  · exact ⟨_, rfl⟩
  · exact ⟨_, rfl⟩
  · exact ⟨_, if_pos (beq_iff_eq.1 hwf)⟩

theorem State.offerMicroWord_of_instr {w : Byte} {i : Instr} (h : decodeMicro w = .instr i) :
    s.offerMicroWord w = (s.situated i).withPort [w] := by
  rw [State.offerMicroWord, h]

/-- For SEND_BYTE the sequencer stands at a payload byte, SCL low. -/
theorem State.situated_sendByte (s : State) :
    (s.situated .sendByte).bound = true ∧ (s.situated .sendByte).sclLine = false ∧
      ∃ b, (s.situated .sendByte).memRead (s.situated .sendByte).byteIdx = some b := by
  simp only [State.situated]
  split
  next b hm => exact ⟨rfl, rfl, b, hm⟩
  next => exact ⟨rfl, rfl, 0#8, rfl⟩

/-- In the situation in which the sequencer issues it a micro-operation meets its precondition, whatever is on the port. -/
theorem exec_situated_next {w : Byte} {i : Instr} (h : encode i = .micro w) (s : State) (rest : List Byte) :
    ∃ t, exec i ((s.situated i).withPort rest) = .next t := by
  cases i with
  | busInit | busDeinit | transferWrite => cases h
  | acquire => exact ⟨_, exec_acquire_of_unbound rfl⟩
  | release => exact ⟨_, rfl⟩
  | driveClock l => exact ⟨_, exec_driveClock_of_bound l rfl⟩
  | driveData l => exact ⟨_, exec_driveData_of_bound l rfl⟩
  | readData => exact ⟨_, exec_readData_of_bound rfl⟩
  | readClock => exact ⟨_, exec_readClock_of_bound rfl⟩
  | settle => exact ⟨_, exec_settle_of_bound rfl⟩
  | start => exact ⟨_, exec_start_of_high rfl rfl rfl⟩
  | sendBit b => exact ⟨_, exec_sendBit_of_low rfl rfl b⟩
  | sendAddress => exact ⟨_, exec_sendAddress_of_low rfl rfl⟩
  | sendByte =>
    obtain ⟨hb, hc, b, hm⟩ := s.situated_sendByte
    exact ⟨_, exec_sendByte_of_memRead (s := (s.situated .sendByte).withPort rest) hb hc hm⟩
  | sampleAck => exact ⟨_, exec_sampleAck_of_low rfl rfl⟩
  | stop => exact ⟨_, exec_stop_of_low rfl rfl⟩

/-- A table word that decodes is a legal format H word with its payload, or a legal format U word. -/
theorem decodeTableWord_cases {nbits w : Nat} {i : Instr} (h : decodeTableWord nbits w = some i) :
    (nbits = 32 ∧ ∃ payload, decodeHost (BitVec.ofNat 32 w) payload = .instr i ∧
      ∀ s : State, s.withFetchWord nbits w = s.offerCommand (BitVec.ofNat 32 w) payload) ∨
    (nbits = 8 ∧ decodeMicro (BitVec.ofNat 8 w) = .instr i ∧
      ∀ s : State, s.withFetchWord nbits w = s.offerMicroWord (BitVec.ofNat 8 w)) := by
  have hdecode : ∀ {p : PortWord}, tablePortWord nbits w = some p → decode p = .instr i := by
    intro p hp
    simp only [decodeTableWord, hp] at h
    split at h
    next j hj => rw [hj, Option.some.inj h]
    next => cases h
  have hfetch : ∀ {p : PortWord}, tablePortWord nbits w = some p → ∀ s : State, s.withFetchWord nbits w = s.offer p := by
    intro p hp s
    rw [State.withFetchWord, hp]
  by_cases h32 : nbits = 32
  · exact .inl ⟨h32, _, hdecode (if_pos h32), hfetch (if_pos h32)⟩
  by_cases h8 : nbits = 8
  · have hp : tablePortWord nbits w = some (.micro (BitVec.ofNat 8 w)) := (if_neg h32).trans (if_pos h8)
    exact .inr ⟨h8, hdecode hp, hfetch hp⟩
  · have hp : tablePortWord nbits w = none := (if_neg h32).trans (if_neg h8)
    simp only [decodeTableWord, hp, reduceCtorEq] at h

/-! ### The sequencer's step as a micro-operation (R97) -/

theorem State.currentEvent_eq_none (h : s.fsm = .idle ∨ s.fsm.last < s.sub.toNat) : s.currentEvent = none := by
  rw [State.currentEvent, List.getElem?_eq_none_iff]
  by_cases hi : s.fsm = .idle
  · rw [State.eventList, hi]
    exact Nat.zero_le _
  · rw [State.length_eventList hi]
    exact h.resolve_left hi

theorem State.sequencerStep_of_noEvent (hb : s.bound = true) (he : s.currentEvent = none) :
    s.sequencerStep = .fault .positionOutsideList := by
  simp only [State.sequencerStep, s.whenBound_of_bound _ hb, he]

/-- At an ACK slot's sample the engine's READ_DATA is READ_DATA, its level copied to `ACK_BIT` (R91). -/
theorem State.performEvent_readData_eq (he : s.currentEvent = some .readData) :
    s.performEvent .readData = { s.readData with ackBit := s.slaveAt 0 } := by
  obtain ⟨hf, -⟩ := State.ackSlot_of_readData he
  rw [s.readData_inside (State.inAckSlot_iff.2 hf), s.performEvent_readData, State.slaveNow]

/-- `SUB + 1` as the statements write it. -/
theorem sub_succ (n : BitVec 3) : n + 1#3 = BitVec.ofNat 3 (n.toNat + 1) := by
  rw [BitVec.ofNat_add, BitVec.ofNat_toNat, BitVec.setWidth_eq]

end Sys2Proof.Machine
end

section
/-! SUPPORT. The outcome of a transfer by its first NACK, and its pin events counted unit by unit (`spec/42_host_commands.md` R98 to
R100). -/

namespace Sys2Proof.Machine

variable {v : Nat → Level}

/-! ### The outcome (R100) -/

/-- Of the samples 0 to `n` all are 0, or there is a first one that is 1: the address unit's, or that of a byte. -/
theorem firstNack_cases (v : Nat → Level) (n : Nat) :
    (∀ j, j ≤ n → v j = false) ∨ v 0 = true ∨ ∃ k, k < n ∧ (∀ j, j ≤ k → v j = false) ∧ v (k + 1) = true := by
  induction n with
  | zero =>
    cases h : v 0 with
    | true => exact .inr (.inl rfl)
    | false => exact .inl fun j hj => Nat.le_zero.1 hj ▸ h
  | succ n ih =>
    rcases ih with hnone | haddr | ⟨k, hk, hbefore, hnack⟩
    · cases h : v (n + 1) with
      | true => exact .inr (.inr ⟨n, Nat.lt_succ_self n, hnone, h⟩)
      | false => exact .inl fun j hj => (Nat.le_succ_iff.1 hj).elim (hnone j) fun e => e ▸ h
    · exact .inr (.inl haddr)
    · exact .inr (.inr ⟨k, hk.trans (Nat.lt_succ_self n), hbefore, hnack⟩)

/-- All bytes acknowledged. -/
theorem dataRun_success {k : Nat} (p : List Byte) (h : ∀ j, j < p.length → v (k + j + 1) = false) :
    (dataRun v k p).response = codeWord .success ∧ (dataRun v k p).units = p.length := by
  induction p generalizing k with
  | nil => exact ⟨rfl, rfl⟩
  | cons b bs ih =>
    have hrest : ∀ j, j < bs.length → v (k + 1 + j + 1) = false := fun j hj => by
      rw [Nat.add_right_comm k 1 j]
      exact h (j + 1) (Nat.succ_lt_succ hj)
    obtain ⟨hresp, hunits⟩ := ih hrest
    rw [dataRun_of_ack (h 0 (Nat.zero_lt_succ _))]
    exact ⟨hresp, congrArg Nat.succ hunits⟩

/-- Byte `j` from here is the first that is not acknowledged. -/
theorem dataRun_dataNacked {k j : Nat} {p : List Byte} (hj : j < p.length) (h : ∀ i, i < j → v (k + i + 1) = false)
    (hn : v (k + j + 1) = true) :
    (dataRun v k p).response = respWord .dataNacked (BitVec.ofNat 16 (k + j)) ∧ (dataRun v k p).units = j + 1 := by
  induction p generalizing k j with
  | nil => exact absurd hj (Nat.not_lt_zero j)
  | cons b bs ih =>
    cases j with
    | zero =>
      rw [dataRun_of_nack hn]
      exact ⟨rfl, rfl⟩
    | succ j =>
      have hshift : ∀ i, k + 1 + i = k + (i + 1) := Nat.add_right_comm k 1
      obtain ⟨hresp, hunits⟩ := ih (k := k + 1) (Nat.lt_of_succ_lt_succ hj)
        (fun i hi => hshift i ▸ h (i + 1) (Nat.succ_lt_succ hi)) (hshift j ▸ hn)
      rw [dataRun_of_ack (h 0 (Nat.zero_lt_succ j)), ← hshift j]
      exact ⟨hresp, congrArg Nat.succ hunits⟩

theorem traceOf_success (a : Addr) {p : List Byte} (h : ∀ j, j ≤ p.length → v j = false) :
    (traceOf a p v).response = codeWord .success ∧ (traceOf a p v).units = p.length + 1 := by
  obtain ⟨hresp, hunits⟩ := dataRun_success (v := v) (k := 0) p fun j hj => h _ (by omega)
  rw [traceOf_of_ack (h 0 (Nat.zero_le _))]
  exact ⟨hresp, congrArg Nat.succ hunits⟩

theorem traceOf_dataNacked (a : Addr) {p : List Byte} {k : Nat} (hk : k < p.length) (h : ∀ j, j ≤ k → v j = false)
    (hn : v (k + 1) = true) :
    (traceOf a p v).response = respWord .dataNacked (BitVec.ofNat 16 k) ∧ (traceOf a p v).units = k + 2 := by
  obtain ⟨hresp, hunits⟩ := dataRun_dataNacked (v := v) (k := 0) hk (fun i hi => h _ (by omega)) (by rwa [Nat.zero_add])
  rw [traceOf_of_ack (h 0 (Nat.zero_le k))]
  exact ⟨hresp.trans (by rw [Nat.zero_add]), congrArg Nat.succ hunits⟩

/-! ### The counts (R99) -/

/-- Slots that each have `c` events of a kind have `c` times as many. -/
theorem countP_flatMap_unitSlot {q : PinEvent → Bool} {c : Nat} (h : ∀ x, (unitSlot x).countP q = c)
    (units : List (Byte × Level)) : (units.flatMap unitSlot).countP q = c * units.length := by
  induction units with
  | nil => rfl
  | cons x xs ih => rw [List.flatMap_cons, List.countP_append, h, ih, List.length_cons, Nat.mul_succ, Nat.add_comm]

/-- A transfer samples SDA once per unit (R99). -/
theorem dataRun_countP_isRd (v : Nat → Level) (k : Nat) (p : List Byte) :
    (dataRun v k p).events.countP PinEvent.isRd = (dataRun v k p).units := by
  induction p generalizing k with
  | nil => rfl
  | cons b bs ih =>
    have hslot (l : Level) : (unitEvents b ++ ackEvents l).countP PinEvent.isRd = 1 := rfl
    cases h : v (k + 1) with
    | true => rw [dataRun_of_nack h, List.countP_append, hslot]; rfl
    | false => rw [dataRun_of_ack h, List.countP_append, hslot, ih, Nat.add_comm]

theorem traceOf_countP_isRd (a : Addr) (p : List Byte) (v : Nat → Level) :
    (traceOf a p v).events.countP PinEvent.isRd = (traceOf a p v).units := by
  have hopening (l : Level) :
      (startEvents ++ unitEvents (addressUnit a false) ++ ackEvents l).countP PinEvent.isRd = 1 := rfl
  cases h : v 0 with
  | true => rw [traceOf_of_nack h, List.countP_append, hopening]; rfl
  | false => rw [traceOf_of_ack h, List.countP_append, hopening, dataRun_countP_isRd, Nat.add_comm]

/-- A transfer is START, as many units as it says, each with its ACK slot, and STOP (R98). -/
theorem traceOf_events_units (a : Addr) (p : List Byte) (v : Nat → Level) :
    ∃ units : List (Byte × Level), units.length = (traceOf a p v).units ∧
      (traceOf a p v).events = startEvents ++ units.flatMap unitSlot ++ stopEvents := by
  obtain ⟨units, he⟩ := traceOf_events a p v
  refine ⟨units, ?_, he⟩
  have hrd : (units.flatMap unitSlot).countP PinEvent.isRd = 1 * units.length := countP_flatMap_unitSlot (fun _ => rfl) units
  rw [← traceOf_countP_isRd, he, List.countP_append, List.countP_append, hrd, Nat.one_mul]
  exact (Nat.zero_add _).symm

/-- Events of a kind in a transfer of `g` units: those of START and STOP, and `c` per unit. -/
theorem traceOf_countP {q : PinEvent → Bool} {c : Nat} (h : ∀ x, (unitSlot x).countP q = c) (a : Addr) (p : List Byte)
    (v : Nat → Level) :
    (traceOf a p v).events.countP q = startEvents.countP q + stopEvents.countP q + c * (traceOf a p v).units := by
  obtain ⟨units, hlen, he⟩ := traceOf_events_units a p v
  rw [he, List.countP_append, List.countP_append, countP_flatMap_unitSlot h, hlen, Nat.add_right_comm]

end Sys2Proof.Machine
end

section
/-! SUPPORT. A whole transfer step by step: each unit with its ACK slot is 55 steps, each list between two of them ends in a
transition, and so the steps from the acceptance on are `TraceOf` (`spec/42_host_commands.md` R96 to R98). -/

namespace Sys2Proof.Machine

open Sys2Proof.Claims

variable {s t u : State} {v : Nat → Level} {k : Nat} {f : Fsm} {b : Byte} {bs : List Byte}

/-! ### What a run with nothing coming in keeps -/

theorem State.sameEnvironment.refl (s : State) : s.sameEnvironment s := by
  simp only [State.sameEnvironment, and_self]

theorem State.sameEnvironment.trans (h : s.sameEnvironment t) (h' : t.sameEnvironment u) : s.sameEnvironment u := by
  simp_all only [State.sameEnvironment, and_self]

/-- With nothing coming in, a step is the sequencer's or a wait, and keeps what the sequencer keeps. -/
theorem step_keeps_environment (hu : s.uport = []) (hi : s.inputs = []) (h : step s = .next t) : s.sameEnvironment t := by
  rw [step_of_noInput hu hi, State.blockStep] at h
  split at h
  · exact (s.sequencerStep_keeps t h).1
  · cases h
    exact .refl s

theorem runSteps_keeps_environment {n : Nat} (hu : s.uport = []) (hi : s.inputs = []) (h : runSteps n s = .next t) :
    s.sameEnvironment t := by
  refine runSteps_induction s t s.sameEnvironment (fun a b hkept hab => hkept.trans ?_) n (.refl s) h
  obtain ⟨-, -, -, -, -, -, -, -, -, -, -, -, hinputs, huport, -⟩ := hkept
  exact step_keeps_environment (huport.trans hu) (hinputs.trans hi) hab

/-! ### A run that ends a transfer -/

/-- `t` has ended a transfer that, from `s` on, did what `r` says (R98). -/
structure State.Ended (s t : State) (r : TransferRun) : Prop where
  trace : t.trace = s.trace ++ r.events
  resp : t.resp = r.response
  free : t.busy = false
  idle : t.fsm = .idle
  lines : t.linesIdle = true
  responses : t.responses = s.responses ++ [{ word := r.response, status := t.status }]
  draws : t.draws = s.draws + r.units

/-- From `s` on the transfer does what `r` says, in as many steps as it has events. -/
def State.RunsAs (s : State) (r : TransferRun) : Prop := ∃ t, runSteps r.events.length s = .next t ∧ s.Ended t r

/-- Steps that send `n` units, before the run of the rest. -/
theorem State.RunsAs.after {r : TransferRun} {es : List PinEvent} {n : Nat} (h : u.RunsAs r)
    (hrun : runSteps es.length s = .next u) (htrace : u.trace = s.trace ++ es) (hresp : u.responses = s.responses)
    (hdraws : u.draws = s.draws + n) :
    s.RunsAs { events := es ++ r.events, response := r.response, units := r.units + n } := by
  obtain ⟨t, ht, he⟩ := h
  refine ⟨t, ?_, { he with trace := ?_, responses := ?_, draws := ?_ }⟩
  · rw [List.length_append, runSteps_add _ _ _ _ hrun, ht]
  · rw [he.trace, htrace, List.append_assoc]
  · rw [he.responses, hresp]
  · rw [he.draws, hdraws, Nat.add_assoc, Nat.add_comm n]

/-! ### The first position of a list -/

/-- At the first position of a list of a transfer, with nothing coming in. -/
structure State.AtList (s : State) : Prop where
  busy : s.busy = true
  noFault : s.faultFlag = false
  noInput : s.inputs = []
  noWord : s.uport = []
  bound : s.bound = true
  sub : s.sub = 0#3
  phase : s.fsm ≠ .idle

theorem State.AtList.alone (h : s.AtList) : sequencerAlone s :=
  ⟨s.sequencerEnabled_iff.2 ⟨h.busy, h.noFault, h.phase⟩, h.noInput, h.noWord⟩

theorem State.AtList.atBit (h : s.AtList) (hf : s.fsm ∈ [Fsm.addressBits, .directionBit, .dataByteBits]) : s.AtBit :=
  ⟨h.alone, h.bound, h.sub, hf⟩

theorem State.AtBit.atList (h : s.AtBit) : s.AtList := by
  obtain ⟨he, hi, hu⟩ := h.alone
  obtain ⟨hb, hf, hp⟩ := s.sequencerEnabled_iff.1 he
  exact ⟨hb, hf, hi, hu, h.bound, h.sub, hp⟩

theorem State.AtList.goto (h : s.AtList) (hf : f ≠ .idle) : (s.goto f).AtList := { h with phase := hf }

theorem State.AtList.enterStop (h : s.AtList) (w : Word) : (s.enterStop w).AtList := { h with phase := nofun }

theorem State.AtList.nextByte (h : s.AtList) : s.nextByte.AtList := { h with }

theorem State.AtList.runSteps_list (h : s.AtList) {ops : List PinOp} (hops : s.eventList = ops) :
    runSteps ops.length s = (s.performList ops).transition := by
  rw [← hops]
  exact runSteps_eventList h.alone h.bound h.sub

/-- STOP ends the transfer with the outcome in `PEND` (R92, R80). -/
theorem State.AtList.runsAs_stop (h : s.AtList) (hf : s.fsm = .stop) :
    s.RunsAs { events := stopEvents, response := s.pend, units := 0 } := by
  have hlist : s.eventList = stopList := by rw [State.eventList, hf]
  have hstop : (s.performList stopList).fsm = .stop := by rw [s.performList_stop, hf]
  refine ⟨_, (h.runSteps_list hlist).trans (State.transition_stop hstop), ?_⟩
  rw [s.performList_stop]
  exact ⟨rfl, rfl, rfl, rfl, rfl, rfl, rfl⟩

/-! ### A unit and its ACK slot, 55 steps -/

/-- `s` after the unit in `SHIFT` and the ACK slot `f` that closes it, before the transition (R88, R91). -/
def State.afterUnit (s : State) (f : Fsm) : State :=
  { s with
    sdaDir := .input, sdaO := true, sclDir := .output, sclO := false, fsm := f, sub := 0#3, bitCnt := 0#4, shift := 0#8
    ackBit := s.slaveNow, result := .level s.slaveNow, slave := s.slave.tail, draws := s.draws + 1
    trace := s.trace ++ unitSlot (s.shift, s.slaveNow) }

/-- The levels still to come after a unit are the later ones. -/
theorem State.slaveAt_afterUnit (s : State) (f : Fsm) (j : Nat) : (s.afterUnit f).slaveAt j = s.slaveAt (j + 1) :=
  s.slaveAt_afterDraw j

theorem State.AtList.afterUnit (h : s.AtList) (hf : f ≠ .idle) : (s.afterUnit f).AtList :=
  { h with sub := rfl, phase := hf }

/-- The ACK slot after the eight bits of a payload byte. -/
theorem State.performList_ack_byteUnit (f : Fsm) (hn : s.bitCnt = 8#4) :
    ((s.sendUnitBits 8).goto f).performList ackList = s.afterUnit f := by
  rw [State.performList_ack, State.sendUnitBits_eq s (by omega) le_rfl, bitSlots_eight, BitVec.shiftLeft_eq_zero le_rfl, hn]
  simp only [State.goto, List.append_assoc]
  rfl

/-- The seven bits of the address and the direction bit are the eight bits of the address unit (R43). -/
theorem bitSlots_seven_append (x : Byte) : bitSlots x 7 ++ bitSlots (x <<< 7) 1 = unitEvents x := by
  have hlast : bitSlots (x <<< 7) 1 = bitEvents (x.getLsbD 0) := congrArg bitEvents (getLsbD_shifted x le_rfl)
  rw [hlast, ← bitSlots_eight]
  exact (bitSlots_succ x 7).symm

/-- The ACK slot after the bits of the address unit. -/
theorem State.performList_ack_addressUnit (f : Fsm) :
    (((s.sendUnitBits 7).beginDirection.sendUnitBits 1).goto f).performList ackList = s.afterUnit f := by
  have hempty : s.shift <<< 7 <<< 1 = 0#8 := by rw [← BitVec.shiftLeft_add, BitVec.shiftLeft_eq_zero le_rfl]
  have hunit : unitSlot (s.shift, s.slaveNow) = bitSlots s.shift 7 ++ (bitSlots (s.shift <<< 7) 1 ++ ackEvents s.slaveNow) := by
    rw [← List.append_assoc, bitSlots_seven_append, unitSlot]
  rw [State.performList_ack, State.sendUnitBits_eq _ le_rfl (by omega), State.sendUnitBits_eq s (by omega) (by omega)]
  simp only [State.goto, State.beginDirection, State.afterUnit, hempty, hunit, List.append_assoc]
  rfl

/-- The 48 steps of a unit's bits, then the 7 of its ACK slot. -/
theorem runSteps_ackSlot (hbits : runSteps 48 s = .next (u.goto f)) (hu : u.AtBit) (hf : f = .addressAck ∨ f = .dataAck)
    (hack : (u.goto f).performList ackList = s.afterUnit f) : runSteps 55 s = (s.afterUnit f).transition := by
  have hphase : f ≠ .idle := by rcases hf with rfl | rfl <;> exact nofun
  have hlist : (u.goto f).eventList = ackList := by rcases hf with rfl | rfl <;> rfl
  rw [show 55 = 48 + 7 from rfl, runSteps_add _ _ _ _ hbits, ← hack]
  exact (hu.atList.goto hphase).runSteps_list hlist

/-! ### The payload bytes (R97, R98) -/

/-- At the first bit of payload byte `k`, which is `b`, with the bytes `bs` after it. -/
structure State.AtByte (s : State) (k : Nat) (b : Byte) (bs : List Byte) : Prop extends s.AtList where
  fsm : s.fsm = .dataByteBits
  bitCnt : s.bitCnt = 8#4
  shift : s.shift = b
  index : s.byteIdx.toNat = k
  rest : s.payload.drop k = b :: bs
  length : s.payload.length = s.reqLen.toNat

theorem State.AtByte.runSteps_unit (h : s.AtByte k b bs) : runSteps 55 s = (s.afterUnit .dataAck).transition := by
  have hbit : s.AtBit := h.toAtList.atBit (by rw [h.fsm]; decide)
  exact runSteps_ackSlot (hbit.runSteps_byteUnit h.fsm h.bitCnt) (hbit.sendUnitBits 8) (.inr rfl)
    (State.performList_ack_byteUnit .dataAck h.bitCnt)

/-- Loading the byte at `BYTE_IDX` succeeds where there is one, and stands at its first bit. -/
theorem State.AtList.loadByte {i : Len} (h : s.AtList) (hi : s.byteIdx = i) (hk : i.toNat = k)
    (hrest : s.payload.drop k = b :: bs) (hlen : s.payload.length = s.reqLen.toNat) :
    s.loadByte i = .next ((s.beginByte b).goto .dataByteBits) ∧ ((s.beginByte b).goto .dataByteBits).AtByte k b bs := by
  have hbyte : s.payload[i.toNat]? = some b := by rw [hk, ← List.head?_drop, hrest, List.head?_cons]
  have hlt : i.toNat < s.reqLen.toNat := hlen ▸ (List.getElem?_eq_some_iff.1 hbyte).1
  exact ⟨State.loadByte_eq (State.memRead_eq_some hlt hbyte),
    { h with phase := nofun, fsm := rfl, bitCnt := rfl, shift := rfl, index := hi ▸ hk, rest := hrest, length := hlen }⟩

/-- A byte that is not acknowledged: STOP with its index (R106). -/
theorem State.AtByte.runsAs_nack (h : s.AtByte k b bs) (hn : s.slaveNow = true) :
    s.RunsAs
      { events := unitSlot (b, true) ++ stopEvents, response := respWord .dataNacked (BitVec.ofNat 16 k), units := 1 } := by
  have hunit := h.runSteps_unit.trans (State.transition_dataAck_nack (s := s.afterUnit .dataAck) rfl hn)
  have hstop := ((h.toAtList.afterUnit (f := .dataAck) nofun).enterStop (respWord .dataNacked s.byteIdx)).runsAs_stop rfl
  have hindex : BitVec.ofNat 16 k = s.byteIdx := by rw [← h.index, BitVec.ofNat_toNat, BitVec.setWidth_eq]
  rw [← h.shift, ← hn, hindex]
  exact hstop.after (es := unitSlot (s.shift, s.slaveNow)) (n := 1) hunit rfl rfl rfl

/-- The last byte acknowledged: STOP with `SUCCESS`. -/
theorem State.AtByte.runsAs_last (h : s.AtByte k b []) (hn : s.slaveNow = false) :
    s.RunsAs { events := unitSlot (b, false) ++ stopEvents, response := codeWord .success, units := 1 } := by
  have hdone : s.byteIdx.toNat + 1 = s.reqLen.toNat := by
    have hleft := congrArg List.length h.rest
    rw [List.length_drop, h.length, List.length_singleton] at hleft
    have hindex := h.index
    omega
  have hunit := h.runSteps_unit.trans (State.transition_dataAck_done (s := s.afterUnit .dataAck) rfl hn hdone)
  have hstop :=
    ((h.toAtList.afterUnit (f := .dataAck) nofun).nextByte.enterStop (codeWord .success)).runsAs_stop rfl
  rw [← h.shift, ← hn]
  exact hstop.after (es := unitSlot (s.shift, s.slaveNow)) (n := 1) hunit rfl rfl rfl

/-- A byte acknowledged with another after it: 55 steps to the first bit of that one. -/
theorem State.AtByte.runSteps_more {b' : Byte} (h : s.AtByte k b (b' :: bs)) (hn : s.slaveNow = false) :
    ∃ u, runSteps 55 s = .next u ∧ u.AtByte (k + 1) b' bs ∧ u.trace = s.trace ++ unitSlot (s.shift, s.slaveNow) ∧
      u.responses = s.responses ∧ u.draws = s.draws + 1 ∧ ∀ j, u.slaveAt j = s.slaveAt (j + 1) := by
  have hleft := congrArg List.length h.rest
  rw [List.length_drop, h.length, List.length_cons, List.length_cons] at hleft
  have hindex := h.index
  have hmore : s.byteIdx.toNat + 1 < s.reqLen.toNat := by omega
  have hnext : (s.byteIdx + 1#16).toNat = k + 1 := by bv_omega
  have hrest : s.payload.drop (k + 1) = b' :: bs := by rw [← List.tail_drop, h.rest, List.tail_cons]
  obtain ⟨hload, hbyte⟩ :=
    (h.toAtList.afterUnit (f := .dataAck) nofun).nextByte.loadByte (i := s.byteIdx + 1#16) rfl hnext hrest h.length
  refine ⟨_, ?_, hbyte, rfl, rfl, rfl, s.slaveAt_afterUnit .dataAck⟩
  rw [h.runSteps_unit, State.transition_dataAck_load (s := s.afterUnit .dataAck) rfl hn hmore]
  exact hload

/-- The bytes from index `k` on run as the loop of `TraceOf` (R98). -/
theorem State.AtByte.runsAs_dataRun (h : s.AtByte k b bs) (hv : ∀ j, s.slaveAt j = v (k + 1 + j)) :
    s.RunsAs (dataRun v k (b :: bs)) := by
  induction bs generalizing s k b with
  | nil =>
    cases hk : v (k + 1) with
    | true => rw [dataRun_of_nack hk]; exact h.runsAs_nack ((hv 0).trans hk)
    | false => rw [dataRun_of_ack hk]; exact h.runsAs_last ((hv 0).trans hk)
  | cons b' bs ih =>
    cases hk : v (k + 1) with
    | true => rw [dataRun_of_nack hk]; exact h.runsAs_nack ((hv 0).trans hk)
    | false =>
      have hn : s.slaveNow = false := (hv 0).trans hk
      obtain ⟨u, hunit, hbyte, htrace, hresp, hdraws, hlevels⟩ := h.runSteps_more hn
      have hrest : u.RunsAs (dataRun v (k + 1) (b' :: bs)) := ih hbyte fun j => by
        rw [hlevels, hv, Nat.add_comm j, ← Nat.add_assoc]
      rw [h.shift, hn] at htrace
      rw [dataRun_of_ack hk]
      exact hrest.after hunit htrace hresp hdraws

/-! ### The address unit and the whole transfer (R98) -/

/-- At the first bit of the address unit, the payload attached. -/
structure State.AtAddress (s : State) : Prop extends s.AtList where
  fsm : s.fsm = .addressBits
  bitCnt : s.bitCnt = 7#4
  index : s.byteIdx = 0#16
  length : s.payload.length = s.reqLen.toNat

theorem State.AtAddress.runSteps_unit (h : s.AtAddress) : runSteps 55 s = (s.afterUnit .addressAck).transition := by
  have hbit : s.AtBit := h.toAtList.atBit (by rw [h.fsm]; decide)
  exact runSteps_ackSlot (hbit.runSteps_addressUnit h.fsm h.bitCnt) ((hbit.sendUnitBits 7).beginDirection.sendUnitBits 1)
    (.inl rfl) (State.performList_ack_addressUnit .addressAck)

/-- An address that is not acknowledged: STOP (R105). -/
theorem State.AtAddress.runsAs_nack (h : s.AtAddress) (hn : s.slaveNow = true) :
    s.RunsAs
      { events := unitSlot (s.shift, true) ++ stopEvents, response := codeWord .addressNacked, units := 1 } := by
  have hunit := h.runSteps_unit.trans (State.transition_addressAck_nack (s := s.afterUnit .addressAck) rfl hn)
  have hstop := ((h.toAtList.afterUnit (f := .addressAck) nofun).enterStop (codeWord .addressNacked)).runsAs_stop rfl
  rw [← hn]
  exact hstop.after (es := unitSlot (s.shift, s.slaveNow)) (n := 1) hunit rfl rfl rfl

/-- An acknowledged address: the payload bytes, or STOP at once where there is none. -/
theorem State.AtAddress.runsAs_ack {p : List Byte} (h : s.AtAddress) (hp : s.payload = p) (hv : ∀ j, s.slaveAt j = v j)
    (hn : v 0 = false) :
    s.RunsAs
      { events := unitSlot (s.shift, false) ++ (dataRun v 0 p).events
        response := (dataRun v 0 p).response
        units := (dataRun v 0 p).units + 1 } := by
  have hlist := h.toAtList.afterUnit (f := .addressAck) nofun
  have hlen := h.length
  have hnow : s.slaveNow = false := (hv 0).trans hn
  rw [← hnow]
  cases p with
  | nil =>
    rw [hp, List.length_nil] at hlen
    have hunit := h.runSteps_unit.trans
      (State.transition_addressAck_empty (s := s.afterUnit .addressAck) rfl hnow (BitVec.eq_of_toNat_eq hlen.symm))
    exact ((hlist.enterStop (codeWord .success)).runsAs_stop rfl).after (es := unitSlot (s.shift, s.slaveNow)) (n := 1) hunit
      rfl rfl rfl
  | cons b bs =>
    have hpos : 0 < s.reqLen.toNat := by rw [← hlen, hp]; exact Nat.zero_lt_succ _
    obtain ⟨hload, hbyte⟩ := hlist.loadByte (k := 0) h.index rfl hp hlen
    have hunit := h.runSteps_unit.trans
      ((State.transition_addressAck_load (s := s.afterUnit .addressAck) rfl hnow hpos).trans hload)
    have hrest := hbyte.runsAs_dataRun (v := v) fun j => by
      rw [Nat.zero_add, Nat.add_comm 1, ← hv]
      exact s.slaveAt_afterUnit .addressAck j
    exact hrest.after (es := unitSlot (s.shift, s.slaveNow)) (n := 1) hunit rfl rfl rfl

/-- `s` after START and its transition (R87, R80). -/
def State.afterStart (s : State) : State :=
  { s with
    sdaDir := .output, sdaO := false, sclDir := .output, sclO := false, fsm := .addressBits, sub := 0#3, bitCnt := 7#4
    shift := addressUnit s.reqAddr s.reqDir, trace := s.trace ++ startEvents }

theorem State.AtList.runSteps_start (h : s.AtList) (hf : s.fsm = .start) : runSteps 4 s = .next s.afterStart := by
  have hlist : s.eventList = startList := by rw [State.eventList, hf]
  have hstart : (s.performList startList).fsm = .start := by rw [s.performList_start, hf]
  have hrun := (h.runSteps_list hlist).trans (State.transition_start hstart)
  rw [s.performList_start] at hrun
  exact hrun

/-- From START the transfer runs as `TraceOf` of its address, its payload and the levels to come (R98). -/
theorem State.AtList.runsAs_traceOf (h : s.AtList) (hf : s.fsm = .start) (hdir : s.reqDir = false)
    (hindex : s.byteIdx = 0#16) (hlen : s.payload.length = s.reqLen.toNat) :
    s.RunsAs (traceOf s.reqAddr s.payload s.slaveAt) := by
  have haddr : s.afterStart.AtAddress :=
    { h with sub := rfl, phase := nofun, fsm := rfl, bitCnt := rfl, index := hindex, length := hlen }
  have hunit : s.afterStart.shift = addressUnit s.reqAddr false := congrArg (addressUnit s.reqAddr) hdir
  cases h0 : s.slaveAt 0 with
  | true =>
    have hrun := (haddr.runsAs_nack h0).after (es := startEvents) (n := 0) (h.runSteps_start hf) rfl rfl rfl
    rw [traceOf_of_nack h0, List.append_assoc startEvents, List.append_assoc startEvents]
    rwa [hunit] at hrun
  | false =>
    have hrun := (haddr.runsAs_ack (v := s.slaveAt) rfl (fun _ => rfl) h0).after (es := startEvents) (n := 0)
      (h.runSteps_start hf) rfl rfl rfl
    rw [traceOf_of_ack h0, List.append_assoc startEvents, List.append_assoc startEvents]
    rwa [hunit] at hrun

/-- An accepted TRANSFER_WRITE stands at START with its request captured (R96). -/
theorem transferWrite_runsAs {a : Addr} {len : Len} {p : List Byte} (h : readyAlone s) (hp : p.length = len.toNat) :
    (s.accept.beginTransfer a len p).RunsAs (traceOf a p s.slaveAt) := by
  obtain ⟨hbd, -, hf, hi, hu⟩ := h
  have hlist : (s.accept.beginTransfer a len p).AtList := ⟨rfl, hf, hi, hu, hbd, rfl, nofun⟩
  exact hlist.runsAs_traceOf rfl rfl rfl hp

end Sys2Proof.Machine
end

section
/-! The statements of `spec/42_host_commands.md`. -/

namespace Sys2Proof.Certificates

open Sys2Proof.Machine Sys2Proof.Claims

/-- Settles O18: on the command port by the payload check, on the internal port by the precondition of the situation. -/
theorem fetchWordRunsTableWord : Obligations.FetchWordRunsTableWord := by
  intro s nbits w i h
  rcases decodeTableWord_cases h with ⟨rfl, payload, hd, hfetch⟩ | ⟨rfl, hd, hfetch⟩
  · refine .inl ⟨rfl, fun hb => ?_⟩
    have hstep : step (s.withFetchWord 32 w) = exec i { s with uport := [] } := by
      rw [hfetch, step_command (s := s.offerCommand _ _) rfl hb rfl, State.acceptCommand_of_instr hd]
      rfl
    rw [hstep]
    exact ⟨rfl, exec_host_next hd _⟩
  · have hstep : step (s.withFetchWord 8 w) = exec i { s.situated i with uport := [] } := by
      rw [hfetch, State.offerMicroWord_of_instr hd, step_of_uport rfl, State.runMicroWord_of_instr hd]
      rfl
    rw [hstep]
    exact .inr ⟨rfl, rfl, exec_situated_next (encode_of_decodeMicro hd) s []⟩

/-- Settles O33: the answer to a wrong state, then ACQUIRE's three cases. -/
theorem busInitOutcomes : Obligations.BusInitOutcomes := by
  intro s c d hb t
  refine ⟨exec_busInit_of_illegalState hb, fun hf hbd hu => ?_, fun hf hbd hc hd hr => ?_,
    fun hf hbd hc hd hcr hdr hne => ⟨(s.acquired c d).reserved, s.mem_acquired_reserved c d,
      fun hwf => PinSet.wf_insert d _ (PinSet.wf_insert c _ hwf), ?_⟩⟩
  · rw [exec_busInit_of_acquire hb hf hbd (State.acquire_invalidPin _ c d hu)]
    rfl
  · rw [exec_busInit_of_acquire hb hf hbd (State.acquire_pinBusy _ c d hc hd hr)]
    rfl
  · rw [exec_busInit_of_acquire hb hf hbd (State.acquire_success _ c d hc hd hcr hdr hne)]
    rfl

/-- Settles O36: each event is its micro-operation; READ_DATA stands in an ACK slot only. -/
theorem sequencerStepIsMicroOperation : Obligations.SequencerStepIsMicroOperation := by
  intro s hb micro
  refine ⟨fun hi hs => ?_, fun h => State.sequencerStep_of_noEvent hb (State.currentEvent_eq_none h)⟩
  obtain ⟨op, hev⟩ := State.exists_currentEvent hi (decide_eq_true hs)
  rw [State.sequencerStep_of_currentEvent hb hev]
  cases op with
  | driveClock l => exact ⟨_, _, hev, exec_driveClock_of_bound l hb, rfl⟩
  | driveData l => exact ⟨_, _, hev, exec_driveData_of_bound l hb, rfl⟩
  | readData =>
    refine ⟨_, _, hev, exec_readData_of_bound hb, ?_⟩
    rw [State.performEvent_readData_eq hev, if_pos rfl]
  | readClock => exact ⟨_, _, hev, exec_readClock_of_bound hb, rfl⟩
  | settle => exact ⟨_, _, hev, exec_settle_of_bound hb, rfl⟩

/-- Settles O41: the acceptance begins a run of `TraceOf`; what no agent but the sequencer touches is kept. -/
theorem transferRunsAsTraceOf : Obligations.TransferRunsAsTraceOf := by
  intro s s1 a len p h hp he r
  obtain ⟨hbd, hb, hf, hi, hu⟩ := h
  cases (exec_transferWrite_of_held hp hb hf hbd).symm.trans he
  obtain ⟨t, hrun, hend⟩ := transferWrite_runsAs ⟨hbd, hb, hf, hi, hu⟩ hp (a := a)
  obtain ⟨hbound, hclk, hdat, -, -, -, hsettle, hfault, -, husable, hreserved, -, hinputs, -⟩ :=
    runSteps_keeps_environment (s := s.accept.beginTransfer a len p) hu hi hrun
  exact ⟨t, hrun, hend.trace, hend.resp, hend.free, hend.idle, hend.lines, hend.responses, hend.draws, hbound, hclk, hdat,
    hfault, hreserved, husable, hinputs, hsettle⟩

/-- Settles O42: the outcome by the first NACK; the counts of START and STOP once and of a unit with its ACK slot `g` times. -/
theorem transferEventCounts : Obligations.TransferEventCounts := by
  intro a p v _ r g
  refine ⟨?_, ?_, ?_, ?_, ?_, ?_, ?_, ?_⟩
  · rcases firstNack_cases v p.length with hnone | haddr | ⟨k, hk, hbefore, hnack⟩
    · exact .inl (traceOf_success a hnone)
    · have hrun := traceOf_of_nack haddr a p
      exact .inr (.inl ⟨congrArg TransferRun.response hrun, congrArg TransferRun.units hrun⟩)
    · exact .inr (.inr ⟨k, hk, traceOf_dataNacked a hk hbefore hnack⟩)
  · rw [← List.countP_true]
    exact traceOf_countP (c := 55) (fun _ => rfl) a p v
  · exact traceOf_countP (c := 27) (fun _ => rfl) a p v
  · exact traceOf_countP (c := 9) (fun _ => rfl) a p v
  · exact traceOf_countP (c := 18) (fun _ => rfl) a p v
  · exact traceOf_countP_isRd a p v
  · rw [traceOf_countP (c := 0) (fun _ => rfl), Nat.zero_mul]
    rfl
  · exact (traceOf_countP (c := 9) (fun _ => rfl) a p v).trans (Nat.add_comm _ _)

/-- Settles O43. -/
theorem firstNackDecidesOutcome : Obligations.FirstNackDecidesOutcome := by
  refine fun a p v _ => ⟨fun h => ?_, fun k hk hbefore hnack => ?_, fun h => ?_⟩
  · exact congrArg TransferRun.response (traceOf_of_nack h a p)
  · exact (traceOf_dataNacked a hk hbefore hnack).1
  · exact (traceOf_success a h).1

/-- Settles O47: both runs are `TraceOf` of the same address, payload and samples. -/
theorem transfersAreStateless : Obligations.TransfersAreStateless := by
  intro s s' s1 s1' a len p h h' hv hp he he'
  obtain ⟨t, hrun, htrace, hresp, hfree, -⟩ := transferRunsAsTraceOf s s1 a len p h hp he
  obtain ⟨t', hrun', htrace', hresp', hfree', -⟩ := transferRunsAsTraceOf s' s1' a len p h' hp he'
  rw [← funext hv] at hrun' htrace' hresp'
  exact ⟨_, t, t', _, hrun, hrun', hfree, hfree', htrace, htrace', hresp.trans hresp'.symm⟩

/-- Settles O12. -/
theorem stepRunsAcceptedCommand : Obligations.StepRunsAcceptedCommand := by
  intro s n w payload rest i hu hb hi hd
  rw [step_command hu hb hi, State.acceptCommand_of_instr hd, State.withInputs]

/-- Settles O15: the step is the sequencer's, which writes no command port. -/
theorem commandHeldWhileBusy : Obligations.CommandHeldWhileBusy := by
  refine ⟨fun s w payload rest hu he hi => ?_, fun s i hb hi => ?_⟩
  · have hstep := step_command_of_enabled hu he hi
    refine ⟨hstep, fun t ht => ?_⟩
    obtain ⟨⟨-, -, -, -, -, -, -, -, -, -, -, -, hinputs, -⟩, -⟩ := s.sequencerStep_keeps t (hstep.symm.trans ht)
    exact hinputs
  · rcases hi with rfl | ⟨c, d, rfl⟩ | ⟨a, len, p, rfl, hp⟩
    · exact congrArg _ (s.whenFree_of_busy _ hb)
    · exact congrArg _ (s.whenFree_of_busy _ hb)
    · exact exec_transferWrite_of_busy hp hb

/-- Settles O16. -/
theorem stepIsSequencerStep : Obligations.StepIsSequencerStep := by
  intro s hu hi
  rw [step_of_noInput hu hi]
  exact ⟨State.blockStep_of_enabled, State.blockStep_of_disabled⟩

/-- Settles O34: RELEASE in each state of `BOUND`, then the response. -/
theorem busDeinitReleasesAndSucceeds : Obligations.BusDeinitReleasesAndSucceeds := by
  refine ⟨rfl, fun s hb => ⟨fun hbd => ?_, fun hbd => ?_⟩⟩
  · rw [exec, execBusDeinit_of_free hb, s.release_unbound hbd]
    rfl
  · refine ⟨s.released.reserved, s.mem_released_reserved, fun hwf => PinSet.wf_erase _ _ (PinSet.wf_erase _ _ hwf), ?_⟩
    rw [exec, execBusDeinit_of_free hb, s.release_bound hbd]
    rfl

/-- Settles O35. -/
theorem transferWriteAccepted : Obligations.TransferWriteAccepted := fun _ _ _ _ hb hp =>
  ⟨exec_transferWrite_of_illegalState hp hb, exec_transferWrite_of_held hp hb⟩

/-- Settles O37. -/
theorem positionMovesInsideList : Obligations.PositionMovesInsideList := by
  intro s h
  rw [State.advance_inside h, State.moved, sub_succ]

end Sys2Proof.Certificates
end

section
/-! SUPPORT. An illegal command on a free block (`spec/60_exceptions.md` R107), and the abandonment as the environment's action
(R109). -/

namespace Sys2Proof.Machine

variable {s : State}

theorem State.acceptCommand_of_illegal {w : Word} {payload : List Byte} (h : decodeHost w payload = .reject .illegalCommand) :
    s.acceptCommand w payload = .next (s.complete (codeWord .illegalCommand)) := by
  rw [State.acceptCommand, h, State.reject, State.complete_accept]

/-- An abandonment that has waited long enough comes whatever the sequencer does, and takes effect inside a transfer only. -/
theorem step_abandon {rest : List Pending} (hu : s.uport = []) (hi : s.inputs = { after := 0, action := .abandon } :: rest) :
    step s = .next (if s.inProgress then (s.withInputs rest).abandon else s.withInputs rest) :=
  s.agentStep_eq_act 0 _ rest hu hi (.inl rfl)

theorem State.inProgress_iff : s.inProgress = true ↔ s.busy = true ∧ s.fsm ≠ .idle := by
  simp [State.inProgress]

theorem State.not_inProgress_iff : ¬s.inProgress = true ↔ s.busy = false ∨ s.fsm = .idle := by
  rw [State.inProgress_iff, not_and_or, not_not, Bool.not_eq_true]

/-- After a RELEASE no pair is held, whether one was held before or not (R74). -/
theorem State.release_not_bound : s.release.bound = false := by
  cases hbd : s.bound with
  | false => rwa [s.release_unbound hbd]
  | true => rw [s.release_bound hbd]

/-- RELEASE writes the pair's registers only, so `FAULT` stays (R74). -/
@[simp] theorem State.release_faultFlag (s : State) : s.release.faultFlag = s.faultFlag := by
  cases hbd : s.bound with
  | false => rw [s.release_unbound hbd]
  | true => rw [s.release_bound hbd]

end Sys2Proof.Machine
end

section
/-! The statements of `spec/60_exceptions.md`. -/

namespace Sys2Proof.Certificates

open Sys2Proof.Machine Sys2Proof.Claims

/-- Settles O13: the decoder rejects the word with any payload, and the rejection is one response. -/
theorem illegalCommandAnswered : Obligations.IllegalCommandAnswered := by
  intro s n w payload rest hu hb hi hw
  rw [step_command hu hb hi, State.acceptCommand_of_illegal (decodeHost_of_fitsNoPattern hw)]
  rfl

/-- Settles O17: the abandonment inside and outside a transfer, then the three commands with `FAULT` set. -/
theorem abandonmentFreezesBlock : Obligations.AbandonmentFreezesBlock := by
  refine ⟨fun s rest hu hi => ?_, fun s hf hb => ⟨fun c d => ?_, fun a len p hp => ?_, ?_⟩⟩
  · rw [step_abandon hu hi]
    exact ⟨fun hb hfsm => congrArg _ (if_pos (State.inProgress_iff.2 ⟨hb, hfsm⟩)),
      fun h => congrArg _ (if_neg (State.not_inProgress_iff.2 h))⟩
  · exact exec_busInit_of_illegalState hb (.inl hf)
  · exact exec_transferWrite_of_illegalState hp hb (.inl hf)
  · exact ⟨_, execBusDeinit_of_free hb, s.release_not_bound, s.release_faultFlag.trans hf, rfl⟩

end Sys2Proof.Certificates
end

section
/-! SUPPORT. The reset and the change of `T_SETTLE` as the environment's next action, the time of a list of pin events, and the steps a
transfer still needs from each position of the sequencer (`spec/70_reset_and_hazards.md` R121, R126, R132, R134). -/

namespace Sys2Proof.Machine

open Sys2Proof.Claims

variable {s t : State} {op : PinOp} {f : Fsm}

/-! ### Reset and `T_SETTLE` (R121, R126) -/

theorem step_reset {n : Nat} {rest : List Pending} (hu : s.uport = []) (hi : s.inputs = { after := n, action := .reset } :: rest)
    (hn : n = 0 ∨ s.sequencerEnabled = false) : step s = .next (s.withInputs rest).resetBlock :=
  s.agentStep_eq_act n _ rest hu hi hn

theorem step_setSettle {n d : Nat} {rest : List Pending} (hu : s.uport = [])
    (hi : s.inputs = { after := n, action := .setSettle d } :: rest) (hn : n = 0 ∨ s.sequencerEnabled = false) :
    step s = .next { s with tSettle := d, inputs := rest } :=
  s.agentStep_eq_act n _ rest hu hi hn

/-- The STATUS word after reset: both lines released inputs, `ACK_BIT` 1, everything else 0 (R31, R38). -/
theorem State.status_resetBlock (s : State) : s.resetBlock.status = 0x07C0#16 := by
  simp only [State.status, State.resetBlock]
  decide

/-! ### Time (R132) -/

/-- The events that are one pin operation each (R132). -/
def PinEvent.isPinOp (e : PinEvent) : Bool := e.isDd || e.isDc || e.isRd || e.isRc

theorem eventTime_eq (d l : Nat) (e : PinEvent) :
    eventTime d l e = (if e == .s then d else 0) + if e.isPinOp then l else 0 := by
  cases e <;> simp [eventTime, PinEvent.isPinOp, PinEvent.isDd, PinEvent.isDc, PinEvent.isRd, PinEvent.isRc]

/-- A list of pin events takes its settles and its pin operations. -/
theorem traceTime_eq (d l : Nat) (es : List PinEvent) :
    traceTime d l es = es.count .s * d + es.countP PinEvent.isPinOp * l := by
  induction es with
  | nil => simp [traceTime]
  | cons e es ih =>
    have hcons : traceTime d l (e :: es) = eventTime d l e + traceTime d l es := List.sum_cons
    rw [hcons, ih, eventTime_eq, List.count_cons, List.countP_cons]
    split_ifs <;> ring

/-! ### The steps a transfer still needs (R134) -/

/-- The longest a transfer can go on after the list that a phase performs, with `bits` left of the unit in `SHIFT` and `bytes` left
of the payload: six steps a bit, 55 a unit with its ACK slot, six for STOP (R97, R99). -/
def Fsm.stepsAfter (bits bytes : Nat) : Fsm → Nat
  | .idle => 0
  | .start => 61 + 55 * bytes
  | .addressBits => 6 * (bits - 1) + 19 + 55 * bytes
  | .directionBit => 13 + 55 * bytes
  | .addressAck => 6 + 55 * bytes
  | .dataByteBits => 6 * (bits - 1) + 13 + 55 * (bytes - 1)
  | .dataAck => 6 + 55 * (bytes - 1)
  | .stop => 0

/-- The payload bytes not yet acknowledged (R24). -/
def State.bytesLeft (s : State) : Nat := s.reqLen.toNat - s.byteIdx.toNat

/-- The longest the transfer can go on from the sequencer's position: the rest of its list, and what comes after that list. -/
def State.stepsLeft (s : State) : Nat :=
  s.fsm.last + 1 - s.sub.toNat + s.fsm.stepsAfter s.bitCnt.toNat s.bytesLeft

theorem State.Placed.stepsLeft_pos (h : s.Placed) : 0 < s.stepsLeft := by
  have hle : s.sub.toNat ≤ s.fsm.last := of_decide_eq_true h.subLegal
  rw [State.stepsLeft]
  omega

/-- No position needs more steps than a whole transfer in which every byte is acknowledged (R99). -/
theorem State.Placed.stepsLeft_le (h : s.Placed) : s.stepsLeft ≤ 10 + 55 * (s.reqLen.toNat + 1) := by
  have hbytes : s.bytesLeft ≤ s.reqLen.toNat := Nat.sub_le _ _
  have hn := h.bitCntLegal
  have hx := h.index
  rw [State.stepsLeft]
  cases hf : s.fsm <;> simp only [Fsm.last, Fsm.stepsAfter]
  case addressBits =>
    have hseven : 1 ≤ s.bitCnt.toNat ∧ s.bitCnt.toNat ≤ 7 := by simpa [State.bitCntLegal, hf] using hn
    omega
  case dataByteBits =>
    have height : 1 ≤ s.bitCnt.toNat ∧ s.bitCnt.toNat ≤ 8 := by simpa [State.bitCntLegal, hf] using hn
    have hbyte : 0 < s.bytesLeft := Nat.sub_pos_of_lt (by simpa [State.indexLegal, hf] using hx)
    omega
  all_goals omega

/-- Inside a list a step is one step less to go. -/
theorem State.stepsLeft_moved (hlt : s.sub.toNat < s.fsm.last) : (s.performEvent op).moved.stepsLeft < s.stepsLeft := by
  have hle := s.fsm.last_le
  have hsub : (s.sub + 1#3).toNat = s.sub.toNat + 1 := by bv_omega
  simp only [State.stepsLeft, State.bytesLeft, State.moved_fsm, State.moved_sub, State.moved_bitCnt, State.moved_byteIdx,
    State.moved_reqLen, State.performEvent_fsm, State.performEvent_sub, State.performEvent_bitCnt, State.performEvent_byteIdx,
    State.performEvent_reqLen, hsub]
  omega

/-- `t` goes on with the transfer of `s`, with at most `n` steps to go, and has answered nothing. -/
structure State.GoesOn (s t : State) (n : Nat) : Prop where
  phase : t.fsm ≠ .idle
  responses : t.responses = s.responses
  left : t.stepsLeft ≤ n

/-- At the first event of the list of phase `f`. -/
theorem State.GoesOn.ofList {n : Nat} (hf : t.fsm = f) (hi : f ≠ .idle) (hr : t.responses = s.responses) (hs : t.sub = 0#3)
    (hn : f.last + 1 + f.stepsAfter t.bitCnt.toNat t.bytesLeft ≤ n) : s.GoesOn t n := by
  subst hf
  exact ⟨hi, hr, by rw [State.stepsLeft, hs]; exact hn⟩

theorem State.exists_loadByte {i : Len} (hp : s.payload.length = s.reqLen.toNat) (hi : i.toNat < s.reqLen.toNat) :
    ∃ b, s.loadByte i = .next ((s.beginByte b).goto .dataByteBits) :=
  ⟨_, State.loadByte_eq (State.memRead_eq_some hi (List.getElem?_eq_getElem (hp ▸ hi)))⟩

/-- The bit just sent is its unit's last, or `BIT_CNT` counts one less. -/
theorem State.bitCnt_cases (hn : s.bitCntLegal = true) (hf : s.fsm = .addressBits ∨ s.fsm = .dataByteBits) :
    s.bitCnt.toNat = 1 ∨ 1 < s.bitCnt.toNat ∧ s.shiftOut.bitCnt.toNat = s.bitCnt.toNat - 1 := by
  have hpos := State.bitCnt_ne_zero hn hf
  rw [State.shiftOut_bitCnt]
  bv_omega

/-- STOP is six steps, which every ACK slot leaves room for. -/
theorem State.GoesOn.enterStop (hs : s.sub = 0#3) (w : Word) (n : Nat) : s.GoesOn (s.enterStop w) (6 + n) :=
  .ofList rfl nofun rfl hs (Nat.le_add_right 6 n)

/-- After the address's ACK slot: STOP, or the first payload byte. -/
theorem State.exists_transition_addressAck (hf : s.fsm = .addressAck) (hs : s.sub = 0#3) (hx : s.indexLegal = true)
    (hp : s.payload.length = s.reqLen.toNat) : ∃ t, s.transition = .next t ∧ s.GoesOn t (6 + 55 * s.bytesLeft) := by
  have hx0 : s.byteIdx = 0#16 := by simpa [State.indexLegal, hf] using hx
  have hleft : s.bytesLeft = s.reqLen.toNat := by rw [State.bytesLeft, hx0]; rfl
  cases ha : s.ackBit with
  | true => exact ⟨_, State.transition_addressAck_nack hf ha, .enterStop hs _ _⟩
  | false =>
    rcases Nat.eq_zero_or_pos s.reqLen.toNat with h0 | hpos
    · exact ⟨_, State.transition_addressAck_empty hf ha (BitVec.eq_of_toNat_eq h0), .enterStop hs _ _⟩
    · obtain ⟨b, hload⟩ := State.exists_loadByte (i := 0#16) hp hpos
      refine ⟨_, (State.transition_addressAck_load hf ha hpos).trans hload, .ofList rfl nofun rfl hs ?_⟩
      change 6 + (6 * 7 + 13 + 55 * (s.bytesLeft - 1)) ≤ 6 + 55 * s.bytesLeft
      omega

/-- After a byte's ACK slot: STOP, or the next payload byte. -/
theorem State.exists_transition_dataAck (hf : s.fsm = .dataAck) (hs : s.sub = 0#3) (hx : s.indexLegal = true)
    (hp : s.payload.length = s.reqLen.toNat) : ∃ t, s.transition = .next t ∧ s.GoesOn t (6 + 55 * (s.bytesLeft - 1)) := by
  have hlt : s.byteIdx.toNat < s.reqLen.toNat := by simpa [State.indexLegal, hf] using hx
  cases ha : s.ackBit with
  | true => exact ⟨_, State.transition_dataAck_nack hf ha, .enterStop hs _ _⟩
  | false =>
    rcases Nat.lt_or_eq_of_le (Nat.succ_le_of_lt hlt) with hmore | hdone
    · have hnext : (s.byteIdx + 1#16).toNat = s.byteIdx.toNat + 1 := by bv_omega
      have hleft : s.nextByte.bytesLeft = s.bytesLeft - 1 := by
        rw [State.bytesLeft, State.nextByte_byteIdx, hnext, ← Nat.sub_sub]
        rfl
      have hpos : 0 < s.nextByte.bytesLeft := Nat.sub_pos_of_lt (hnext ▸ hmore)
      obtain ⟨b, hload⟩ := State.exists_loadByte (s := s.nextByte) (i := s.byteIdx + 1#16) hp (hnext ▸ hmore)
      refine ⟨_, (State.transition_dataAck_load hf ha hmore).trans hload, .ofList rfl nofun rfl hs ?_⟩
      change 6 + (6 * 7 + 13 + 55 * (s.nextByte.bytesLeft - 1)) ≤ 6 + 55 * (s.bytesLeft - 1)
      omega
    · exact ⟨_, State.transition_dataAck_done hf ha hdone, .ofList rfl nofun rfl hs (Nat.le_add_right 6 _)⟩

/-- Every transition but STOP's goes on with the transfer, from a position with legal counters (R80, R86). -/
theorem State.exists_transition (hs : s.sub = 0#3) (hf : s.fsm ≠ .idle ∧ s.fsm ≠ .stop) (hn : s.bitCntLegal = true)
    (hx : s.indexLegal = true) (hp : s.payload.length = s.reqLen.toNat) :
    ∃ t, s.transition = .next t ∧ s.GoesOn t (s.fsm.stepsAfter s.bitCnt.toNat s.bytesLeft) := by
  cases hphase : s.fsm with
  | idle => exact absurd hphase hf.1
  | stop => exact absurd hphase hf.2
  | start =>
    refine ⟨_, State.transition_start hphase, .ofList rfl nofun rfl hs ?_⟩
    change 6 + (6 * 6 + 19 + 55 * s.bytesLeft) ≤ 61 + 55 * s.bytesLeft
    omega
  | addressBits =>
    rcases State.bitCnt_cases hn (.inl hphase) with hlast | ⟨hmore, hcnt⟩
    · refine ⟨_, State.transition_addressBits_last hphase hlast, .ofList rfl nofun rfl hs ?_⟩
      change 6 + (13 + 55 * s.bytesLeft) ≤ 6 * (s.bitCnt.toNat - 1) + 19 + 55 * s.bytesLeft
      omega
    · refine ⟨_, State.transition_addressBits_more hphase hmore, .ofList hphase nofun rfl hs ?_⟩
      change 6 + (6 * (s.shiftOut.bitCnt.toNat - 1) + 19 + 55 * s.bytesLeft) ≤
        6 * (s.bitCnt.toNat - 1) + 19 + 55 * s.bytesLeft
      omega
  | directionBit =>
    refine ⟨_, State.transition_directionBit hphase, .ofList rfl nofun rfl hs ?_⟩
    change 7 + (6 + 55 * s.bytesLeft) ≤ 13 + 55 * s.bytesLeft
    omega
  | addressAck => exact State.exists_transition_addressAck hphase hs hx hp
  | dataByteBits =>
    rcases State.bitCnt_cases hn (.inr hphase) with hlast | ⟨hmore, hcnt⟩
    · refine ⟨_, State.transition_dataByteBits_last hphase hlast, .ofList rfl nofun rfl hs ?_⟩
      change 7 + (6 + 55 * (s.bytesLeft - 1)) ≤ 6 * (s.bitCnt.toNat - 1) + 13 + 55 * (s.bytesLeft - 1)
      omega
    · refine ⟨_, State.transition_dataByteBits_more hphase hmore, .ofList hphase nofun rfl hs ?_⟩
      change 6 + (6 * (s.shiftOut.bitCnt.toNat - 1) + 13 + 55 * (s.bytesLeft - 1)) ≤
        6 * (s.bitCnt.toNat - 1) + 13 + 55 * (s.bytesLeft - 1)
      omega
  | dataAck => exact State.exists_transition_dataAck hphase hs hx hp

/-- `t` has ended the transfer of `s` with one response more, whatever it is. -/
structure State.Answered (s t : State) : Prop where
  idle : t.fsm = .idle
  responses : t.responses = s.responses ++ [{ word := t.resp, status := t.status }]

/-- A sequencer step brings a transfer nearer to its end, and STOP's last ends it (R97). -/
theorem State.Placed.exists_sequencerStep (h : s.Placed) (hi : s.fsm ≠ .idle) (hb : s.bound = true)
    (hp : s.payload.length = s.reqLen.toNat) :
    ∃ t, s.sequencerStep = .next t ∧ (s.Answered t ∨ s.GoesOn t (s.stepsLeft - 1)) := by
  obtain ⟨op, hev⟩ := State.exists_currentEvent hi h.subLegal
  rw [State.sequencerStep_of_currentEvent hb hev]
  by_cases hlt : s.sub.toNat < s.fsm.last
  · have hless := State.stepsLeft_moved (op := op) hlt
    refine ⟨_, State.advance_inside (by simpa using hlt), .inr ⟨by simpa using hi, ?_, Nat.le_pred_of_lt hless⟩⟩
    cases op <;> rfl
  · have hlast : s.sub.toNat = s.fsm.last := le_antisymm (of_decide_eq_true h.subLegal) (not_lt.1 hlt)
    cases hev.symm.trans (State.currentEvent_last hi hlast)
    rw [State.advance_atEnd (by simpa using hlt)]
    by_cases hstop : s.fsm = .stop
    · exact ⟨_, State.transition_stop (s := s.settle.restart) hstop, .inl ⟨rfl, rfl⟩⟩
    · obtain ⟨t, ht, hgo⟩ := State.exists_transition (s := s.settle.restart) rfl ⟨hi, hstop⟩ h.bitCntLegal h.index hp
      have hafter : s.stepsLeft - 1 = s.fsm.stepsAfter s.bitCnt.toNat s.bytesLeft := by
        rw [State.stepsLeft]
        omega
      exact ⟨t, ht, .inr (hafter ▸ ⟨hgo.phase, hgo.responses, hgo.left⟩)⟩

/-- With nothing coming in, a transfer that goes on keeps its sequencer enabled. -/
theorem Inv.sequencerAlone_of_kept (h : Inv t) (ha : sequencerAlone s) (hk : s.sameEnvironment t) (hi : t.fsm ≠ .idle) :
    sequencerAlone t := by
  obtain ⟨he, hin, hu⟩ := ha
  obtain ⟨-, hf, -⟩ := s.sequencerEnabled_iff.1 he
  obtain ⟨-, -, -, -, -, -, -, hfault, -, -, -, -, hinputs, huport, -⟩ := hk
  have hf' : t.faultFlag = false := hfault.trans hf
  have hbusy : t.busy = true := Bool.eq_true_of_not_eq_false fun hb => hi (h.freeIsIdle hb hf')
  exact ⟨t.sequencerEnabled_iff.2 ⟨hbusy, hf', hi⟩, hinputs.trans hin, huport.trans hu⟩

/-- A transfer with at most `m` steps to go is answered within them (R134). -/
theorem Inv.exists_answered {m : Nat} (h : Inv s) (ha : sequencerAlone s) (hm : s.stepsLeft ≤ m) :
    ∃ n t, n ≤ m ∧ runSteps n s = .next t ∧ s.Answered t := by
  obtain ⟨hb, -, hi⟩ := s.sequencerEnabled_iff.1 ha.1
  have hplaced := h.placed ha.1
  induction m generalizing s with
  | zero => exact absurd hplaced.stepsLeft_pos (Nat.not_lt.2 hm)
  | succ m ih =>
    obtain ⟨u, hseq, hu⟩ := hplaced.exists_sequencerStep hi (h.busyInTransfer hb).1 (h.payloadAttached hb).1
    have hstep : step s = .next u := (step_alone ha).trans hseq
    rcases hu with hans | ⟨hphase, hresp, hleft⟩
    · exact ⟨1, u, Nat.succ_pos m, (runSteps_one s).trans hstep, hans⟩
    · have hinv : Inv u := step_keeps_inv h hstep
      have halone := hinv.sequencerAlone_of_kept ha (s.sequencerStep_keeps u hseq).1 hphase
      obtain ⟨hbu, -, hiu⟩ := u.sequencerEnabled_iff.1 halone.1
      obtain ⟨n, t, hn, hrun, hidle, hone⟩ := ih hinv halone (by omega) hbu hiu (hinv.placed halone.1)
      exact ⟨n + 1, t, Nat.succ_le_succ hn, (runSteps_succ s u n hstep).trans hrun, hidle, hresp ▸ hone⟩

end Sys2Proof.Machine
end

section
/-! The statements of `spec/70_reset_and_hazards.md`. -/

namespace Sys2Proof.Certificates

open Sys2Proof.Machine Sys2Proof.Claims

/-- Settles O48: from every position the steps left are bounded and each step takes one; the invariant says the rest of the end. -/
theorem everyTransferAnswers : Obligations.EveryTransferAnswers := by
  intro s h ha
  obtain ⟨he, hin, hu⟩ := ha
  obtain ⟨hb, hf, -⟩ := s.sequencerEnabled_iff.1 he
  obtain ⟨n, t, hn, hrun, hidle, hone⟩ := h.exists_answered ⟨he, hin, hu⟩ (h.placed he).stepsLeft_le
  have hinv : Inv t := runSteps_induction s t Inv (fun _ _ => step_keeps_inv) n h hrun
  obtain ⟨hbound, -, -, -, -, -, -, hfault, -⟩ := runSteps_keeps_environment hu hin hrun
  have hf' : t.faultFlag = false := hfault.trans hf
  have hbd : t.bound = true := hbound.trans (h.busyInTransfer hb).1
  have hfree : t.busy = false := Bool.eq_false_iff.2 fun hb' => (hinv.busyInTransfer hb').2.2 hidle
  have hlines : t.linesIdle = true := (State.linesAtPosition_idle hidle).symm.trans (hinv.linesPlaced hf' hbd)
  exact ⟨n, t, hn, hrun, hfree, hf', hidle, hlines, hone⟩

/-- Settles O49: a unit with its ACK slot has 27 settles and 28 pin operations, START and STOP have five of each. -/
theorem transferTimeFormula : Obligations.TransferTimeFormula := by
  intro a p v d l r
  have hsettles : r.events.count .s = 5 + 27 * r.units := traceOf_countP (c := 27) (fun _ => rfl) a p v
  have hops : r.events.countP PinEvent.isPinOp = 5 + 28 * r.units := traceOf_countP (c := 28) (fun _ => rfl) a p v
  rw [traceTime_eq, hsettles, hops]

/-- Settles O10. -/
theorem resetActionRestoresRegisters : Obligations.ResetActionRestoresRegisters := by
  rintro s ⟨hu, n, rest, hi, hn⟩
  exact ⟨_, step_reset hu hi hn, rfl, rfl, rfl, rfl, rfl, rfl, rfl, rfl, rfl, rfl, rfl, rfl, rfl, rfl, rfl, rfl, rfl, rfl, rfl,
    rfl, rfl, State.status_resetBlock _, rfl, rfl, rfl⟩

/-- Settles O59: the action writes `T_SETTLE` only, and the sequencer writes no register of the environment or the request. -/
theorem settleDurationCaptured : Obligations.SettleDurationCaptured := by
  refine ⟨fun s n d rest hu hi hn => step_setSettle hu hi hn, fun s t h => ?_⟩
  obtain ⟨⟨-, -, -, -, -, -, hsettle, -, -, -, -, hinput, -⟩, -⟩ := s.sequencerStep_keeps t h
  exact ⟨hsettle, hinput⟩

end Sys2Proof.Certificates
end
